-- ==== Sys2Proof/Word.lean ====
section
/-! DEFINITION. The two word types of the spec: a word is 32 bits, a byte is 8 bits (00_scope R10). -/

namespace Sys2Proof

/-- A register value, header word or payload word (R10, R51). -/
abbrev Word := BitVec 32

/-- A payload or response byte (R10, R57). -/
abbrev Byte := BitVec 8

end Sys2Proof
end

