-- ==== Sys2Proof/Config.lean ====
section
/-! DEFINITION. The implementation parameters of the block (00_scope R7), their constraints (R8), their
defaults, and the free values: constants with no body, of which no proof can know anything. -/

namespace Sys2Proof

/-- The twelve numeric data-type codes, "named constants that can be changed as a whole" (30_encoding R74). -/
structure DataTypes where
  genSw0 : BitVec 6
  genSw1 : BitVec 6
  genSw2 : BitVec 6
  genSr0 : BitVec 6
  genSr1 : BitVec 6
  genSr2 : BitVec 6
  dcsSw0 : BitVec 6
  dcsSw1 : BitVec 6
  dcsRead : BitVec 6
  setMaxRet : BitVec 6
  genLw : BitVec 6
  dcsLw : BitVec 6
deriving DecidableEq, Repr

/-- The codes of R74. PRESUMED by the spec itself (MIPI DSI values, D9); log entry 1. -/
def DataTypes.standard : DataTypes where
  genSw0 := 0x03
  genSw1 := 0x13
  genSw2 := 0x23
  genSr0 := 0x04
  genSr1 := 0x14
  genSr2 := 0x24
  dcsSw0 := 0x05
  dcsSw1 := 0x15
  dcsRead := 0x06
  setMaxRet := 0x37
  genLw := 0x29
  dcsLw := 0x39

/-- The configuration record of R7, before the constraints of R8 are checked. -/
structure Params where
  /-- `P_RETRY_MAX`: status reads per poll, and per BTA phase. -/
  retryMax : Nat
  /-- `P_POLL_INTERVAL_US`: the sleep between two reads of a poll. -/
  pollIntervalUs : Nat
  /-- `P_PLD_FIFO_DEPTH`: the longest long-write payload, in bytes. -/
  pldFifoDepth : Nat
  /-- `P_VC`: the virtual channel `send` uses. -/
  vc : Nat
  /-- `P_OFF_*`: byte offsets of the six controller registers (R26, R27). -/
  offCmdPktStatus : Nat
  offGenHdr : Nat
  offGenPldData : Nat
  offCmdModeCfg : Nat
  offPckhdlCfg : Nat
  offPhyStatus : Nat
  /-- `P_BIT_*`: the six FIFO flags of `CMD_PKT_STATUS` (R28). -/
  bitCmdEmpty : Nat
  bitCmdFull : Nat
  bitPldWEmpty : Nat
  bitPldWFull : Nat
  bitPldREmpty : Nat
  bitPldRFull : Nat
  /-- `P_BIT_ACK_RQST_EN` of `CMD_MODE_CFG` (R29). -/
  bitAckRqstEn : Nat
  /-- `P_BIT_BTA_EN` of `PCKHDL_CFG` (R30). -/
  bitBtaEn : Nat
  /-- `P_PHY_DIR_POS`, `P_PHY_DIR_WIDTH`, `P_DIR_TX`, `P_DIR_RX` (R31). -/
  phyDirPos : Nat
  phyDirWidth : Nat
  dirTx : Nat
  dirRx : Nat
  /-- `P_HDR_*`: positions of the four header fields (30_encoding R70). -/
  hdrDtPos : Nat
  hdrVcPos : Nat
  hdrWclPos : Nat
  hdrWcmPos : Nat
  /-- `DT_*` (30_encoding R74). -/
  dt : DataTypes
  /-- `P_BTA_EN_BEFORE_READ_HDR` (43_dispatcher R191). -/
  btaBeforeReadHdr : Bool
deriving DecidableEq, Repr

/-- The six register offsets. -/
def Params.offsets (p : Params) : List Nat :=
  [p.offCmdPktStatus, p.offGenHdr, p.offGenPldData, p.offCmdModeCfg, p.offPckhdlCfg, p.offPhyStatus]

/-- The eight one-bit field positions (R28, R29, R30). -/
def Params.bitPositions (p : Params) : List Nat :=
  [p.bitCmdEmpty, p.bitCmdFull, p.bitPldWEmpty, p.bitPldWFull, p.bitPldREmpty, p.bitPldRFull,
   p.bitAckRqstEn, p.bitBtaEn]

/-- Two fields, given by position and width, share no bit. -/
def apart (pos₁ width₁ pos₂ width₂ : Nat) : Bool :=
  pos₁ + width₁ ≤ pos₂ || pos₂ + width₂ ≤ pos₁

/-- The header fields do not overlap (30_encoding R70). -/
def Params.headerApart (p : Params) : Bool :=
  apart p.hdrDtPos 6 p.hdrVcPos 2 && apart p.hdrDtPos 6 p.hdrWclPos 8 &&
  apart p.hdrDtPos 6 p.hdrWcmPos 8 && apart p.hdrVcPos 2 p.hdrWclPos 8 &&
  apart p.hdrVcPos 2 p.hdrWcmPos 8 && apart p.hdrWclPos 8 p.hdrWcmPos 8

/-- Every field lies within bits 31..0 (R8). -/
def Params.fieldsInWord (p : Params) : Bool :=
  p.bitPositions.all (fun b => b + 1 ≤ 32) && decide (p.phyDirPos + p.phyDirWidth ≤ 32) &&
  decide (p.hdrDtPos + 6 ≤ 32) && decide (p.hdrVcPos + 2 ≤ 32) &&
  decide (p.hdrWclPos + 8 ≤ 32) && decide (p.hdrWcmPos + 8 ≤ 32)

/-- The constraints of R8 (and R70's non-overlap) on a configuration. -/
def Params.wf (p : Params) : Bool :=
  decide (1 ≤ p.retryMax) &&
  (decide (1 ≤ p.pldFifoDepth) && decide (p.pldFifoDepth ≤ 65535)) &&
  (p.offsets.all (fun o => o % 4 = 0) && decide p.offsets.Nodup) &&
  (p.fieldsInWord && p.headerApart) &&
  (decide (p.dirTx ≠ p.dirRx) && decide (p.dirTx < 2 ^ p.phyDirWidth) &&
    decide (p.dirRx < 2 ^ p.phyDirWidth)) &&
  decide (p.vc ≤ 3)

/-- A configuration that meets R8. An ill-formed one cannot be built: "A model must refuse an ill-formed
configuration" (R8, R54). -/
structure Config extends Params where
  valid : toParams.wf = true
deriving DecidableEq, Repr

/-- R8 as an operation: a record of parameters is taken, or refused. -/
def Config.check (p : Params) : Option Config :=
  if h : p.wf = true then some ⟨p, h⟩ else none

/-! The free values. None has a body. -/

/-- What the environment answers to a register read for which no answer is laid down: any word, a fresh one
at every draw (20_memory R52, D36). Log entry 3. -/
opaque Config.freeRead : Nat → Word

/-- An unspecified 32-bit word: a payload word built from bytes the host changed (20_memory R61), or a
response word the host touched (D27). Log entry 6. -/
opaque Config.freeWord : Nat → Word

/-- An unspecified byte: an inline byte the host changed (20_memory R61), a response byte after an error
(10_state R41). Log entries 6 and 9. -/
opaque Config.freeByte : Nat → Byte

/-- The OPEN `P_PLD_FIFO_DEPTH`, less one, so that 1..65535 is all it can be (D21). Log entry 2. -/
opaque Config.openDepthLessOne : Fin 65535

/-- The OPEN `P_VC` (D13). Log entry 2. -/
opaque Config.openVc : BitVec 2

/-- The OPEN `P_PHY_DIR_POS`: a 2-bit field fits at 0..30 (D7). Log entry 2. -/
opaque Config.openDirPos : Fin 31

/-- The OPEN `P_DIR_TX` (D7). Log entry 2. -/
opaque Config.openDirTx : BitVec 2

/-- The OPEN `P_DIR_RX`, as its distance above `P_DIR_TX` modulo 4, less one, so that the two differ (D7, R8).
Log entry 2. -/
opaque Config.openDirGap : Fin 3

/-- The parameters with the defaults of R7 and free constants for the OPEN ones. -/
def Params.default : Params where
  retryMax := 1000
  pollIntervalUs := 10
  pldFifoDepth := Config.openDepthLessOne.val + 1
  vc := Config.openVc.toNat
  offCmdPktStatus := 0x74
  offGenHdr := 0x6C
  offGenPldData := 0x70
  offCmdModeCfg := 0x68
  offPckhdlCfg := 0x2C
  offPhyStatus := 0xB0
  bitCmdEmpty := 0
  bitCmdFull := 1
  bitPldWEmpty := 2
  bitPldWFull := 3
  bitPldREmpty := 4
  bitPldRFull := 5
  bitAckRqstEn := 1
  bitBtaEn := 2
  phyDirPos := Config.openDirPos.val
  phyDirWidth := 2
  dirTx := Config.openDirTx.toNat
  dirRx := (Config.openDirTx.toNat + 1 + Config.openDirGap.val) % 4
  hdrDtPos := 0
  hdrVcPos := 6
  hdrWclPos := 8
  hdrWcmPos := 16
  dt := DataTypes.standard
  btaBeforeReadHdr := false

/-- The defaults meet R8, whatever the OPEN parameters are. -/
theorem Params.default_wf : Params.default.wf = true := by
  have hd := Config.openDepthLessOne.isLt
  have hp := Config.openDirPos.isLt
  have ht := Config.openDirTx.isLt
  have hv := Config.openVc.isLt
  have hg := Config.openDirGap.isLt
  simp only [Params.wf, Params.fieldsInWord, Bool.and_eq_true, decide_eq_true_eq]
  simp only [Params.default, Params.offsets, Params.bitPositions, Params.headerApart, apart]
  refine ⟨⟨⟨⟨⟨by decide, by omega, by omega⟩, by decide⟩, ⟨⟨⟨⟨⟨⟨by decide, by omega⟩, by decide⟩,
    by decide⟩, by decide⟩, by decide⟩, by decide⟩⟩, ⟨by omega, by omega⟩, by omega⟩, by omega⟩

/-- The machine's configuration: the defaults of R7. -/
def Config.default : Config := ⟨Params.default, Params.default_wf⟩

end Sys2Proof
end

