-- ==== Sys2Proof/Syntax.lean ====
section
/-! DEFINITION. What can be presented to the block: one constructor of `Instr` per row of
spec/opcode_table.json, with the operand records of 10_state R33 and 30_encoding R77; and the words those rows
give (`Presented`), as the command port and the wire carry them. -/

namespace Sys2Proof

/-- A payload operand (R33): a stated length, and the byte sequence when the payload is present.
The numbers are the host's own: R86 says which of them have no representation. -/
structure PayloadArg where
  len : Nat
  bytes : Option (List Nat)
deriving DecidableEq, Repr

/-- A response operand (R33): a stated length, and the lent buffer when the response is present. -/
structure ResponseArg where
  len : Nat
  buffer : Option (List Nat)
deriving DecidableEq, Repr

/-- `payload_present` (R33). -/
def PayloadArg.present (p : PayloadArg) : Bool := p.bytes.isSome

/-- `response_present` (R33). -/
def ResponseArg.present (r : ResponseArg) : Bool := r.buffer.isSome

/-- A command descriptor (R33). `flags` bit 0 is `ACK`, bit 1 is `SET_MAX` (R24, R79). -/
structure Descriptor where
  channelId : Nat
  dataType : Nat
  payload : PayloadArg
  response : ResponseArg
  flags : BitVec 2
deriving DecidableEq, Repr

/-- The rows of the opcode table, in its order. -/
inductive Instr where
  /-- `INIT`, op 0x0 (R194). -/
  | init
  /-- `SEND tx rx dcs`, op 0x1 (R188). -/
  | send (tx : PayloadArg) (rx : ResponseArg) (dcs : Bool)
  /-- `GSW d`, op 0x2 (R123). -/
  | gsw (d : Descriptor)
  /-- `DSW d`, op 0x3 (R124). -/
  | dsw (d : Descriptor)
  /-- `LW d`, op 0x4 (R130). -/
  | lw (d : Descriptor)
  /-- `GRD d`, op 0x5 (R191). -/
  | grd (d : Descriptor)
  /-- `WAIT sel`, op 0x6, a 3-bit selector (R104). -/
  | wait (sel : BitVec 3)
  /-- `BTAEN`, op 0x7 (R160). -/
  | btaen
  /-- `BTADIS`, op 0x8 (R161). -/
  | btadis
  /-- `BTAWAIT`, op 0x9 (R164). -/
  | btawait
  /-- The unassigned op 0xA + k (R84, R86). -/
  | reservedOp (k : Fin 6)
  /-- `WAIT sel=PLD_W_NOT_FULL` (R100). -/
  | waitPldWNotFull
  /-- `WAIT sel=PLD_W_EMPTY` (R100). -/
  | waitPldWEmpty
  /-- `WAIT sel=PLD_R_FULL` (R100). -/
  | waitPldRFull
  /-- `WAIT sel=PLD_R_NOT_EMPTY` (R100). -/
  | waitPldRNotEmpty
  /-- `WAIT sel=CMD_NOT_FULL` (R100). -/
  | waitCmdNotFull
  /-- `WAIT sel=CMD_EMPTY` (R100). -/
  | waitCmdEmpty
  /-- The header words (R70, R74): channel, `WC_LSB`, `WC_MSB`. -/
  | hdrGenSw0 (vc : BitVec 2) (lo hi : Byte)
  | hdrGenSw1 (vc : BitVec 2) (lo hi : Byte)
  | hdrGenSw2 (vc : BitVec 2) (lo hi : Byte)
  | hdrGenSr0 (vc : BitVec 2) (lo hi : Byte)
  | hdrGenSr1 (vc : BitVec 2) (lo hi : Byte)
  | hdrGenSr2 (vc : BitVec 2) (lo hi : Byte)
  | hdrDcsSw0 (vc : BitVec 2) (lo hi : Byte)
  | hdrDcsSw1 (vc : BitVec 2) (lo hi : Byte)
  | hdrDcsRead (vc : BitVec 2) (lo hi : Byte)
  | hdrSetMaxRet (vc : BitVec 2) (lo hi : Byte)
  | hdrGenLw (vc : BitVec 2) (lo hi : Byte)
  | hdrDcsLw (vc : BitVec 2) (lo hi : Byte)
  /-- A payload word, as its four bytes, byte 0 lowest (R72). -/
  | pldWord (b0 b1 b2 b3 : Byte)
deriving DecidableEq, Repr

/-- The operand record of a host operation (R76, R77): every operand any operation takes, each read only by
the operations that have it. -/
structure Operands where
  channelId : Nat := 0
  dataType : Nat := 0
  payload : PayloadArg := ⟨0, none⟩
  response : ResponseArg := ⟨0, none⟩
  flags : BitVec 2 := 0
  dcs : Bool := false
  sel : BitVec 3 := 0
deriving DecidableEq, Repr

/-- One presentation, in one of the four formats of the opcode table. -/
inductive Presented where
  /-- Format host_op: a 4-bit op and an operand record (R76). -/
  | hostOp (op : BitVec 4) (args : Operands)
  /-- Format host_op_wait: op in bits 6..3, sel in bits 2..0 (R76, R77, R100). -/
  | hostWait (w : BitVec 7)
  /-- Format gen_header: a word on its way to `GEN_HDR` (R70). -/
  | header (w : Word)
  /-- Format payload_word: a word on its way to `GEN_PLD_DATA` (R72). -/
  | payload (w : Word)
deriving DecidableEq, Repr

end Sys2Proof
end

