-- ==== Sys2Proof/WellFormed.lean ====
section
/-! DEFINITION. Which presented operations have a representation at the interface (30_encoding R86): one
check per bullet of the rule. An operation that fails one is refused (60_exceptions R229). -/

namespace Sys2Proof

/-- "a byte > 255" is refused (R86). -/
def bytesFit (bs : List Nat) : Bool := bs.all (fun b => decide (b ≤ 255))

/-- "a payload marked present whose byte sequence length differs from its `payload_len`" is refused (R86). -/
def PayloadArg.wf (p : PayloadArg) : Bool :=
  match p.bytes with
  | none => true
  | some bs => decide (bs.length = p.len) && bytesFit bs

/-- "`response_len` > 65535" and "a response marked present whose buffer length differs from its
`response_len`" are refused (R86). -/
def ResponseArg.wf (r : ResponseArg) : Bool :=
  decide (r.len ≤ 65535) &&
  match r.buffer with
  | none => true
  | some bs => decide (bs.length = r.len) && bytesFit bs

/-- "a descriptor `channel_id` > 3 or `data_type` > 63" is refused (R86), and so are its buffers' faults. -/
def Descriptor.wf (d : Descriptor) : Bool :=
  decide (d.channelId ≤ 3) && decide (d.dataType ≤ 63) && d.payload.wf && d.response.wf

/-- "`sel` > 5" is refused (R86). -/
def selWf (sel : BitVec 3) : Bool := decide (sel.toNat ≤ 5)

/-- The checks of R86 on a presented operation. "`op` is 0xA–0xF" is the arm of `reservedOp`; the 7-bit waits
and the wire words have no operand that could fail a check. -/
def Instr.wf : Instr → Bool
  | .init => true
  | .send tx rx _ => tx.wf && rx.wf
  | .gsw d => d.wf
  | .dsw d => d.wf
  | .lw d => d.wf
  | .grd d => d.wf
  | .wait sel => selWf sel
  | .btaen => true
  | .btadis => true
  | .btawait => true
  | .reservedOp _ => false
  | .waitPldWNotFull => true
  | .waitPldWEmpty => true
  | .waitPldRFull => true
  | .waitPldRNotEmpty => true
  | .waitCmdNotFull => true
  | .waitCmdEmpty => true
  | .hdrGenSw0 _ _ _ => true
  | .hdrGenSw1 _ _ _ => true
  | .hdrGenSw2 _ _ _ => true
  | .hdrGenSr0 _ _ _ => true
  | .hdrGenSr1 _ _ _ => true
  | .hdrGenSr2 _ _ _ => true
  | .hdrDcsSw0 _ _ _ => true
  | .hdrDcsSw1 _ _ _ => true
  | .hdrDcsRead _ _ _ => true
  | .hdrSetMaxRet _ _ _ => true
  | .hdrGenLw _ _ _ => true
  | .hdrDcsLw _ _ _ => true
  | .pldWord _ _ _ _ => true

end Sys2Proof
end

