-- ==== Sys2Proof/Decode.lean ====
section
/-! DEFINITION. The decoder, total on any presentation and rejecting by name, and after it the encoder, both
from the encoding tables of 30_encoding (R70, R72, R74, R76, R77) and opcode_table.json. The header rows of
the table stand at the default layout and codes (R70, R74; log entry 1). -/

namespace Sys2Proof

/-- Why a presentation is no row of the table. -/
inductive DecodeError where
  /-- A 7-bit word whose op field is not 0x6: only `WAIT` has that format (R76, R100). -/
  | notAWaitWord
  /-- A header word whose data type is none of the twelve of R74, or with a bit set in 31..24 (R70). -/
  | unlistedHeader
deriving DecidableEq, Repr

/-! Fields of a header word at the default layout (R70). -/

def Header.dt (w : Word) : BitVec 6 := w.extractLsb' 0 6
def Header.vc (w : Word) : BitVec 2 := w.extractLsb' 6 2
def Header.lo (w : Word) : Byte := w.extractLsb' 8 8
def Header.hi (w : Word) : Byte := w.extractLsb' 16 8
def Header.unused (w : Word) : Byte := w.extractLsb' 24 8

/-- The header word 00000000 hhhhhhhh llllllll vv dddddd (R70). -/
def Header.word (dt : BitVec 6) (vc : BitVec 2) (lo hi : Byte) : Word := 0#8 ++ hi ++ lo ++ vc ++ dt

/-- Byte k of a payload word is bits 8k+7..8k (R72). -/
def Payload.byte (w : Word) (k : Nat) : Byte := w.extractLsb' (8 * k) 8

/-- The payload word of four bytes, byte 0 lowest (R72, R55). -/
def Payload.word (b0 b1 b2 b3 : Byte) : Word := b3 ++ b2 ++ b1 ++ b0

/-- The descriptor of an operand record (R33, R77). -/
def Operands.descriptor (a : Operands) : Descriptor :=
  ⟨a.channelId, a.dataType, a.payload, a.response, a.flags⟩

/-- Format host_op: the operation table of R76. -/
def decodeHostOp (op : BitVec 4) (a : Operands) : Instr :=
  match op.toNat with
  | 0x0 => .init
  | 0x1 => .send a.payload a.response a.dcs
  | 0x2 => .gsw a.descriptor
  | 0x3 => .dsw a.descriptor
  | 0x4 => .lw a.descriptor
  | 0x5 => .grd a.descriptor
  | 0x6 => .wait a.sel
  | 0x7 => .btaen
  | 0x8 => .btadis
  | 0x9 => .btawait
  | 0xA => .reservedOp 0
  | 0xB => .reservedOp 1
  | 0xC => .reservedOp 2
  | 0xD => .reservedOp 3
  | 0xE => .reservedOp 4
  | _ => .reservedOp 5

/-- Format host_op_wait: the six waits of R100 by selector; selectors 6 and 7 are the illegal ones of R84. -/
def decodeHostWait (w : BitVec 7) : Except DecodeError Instr :=
  if w.extractLsb' 3 4 ≠ 0x6#4 then .error .notAWaitWord
  else match (w.extractLsb' 0 3).toNat with
    | 0 => .ok .waitPldWNotFull
    | 1 => .ok .waitPldWEmpty
    | 2 => .ok .waitPldRFull
    | 3 => .ok .waitPldRNotEmpty
    | 4 => .ok .waitCmdNotFull
    | 5 => .ok .waitCmdEmpty
    | 6 => .ok (.wait 6)
    | _ => .ok (.wait 7)

/-- Format gen_header: the twelve data-type codes of R74. -/
def decodeHeader (w : Word) : Except DecodeError Instr :=
  let vc := Header.vc w
  let lo := Header.lo w
  let hi := Header.hi w
  if Header.unused w ≠ 0#8 then .error .unlistedHeader
  else match (Header.dt w).toNat with
    | 0x03 => .ok (.hdrGenSw0 vc lo hi)
    | 0x13 => .ok (.hdrGenSw1 vc lo hi)
    | 0x23 => .ok (.hdrGenSw2 vc lo hi)
    | 0x04 => .ok (.hdrGenSr0 vc lo hi)
    | 0x14 => .ok (.hdrGenSr1 vc lo hi)
    | 0x24 => .ok (.hdrGenSr2 vc lo hi)
    | 0x05 => .ok (.hdrDcsSw0 vc lo hi)
    | 0x15 => .ok (.hdrDcsSw1 vc lo hi)
    | 0x06 => .ok (.hdrDcsRead vc lo hi)
    | 0x37 => .ok (.hdrSetMaxRet vc lo hi)
    | 0x29 => .ok (.hdrGenLw vc lo hi)
    | 0x39 => .ok (.hdrDcsLw vc lo hi)
    | _ => .error .unlistedHeader

/-- The decoder. -/
def decode : Presented → Except DecodeError Instr
  | .hostOp op a => .ok (decodeHostOp op a)
  | .hostWait w => decodeHostWait w
  | .header w => decodeHeader w
  | .payload w =>
    .ok (.pldWord (Payload.byte w 0) (Payload.byte w 1) (Payload.byte w 2) (Payload.byte w 3))

/-- The operand record of a descriptor, the other operands zero. -/
def Descriptor.operands (d : Descriptor) : Operands :=
  { channelId := d.channelId, dataType := d.dataType, payload := d.payload, response := d.response,
    flags := d.flags }

/-- The encoder: the presentation each row of the table gives. -/
def encode : Instr → Presented
  | .init => .hostOp 0x0#4 {}
  | .send tx rx dcs => .hostOp 0x1#4 { payload := tx, response := rx, dcs := dcs }
  | .gsw d => .hostOp 0x2#4 d.operands
  | .dsw d => .hostOp 0x3#4 d.operands
  | .lw d => .hostOp 0x4#4 d.operands
  | .grd d => .hostOp 0x5#4 d.operands
  | .wait sel => .hostOp 0x6#4 { sel := sel }
  | .btaen => .hostOp 0x7#4 {}
  | .btadis => .hostOp 0x8#4 {}
  | .btawait => .hostOp 0x9#4 {}
  | .reservedOp k => .hostOp (BitVec.ofNat 4 (0xA + k.val)) {}
  | .waitPldWNotFull => .hostWait (0x6#4 ++ 0#3)
  | .waitPldWEmpty => .hostWait (0x6#4 ++ 1#3)
  | .waitPldRFull => .hostWait (0x6#4 ++ 2#3)
  | .waitPldRNotEmpty => .hostWait (0x6#4 ++ 3#3)
  | .waitCmdNotFull => .hostWait (0x6#4 ++ 4#3)
  | .waitCmdEmpty => .hostWait (0x6#4 ++ 5#3)
  | .hdrGenSw0 vc lo hi => .header (Header.word 0x03 vc lo hi)
  | .hdrGenSw1 vc lo hi => .header (Header.word 0x13 vc lo hi)
  | .hdrGenSw2 vc lo hi => .header (Header.word 0x23 vc lo hi)
  | .hdrGenSr0 vc lo hi => .header (Header.word 0x04 vc lo hi)
  | .hdrGenSr1 vc lo hi => .header (Header.word 0x14 vc lo hi)
  | .hdrGenSr2 vc lo hi => .header (Header.word 0x24 vc lo hi)
  | .hdrDcsSw0 vc lo hi => .header (Header.word 0x05 vc lo hi)
  | .hdrDcsSw1 vc lo hi => .header (Header.word 0x15 vc lo hi)
  | .hdrDcsRead vc lo hi => .header (Header.word 0x06 vc lo hi)
  | .hdrSetMaxRet vc lo hi => .header (Header.word 0x37 vc lo hi)
  | .hdrGenLw vc lo hi => .header (Header.word 0x29 vc lo hi)
  | .hdrDcsLw vc lo hi => .header (Header.word 0x39 vc lo hi)
  | .pldWord b0 b1 b2 b3 => .payload (Payload.word b0 b1 b2 b3)

/-- A 32-bit word of the table: a header word where its data type is listed, else a payload word (the table's
PLD_WORD row matches any word). Log entry 8. -/
def presentedOfWord32 (w : Word) : Presented :=
  match decodeHeader w with
  | .ok _ => .header w
  | .error _ => .payload w

/-- The presentation whose bits, numbered as the table numbers them, are `w`, with every operand zero: up to
four bits an op, up to a byte an op or a 7-bit wait, more a 32-bit word. A byte that is neither is given as a
7-bit word that no row has, which the decoder rejects. Log entry 8. -/
def presentedOfWord (nbits w : Nat) : Presented :=
  if nbits ≤ 8 then
    if w < 16 then .hostOp (BitVec.ofNat 4 w) {}
    else if w < 128 then .hostWait (BitVec.ofNat 7 w)
    else .hostWait 0x7F#7
  else presentedOfWord32 (BitVec.ofNat 32 w)

/-- What the decoder reads from a table word. -/
def decodeTableWord (nbits w : Nat) : Option Instr :=
  match decode (presentedOfWord nbits w) with
  | .ok i => some i
  | .error _ => none

end Sys2Proof
end

