-- ==== Sys2Proof/Machine/State.lean ====
section
/-! DEFINITION. The state of the block (10_state R21, 60_exceptions R229), its outputs (R40), its configuration
(00_scope R7) and its inputs, all as plain data; the reasons a step can stop; and the state right after reset
(R39, 70_reset R250). -/

namespace Sys2Proof.Machine

open Sys2Proof

/-- The timeout tags (R220), in the order of their numbers (R78). -/
inductive TimeoutTag where
  | cmdFifo
  | pldFifoWrite
  | pldFifoRead
  | btaPhase1
  | btaPhase2
deriving DecidableEq, Repr

/-- The result of an operation (R220). -/
inductive Result where
  | ok
  | invalidArgument
  | timeout (tag : TimeoutTag)
  | notInitialized
deriving DecidableEq, Repr

/-- A bus or delay event (R40). -/
inductive Event where
  /-- `Rd(off, v)`: a 32-bit register read that returned `v`. -/
  | rd (off : Nat) (v : Word)
  /-- `Wr(off, v)`: a 32-bit register write. -/
  | wr (off : Nat) (v : Word)
  /-- `Slp(us)`: a delay. -/
  | slp (us : Nat)
deriving DecidableEq, Repr

/-- The fault reasons of R228: the values of the fault mark, and the reason a step stops while the mark is
set. -/
inductive Fault where
  /-- Marked by `LW` and by a long-write row of `SEND` when the payload is longer than the FIFO depth (R129,
  R188). Safe: no bus event follows. -/
  | payloadExceedsFifoDepth
  /-- Marked by any operation presented while another is in progress (R230). Safe: no bus event follows. -/
  | overlappingCommand
deriving DecidableEq, Repr

/-- Why a step has no meaning. -/
inductive Refusal where
  /-- Raised by an arm of `exec` that has no meaning yet; no arm is such. Safe. -/
  | notModelled (mnemonic : String)
  /-- Raised by `step` on a presentation that is no row of the opcode table, for the decoder's reason. Safe:
  the spec gives such bits no operation. -/
  | undecodable (why : DecodeError)
deriving DecidableEq, Repr

/-- One item on the command port: an operation the host presents, with the indexes of the payload bytes it
changes and of the response bytes it touches while the operation runs (20_memory R61, D27), or a reset
(R250). -/
inductive HostInput where
  | present (op : Presented) (txChanged rxTouched : List Nat)
  | reset
deriving DecidableEq, Repr

/-- The host's response buffer (R41, R57): (index, byte) cells, indexes strictly rising. An index not listed is
no byte of the buffer. -/
abbrev Memory := List Host.Cell

/-- The machine: configuration, block state, outputs, inputs, and the model's draw counter. -/
structure State where
  /-- The configuration (R7, R8). No step changes it. -/
  cfg : Config
  /-- "a driver-local 'initialized' flag gating all operations" (R21). -/
  initialized : Bool
  /-- True while an operation is in progress (R21, R230). -/
  busy : Bool
  /-- The fault mark (R21, R228). -/
  fault : Option Fault
  /-- The refusal mark (R229). -/
  refused : Bool
  /-- The result the latest operation returned on the command port, if it returned one (R220). -/
  result : Option Result
  /-- The events issued and completed so far, oldest first (R40). -/
  trace : List Event
  /-- The response buffer of the latest read operation (R41). -/
  response : Memory
  /-- Input: what the host presents, next first (R20, R23). -/
  port : List HostInput
  /-- Input: the environment's answers to the next register reads, next first (R52). -/
  reads : List Word
  /-- Input: how many more bus accesses and sleeps the platform completes; `none` is all of them (R261). -/
  stallAfter : Option Nat
  /-- Input: payload bytes the host changes during the operation (R61). -/
  txChanged : List Nat
  /-- Input: response bytes the host touches during the operation (R61, D27). -/
  rxTouched : List Nat
  /-- The model's own: how many free values have been drawn. -/
  draws : Nat
deriving DecidableEq, Repr

/-- The state right after reset (R39, R250): not initialized, not busy, no marks, no operation in progress,
nothing presented. -/
def State.reset : State where
  cfg := Config.default
  initialized := false
  busy := false
  fault := none
  refused := false
  result := none
  trace := []
  response := []
  port := []
  reads := []
  stallAfter := none
  txChanged := []
  rxTouched := []
  draws := 0

end Sys2Proof.Machine
end

