-- ==== Sys2Proof/Machine/Ops.lean ====
section
/-! DEFINITION. The named operations every meaning is written over: the three ports (00_scope R12, 20_memory
R50, R63), the bounded poll (40_poller R101, 42_bta R164), the response buffer (10_state R41), and the one
shared course of an operation: refusal, overlap, gate, verdict, body, result (60_exceptions R225). -/

namespace Sys2Proof.Machine

open Sys2Proof

/-! ### The course of events inside an operation -/

/-- What a piece of an operation's pseudocode comes to: it goes on with a value, or the platform never
completes one of its accesses or sleeps (70_reset R261). -/
inductive Flow (α : Type) where
  | done (a : α) (s : State)
  | stuck (s : State)
deriving Repr

/-- One piece after another; a stuck piece is the end. -/
def Flow.bind {α β : Type} (x : Flow α) (f : α → State → Flow β) : Flow β :=
  match x with
  | .done a s => f a s
  | .stuck s => .stuck s

/-- "if r != Ok: return r" (R125, R130, R191), else go on. -/
def Flow.onOk (x : Flow Result) (f : State → Flow Result) : Flow Result :=
  x.bind fun r s => if r = .ok then f s else .done r s

/-- The state after one more bus access or sleep has completed; `none` where the platform never completes
it (R261). -/
def completes (s : State) : Option State :=
  match s.stallAfter with
  | none => some s
  | some 0 => none
  | some (n + 1) => some { s with stallAfter := some n }

/-- The event joins the trace (R12, R40). -/
def State.log (s : State) (e : Event) : State := { s with trace := s.trace ++ [e] }

/-- The environment's next answer to a register read: the next one laid down, else a free value (R52). -/
def nextRead (s : State) : Word × State :=
  match s.reads with
  | v :: rest => (v, { s with reads := rest })
  | [] => (Config.freeRead s.draws, { s with draws := s.draws + 1 })

/-- `RegRead(off) -> v` (R12, R50). -/
def regRead (off : Nat) (s : State) : Flow Word :=
  match completes s with
  | none => .stuck s
  | some s => .done (nextRead s).1 ((nextRead s).2.log (.rd off (nextRead s).1))

/-- `RegWrite(off, v)` (R12, R50). -/
def regWrite (off : Nat) (v : Word) (s : State) : Flow Unit :=
  match completes s with
  | none => .stuck s
  | some s => .done () (s.log (.wr off v))

/-- `Sleep(us)` (R12, R63). -/
def sleep (us : Nat) (s : State) : Flow Unit :=
  match completes s with
  | none => .stuck s
  | some s => .done () (s.log (.slp us))

/-- The retry loop shared by `wait_for_bit` (R101) and the two phases of `wait_for_ack` (R164): up to the given
number of reads of `off`, a sleep between two reads and none after the last. -/
def poll (off us : Nat) (hit : Word → Bool) (tag : TimeoutTag) : Nat → State → Flow Result
  | 0, s => .done (.timeout tag) s
  | n + 1, s =>
    (regRead off s).bind fun v s =>
      if hit v then .done .ok s
      else if n = 0 then .done (.timeout tag) s
      else (sleep us s).bind fun _ s => poll off us hit tag n s

/-! ### The response buffer -/

/-- Indexes strictly rising: the one form a buffer's cells have. -/
abbrev Memory.wf (m : Memory) : Prop := m.Pairwise (fun a b => a.1 < b.1)

/-- The byte at an index; an index not listed is no byte of the buffer (R57). -/
def Memory.read (m : Memory) (i : Nat) : Option Byte :=
  match m with
  | [] => none
  | (j, b) :: rest => if j = i then some b else Memory.read rest i

/-- `MemWrite(response, i, b)` (R57). -/
def Memory.write (m : Memory) (i : Nat) (b : Byte) : Memory :=
  match m with
  | [] => [(i, b)]
  | (j, c) :: rest =>
    if i < j then (i, b) :: (j, c) :: rest
    else if i = j then (i, b) :: rest
    else (j, c) :: Memory.write rest i b

/-- A buffer holding the given bytes from index `i` on. -/
def Memory.ofBytes (i : Nat) (bs : List Byte) : Memory :=
  match bs with
  | [] => []
  | b :: rest => (i, b) :: Memory.ofBytes (i + 1) rest

/-- `n` free bytes, the draws counted from `k` (R41). -/
def freeBytes (k n : Nat) : List Byte := (List.range n).map fun j => Config.freeByte (k + j)

/-- "After any `Err` the content of bytes 0..R-1 is unspecified" (R41). -/
def scrambleResponse (n : Nat) (s : State) : State :=
  { s with response := Memory.ofBytes 0 (freeBytes s.draws n), draws := s.draws + n }

/-! ### The course of a host operation -/

/-- What the checks before the first event decide (R225, items 4 and 5). -/
inductive Verdict where
  | run
  | invalid
  | fault (f : Fault)
deriving DecidableEq, Repr

/-- A refused operation: "emits no event, changes no block state except setting the refusal mark, and returns
no result" (R86, R229). -/
def refuse (s : State) : State := { s with refused := true, result := none }

/-- `raise Fault(reason)`: the fault mark is set, no event is emitted, no result returned (R228). -/
def raiseFault (f : Fault) (s : State) : State := { s with fault := some f, result := none }

/-- Reset: the one way back from a fault or a refusal mark (R228, R229, R250). It emits no event and does not
touch the controller (R251). -/
def resetBlock (s : State) : State :=
  { s with initialized := false, busy := false, fault := none, refused := false, result := none }

/-- `return`: the operation ends with its result, and the block is idle again (R12, R227, R230). Where it had
a response buffer and ends with an error, the buffer's bytes are unspecified (R41). -/
def reply (lent : Option (List Nat)) (r : Result) (s : State) : State :=
  if r = .ok then { s with busy := false, result := some r }
  else match lent with
    | none => { s with busy := false, result := some r }
    | some buffer => scrambleResponse buffer.length { s with busy := false, result := some r }

/-- The operation starts: `busy` is set (R230) and the response buffer, if any, is lent (R57). -/
def start (lent : Option (List Nat)) (s : State) : State :=
  match lent with
  | none => { s with busy := true, result := none }
  | some buffer =>
    { s with busy := true, result := none, response := Memory.ofBytes 0 (buffer.map (BitVec.ofNat 8)) }

/-- The end of an operation: its result is returned, or it hangs in progress, "a stuck state, not a return"
(R261): `busy` stays set and no result is returned. -/
def finish (lent : Option (List Nat)) : Flow Result → State
  | .done r s => reply lent r s
  | .stuck s => s

/-- Every operation but `INIT`, in the order of R225: refusal, overlap, the `initialized` gate (R196), the
verdict of the checks, then the body. A block whose fault mark is set runs nothing: only reset clears it
(R228). -/
def operation (accepted : Bool) (lent : Option (List Nat)) (verdict : Verdict)
    (body : State → Flow Result) (s : State) : Host.Outcome State Fault Refusal :=
  match s.fault with
  | some f => .fault f
  | none =>
    if accepted = false then .next (refuse s)
    else if s.busy = true then .next (raiseFault .overlappingCommand s)
    else if s.initialized = false then .next (reply lent .notInitialized s)
    else match verdict with
      | .invalid => .next (reply lent .invalidArgument s)
      | .fault f => .next (raiseFault f s)
      | .run => .next (finish lent (body (start lent s)))

end Sys2Proof.Machine
end

