-- ==== Sys2Proof/Machine/Operands.lean ====
section
/-! DEFINITION. Bit fields (00_scope R11), the header and payload words (30_encoding R70–R73, R80, R81), the
operands of a descriptor as bits (R82), and the reading and writing of the host's buffers (20_memory R57,
R61). -/

namespace Sys2Proof.Machine

open Sys2Proof

/-! ### Fields (R11) -/

/-- 2^width - 1. -/
def mask (width : Nat) : Word := BitVec.ofNat 32 (2 ^ width - 1)

/-- `getf(v, pos, width)` (R11). -/
def getf (v : Word) (pos width : Nat) : Word := (v >>> pos) &&& mask width

/-- `setf(v, pos, width, x)` (R11). -/
def setf (v : Word) (pos width : Nat) (x : Word) : Word :=
  (v &&& ~~~(mask width <<< pos)) ||| ((x &&& mask width) <<< pos)

/-! ### Header words -/

/-- `hdr(dt, vc, lo, hi)` at the configured positions (R71). -/
def hdr (c : Config) (dt : BitVec 6) (vc : BitVec 2) (lo hi : Byte) : Word :=
  setf (setf (setf (setf 0#32 c.hdrDtPos 6 (dt.setWidth 32))
    c.hdrVcPos 2 (vc.setWidth 32)) c.hdrWclPos 8 (lo.setWidth 32)) c.hdrWcmPos 8 (hi.setWidth 32)

/-- The low byte of a byte count (R80). -/
def countLo (n : Nat) : Byte := BitVec.ofNat 8 n

/-- The high byte of a byte count (R80; 90_conflicts C2). -/
def countHi (n : Nat) : Byte := BitVec.ofNat 8 (n / 256)

/-- A header whose count fields hold a byte count: a long write (R131) or a maximum return size (R134). -/
def countHdr (c : Config) (dt : BitVec 6) (vc : BitVec 2) (n : Nat) : Word :=
  hdr c dt vc (countLo n) (countHi n)

/-! ### Payload words -/

/-- Byte k of the payload, zero where there is none ("unused high bytes zero", R72). -/
def byteOrZero (p : List Byte) (k : Nat) : Byte := p[k]?.getD 0#8

/-- `pword(p, L, i)` (R72, R55). -/
def pword (p : List Byte) (i : Nat) : Word :=
  (byteOrZero p (4 * i)).setWidth 32 ||| ((byteOrZero p (4 * i + 1)).setWidth 32 <<< 8) |||
  ((byteOrZero p (4 * i + 2)).setWidth 32 <<< 16) ||| ((byteOrZero p (4 * i + 3)).setWidth 32 <<< 24)

/-- `W = (L + 3) div 4`: the words of L bytes (R127). -/
def wordCount (n : Nat) : Nat := (n + 3) / 4

/-- Byte j of a word, bits 8j+7..8j (R73). -/
def wordByte (w : Word) (j : Nat) : Byte := w.extractLsb' (8 * j) 8

/-! ### The operands of a descriptor -/

/-- The payload bytes (R33), at their 8 bits. -/
def payloadBytes (p : PayloadArg) : List Byte := (p.bytes.getD []).map (BitVec.ofNat 8)

/-- `channel_id` as the 2-bit field `VC` (R82). -/
def channelBits (d : Descriptor) : BitVec 2 := BitVec.ofNat 2 d.channelId

/-- `data_type` as the 6-bit field `DT` (R82). -/
def typeBits (d : Descriptor) : BitVec 6 := BitVec.ofNat 6 d.dataType

/-- "`payload` must be non-null whenever payload length > 0" (R34). -/
def payloadGiven (p : PayloadArg) : Bool := decide (p.len = 0) || p.present

/-! ### The host's buffers -/

/-- `(L > k) ? MemRead(payload, k) : 0x00` (R81, R123). A byte the host changes during the operation is
unspecified (R61). -/
def inlineByte (p : PayloadArg) (k : Nat) (s : State) : Byte × State :=
  if p.len ≤ k then (0#8, s)
  else if k ∈ s.txChanged then (Config.freeByte s.draws, { s with draws := s.draws + 1 })
  else (byteOrZero (payloadBytes p) k, s)

/-- Some payload byte of word i is changed by the host during the operation (R61). -/
def wordChanged (p : PayloadArg) (i : Nat) (s : State) : Bool :=
  s.txChanged.any fun k => decide (k < p.len) && decide (k / 4 = i)

/-- Payload word i of a long write; unspecified where the host changes one of its bytes (R61, R72). -/
def payloadWord (p : PayloadArg) (i : Nat) (s : State) : Word × State :=
  if wordChanged p i s then (Config.freeWord s.draws, { s with draws := s.draws + 1 })
  else (pword (payloadBytes p) i, s)

/-- Bytes j, j+1, … of a word go to the buffer's bytes 4i+j, 4i+j+1, … (R73). -/
def writeWordBytes (i : Nat) (w : Word) (m : Memory) : Nat → Memory
  | 0 => m
  | n + 1 => (writeWordBytes i w m n).write (4 * i + n) (wordByte w n)

/-- The host touches some byte of response word i during the operation (R61, D27). -/
def wordTouched (i : Nat) (s : State) : Bool := s.rxTouched.any fun k => decide (k / 4 = i)

/-- The first `n` bytes of response word i are written (R73, R191); what they hold is unspecified where the host
touches the word (R61, D27). -/
def storeWord (i n : Nat) (w : Word) (s : State) : State :=
  if wordTouched i s then
    { s with response := writeWordBytes i (Config.freeWord s.draws) s.response n, draws := s.draws + 1 }
  else { s with response := writeWordBytes i w s.response n }

end Sys2Proof.Machine
end

