-- ==== Sys2Proof/Machine/Flags.lean ====
section
/-! DEFINITION. The flags: the six named waits and the status flag each polls (10_state R28, 40_poller R100), the
PHY direction (R31, 42_bta R164), the two configuration bits of bus turn-around (R29, R30), the descriptor's
flags (R24), the short-write families (41_encoder R120), and the result codes (30_encoding R78). -/

namespace Sys2Proof.Machine

open Sys2Proof

/-- The six named waits, in the order of their selectors (R100). -/
inductive WaitName where
  | pldWNotFull
  | pldWEmpty
  | pldRFull
  | pldRNotEmpty
  | cmdNotFull
  | cmdEmpty
deriving DecidableEq, Repr

/-- Row `sel` of R100; selectors 6 and 7 are refused before a row is looked up (R86). -/
def waitOfSel (sel : BitVec 3) : WaitName :=
  match sel.toNat with
  | 0 => .pldWNotFull
  | 1 => .pldWEmpty
  | 2 => .pldRFull
  | 3 => .pldRNotEmpty
  | 4 => .cmdNotFull
  | _ => .cmdEmpty

/-- The flag a wait polls (R100, R28). -/
def waitBit (c : Config) : WaitName → Nat
  | .pldWNotFull => c.bitPldWFull
  | .pldWEmpty => c.bitPldWEmpty
  | .pldRFull => c.bitPldRFull
  | .pldRNotEmpty => c.bitPldREmpty
  | .cmdNotFull => c.bitCmdFull
  | .cmdEmpty => c.bitCmdEmpty

/-- The value a wait waits for (R100). -/
def waitTarget : WaitName → Word
  | .pldWNotFull => 0
  | .pldWEmpty => 1
  | .pldRFull => 1
  | .pldRNotEmpty => 0
  | .cmdNotFull => 0
  | .cmdEmpty => 1

/-- The timeout tag of a wait: the FIFO it watches (R100). -/
def waitTag : WaitName → TimeoutTag
  | .pldWNotFull => .pldFifoWrite
  | .pldWEmpty => .pldFifoWrite
  | .pldRFull => .pldFifoRead
  | .pldRNotEmpty => .pldFifoRead
  | .cmdNotFull => .cmdFifo
  | .cmdEmpty => .cmdFifo

/-- A status read shows the polled field at its target (R101). -/
def fieldIs (pos width : Nat) (target : Word) (v : Word) : Bool := getf v pos width == target

/-- A read of `CMD_PKT_STATUS` ends the wait (R100). -/
def waitHit (c : Config) (w : WaitName) (v : Word) : Bool := fieldIs (waitBit c w) 1 (waitTarget w) v

/-- `PHY_DIR` of a `PHY_STATUS` read (R31). -/
def phyDir (c : Config) (v : Word) : Word := getf v c.phyDirPos c.phyDirWidth

/-- The direction has left TX (R164, phase 1; R166). -/
def leftTx (c : Config) (v : Word) : Bool := phyDir c v != BitVec.ofNat 32 c.dirTx

/-- The direction has left RX (R164, phase 2; R166). -/
def leftRx (c : Config) (v : Word) : Bool := phyDir c v != BitVec.ofNat 32 c.dirRx

/-- `CMD_MODE_CFG` with `ACK_RQST_EN` set to `b`, every other bit as it was (R29, R37). -/
def withAckRqstEn (c : Config) (b : Bool) (v : Word) : Word := setf v c.bitAckRqstEn 1 (if b then 1 else 0)

/-- `PCKHDL_CFG` with `BTA_EN` set to `b`, every other bit as it was (R30, R37). -/
def withBtaEn (c : Config) (b : Bool) (v : Word) : Word := setf v c.bitBtaEn 1 (if b then 1 else 0)

/-- `ACK` in flags: bit 0 (R24). No operation reads it (R192). -/
def hasAck (f : BitVec 2) : Bool := f.getLsbD 0

/-- `SET_MAX` in flags: bit 1 (R24). -/
def hasSetMax (f : BitVec 2) : Bool := f.getLsbD 1

/-- `gen_sw_family(dt)` (R120). -/
def genSwFamily (c : Config) (dt : BitVec 6) : Bool :=
  dt == c.dt.genSw0 || dt == c.dt.genSw1 || dt == c.dt.genSw2

/-- `dcs_sw_family(dt)` (R120). -/
def dcsSwFamily (c : Config) (dt : BitVec 6) : Bool := dt == c.dt.dcsSw0 || dt == c.dt.dcsSw1

/-- The 2-bit code of a result (R78). -/
def resultCode : Result → BitVec 2
  | .ok => 0
  | .invalidArgument => 1
  | .timeout _ => 2
  | .notInitialized => 3

/-- The 3-bit number of a timeout tag (R78). -/
def tagNumber : TimeoutTag → BitVec 3
  | .cmdFifo => 0
  | .pldFifoWrite => 1
  | .pldFifoRead => 2
  | .btaPhase1 => 3
  | .btaPhase2 => 4

/-- The 3-bit tag of a result: 0 for every code but `Timeout` (R78). -/
def resultTag : Result → BitVec 3
  | .timeout t => tagNumber t
  | .ok => 0
  | .invalidArgument => 0
  | .notInitialized => 0

end Sys2Proof.Machine
end

