-- ==== Sys2Proof/Machine/Bta.lean ====
section
/-! DEFINITION. The BTA handshake sequencer (42_bta): enable, disable, and the two-phase acknowledge wait. -/

namespace Sys2Proof.Machine

open Sys2Proof

/-- A read of a configuration register and its write back, changed by `f` (R160, R161, 20_memory R60). -/
def readModifyWrite (off : Nat) (f : Word → Word) (s : State) : Flow Unit :=
  (regRead off s).bind fun v s => regWrite off (f v) s

/-- Both turn-around bits to `b`, `CMD_MODE_CFG` first (R160, R161, D18). -/
def setBta (b : Bool) (s : State) : Flow Unit :=
  (readModifyWrite s.cfg.offCmdModeCfg (withAckRqstEn s.cfg b) s).bind fun _ s =>
    readModifyWrite s.cfg.offPckhdlCfg (withBtaEn s.cfg b) s

/-- `enable_bta()` (R160). -/
def enableBta (s : State) : Flow Unit := setBta true s

/-- `disable_bta()` (R161). -/
def disableBta (s : State) : Flow Unit := setBta false s

/-- `wait_for_ack()`: phase 1 while the direction reads TX, then phase 2 while it reads RX, each with its own
budget (R164, R165). -/
def waitForAck (s : State) : Flow Result :=
  (poll s.cfg.offPhyStatus s.cfg.pollIntervalUs (leftTx s.cfg) .btaPhase1 s.cfg.retryMax s).onOk fun s =>
    poll s.cfg.offPhyStatus s.cfg.pollIntervalUs (leftRx s.cfg) .btaPhase2 s.cfg.retryMax s

/-- `BTAEN` (R160). -/
def execBtaen (s : State) : Host.Outcome State Fault Refusal :=
  operation true none .run (fun s => (enableBta s).bind fun _ s => .done .ok s) s

/-- `BTADIS` (R161). -/
def execBtadis (s : State) : Host.Outcome State Fault Refusal :=
  operation true none .run (fun s => (disableBta s).bind fun _ s => .done .ok s) s

/-- `BTAWAIT` (R164). -/
def execBtawait (s : State) : Host.Outcome State Fault Refusal := operation true none .run waitForAck s

end Sys2Proof.Machine
end

