-- ==== Sys2Proof/Machine/Poller.lean ====
section
/-! DEFINITION. The FIFO status poller (40_poller): `wait_for_bit`, the named waits, and the operations `WAIT`. -/

namespace Sys2Proof.Machine

open Sys2Proof

/-- `wait_for_bit(off, pos, width, target, tag)` (R101). -/
def waitForBit (off pos width : Nat) (target : Word) (tag : TimeoutTag) (s : State) : Flow Result :=
  poll off s.cfg.pollIntervalUs (fieldIs pos width target) tag s.cfg.retryMax s

/-- `Wait(name)` (R100). -/
def waitFor (w : WaitName) (s : State) : Flow Result :=
  waitForBit s.cfg.offCmdPktStatus (waitBit s.cfg w) 1 (waitTarget w) (waitTag w) s

/-- A named wait run as an operation (R104). -/
def waitOperation (accepted : Bool) (w : WaitName) (s : State) : Host.Outcome State Fault Refusal :=
  operation accepted none .run (waitFor w) s

/-- `WAIT sel` (R104). -/
def execWait (sel : BitVec 3) (s : State) : Host.Outcome State Fault Refusal :=
  waitOperation (selWf sel) (waitOfSel sel) s

/-- `WAIT sel=PLD_W_NOT_FULL` (R100, R104). -/
def execWaitPldWNotFull (s : State) : Host.Outcome State Fault Refusal := waitOperation true .pldWNotFull s

/-- `WAIT sel=PLD_W_EMPTY` (R100, R104). -/
def execWaitPldWEmpty (s : State) : Host.Outcome State Fault Refusal := waitOperation true .pldWEmpty s

/-- `WAIT sel=PLD_R_FULL` (R100, R104). -/
def execWaitPldRFull (s : State) : Host.Outcome State Fault Refusal := waitOperation true .pldRFull s

/-- `WAIT sel=PLD_R_NOT_EMPTY` (R100, R104). -/
def execWaitPldRNotEmpty (s : State) : Host.Outcome State Fault Refusal := waitOperation true .pldRNotEmpty s

/-- `WAIT sel=CMD_NOT_FULL` (R100, R104). -/
def execWaitCmdNotFull (s : State) : Host.Outcome State Fault Refusal := waitOperation true .cmdNotFull s

/-- `WAIT sel=CMD_EMPTY` (R100, R104). -/
def execWaitCmdEmpty (s : State) : Host.Outcome State Fault Refusal := waitOperation true .cmdEmpty s

end Sys2Proof.Machine
end

