-- ==== Sys2Proof/Machine/Encoder.lean ====
section
/-! DEFINITION. The packet encoder (41_encoder): the gated header write, the short writes, the long write. -/

namespace Sys2Proof.Machine

open Sys2Proof

/-- `HdrWrite(h)`: every header write waits for the command FIFO not to be full (R125). -/
def hdrWrite (h : Word) (s : State) : Flow Result :=
  (waitFor .cmdNotFull s).onOk fun s => (regWrite s.cfg.offGenHdr h s).bind fun _ s => .done .ok s

/-- A payload word, gated by the payload-write FIFO not being full (R130). -/
def pldWrite (word : State → Word × State) (s : State) : Flow Result :=
  (waitFor .pldWNotFull s).onOk fun s =>
    (regWrite s.cfg.offGenPldData (word s).1 (word s).2).bind fun _ s => .done .ok s

/-! ### Short writes -/

/-- `gsw_valid(d)` (R121). -/
def gswValid (c : Config) (d : Descriptor) : Bool :=
  decide (d.payload.len ≤ 2) && payloadGiven d.payload && genSwFamily c (typeBits d)

/-- `dsw_valid(d)` (R122). -/
def dswValid (c : Config) (d : Descriptor) : Bool :=
  decide (d.payload.len ≤ 1) && payloadGiven d.payload && dcsSwFamily c (typeBits d)

/-- The check of `GSW` before the first event (R123). -/
def gswVerdict (c : Config) (d : Descriptor) : Verdict := if gswValid c d then .run else .invalid

/-- The check of `DSW` before the first event (R124). -/
def dswVerdict (c : Config) (d : Descriptor) : Verdict := if dswValid c d then .run else .invalid

/-- A header with up to two inline bytes (R81): the body of `GSW` (R123), and the read-request header (R133). -/
def inlineHdr (d : Descriptor) (s : State) : Word × State :=
  let lo := inlineByte d.payload 0 s
  let hi := inlineByte d.payload 1 lo.2
  (hdr s.cfg (typeBits d) (channelBits d) lo.1 hi.1, hi.2)

/-- `gsw_body(d)` (R123, R187). -/
def gswBody (d : Descriptor) (s : State) : Flow Result := hdrWrite (inlineHdr d s).1 (inlineHdr d s).2

/-- `dsw_body(d)`: one inline byte at most, `WC_MSB` zero (R124, R187). -/
def dswBody (d : Descriptor) (s : State) : Flow Result :=
  let lo := inlineByte d.payload 0 s
  hdrWrite (hdr s.cfg (typeBits d) (channelBits d) lo.1 0#8) lo.2

/-- `GSW d` (R123). -/
def execGsw (d : Descriptor) (s : State) : Host.Outcome State Fault Refusal :=
  operation d.wf none (gswVerdict s.cfg d) (gswBody d) s

/-- `DSW d` (R124). -/
def execDsw (d : Descriptor) (s : State) : Host.Outcome State Fault Refusal :=
  operation d.wf none (dswVerdict s.cfg d) (dswBody d) s

/-! ### Long write -/

/-- The checks of `LW` before the first event, null before depth (R129). -/
def lwVerdict (c : Config) (d : Descriptor) : Verdict :=
  if payloadGiven d.payload = false then .invalid
  else if c.pldFifoDepth < d.payload.len then .fault .payloadExceedsFifoDepth
  else .run

/-- Payload words i, i+1, …, the given number of them, each gated (R130). -/
def writePayload (p : PayloadArg) : Nat → Nat → State → Flow Result
  | 0, _, s => .done .ok s
  | n + 1, i, s => (pldWrite (payloadWord p i) s).onOk fun s => writePayload p n (i + 1) s

/-- `lw_body(d)`: every payload word, then the header with the byte count (R130, R131). -/
def lwBody (d : Descriptor) (s : State) : Flow Result :=
  (writePayload d.payload (wordCount d.payload.len) 0 s).onOk fun s =>
    hdrWrite (countHdr s.cfg (typeBits d) (channelBits d) d.payload.len) s

/-- `LW d` (R130). -/
def execLw (d : Descriptor) (s : State) : Host.Outcome State Fault Refusal :=
  operation d.wf none (lwVerdict s.cfg d) (lwBody d) s

end Sys2Proof.Machine
end

