-- ==== Sys2Proof/Machine/Read.lean ====
section
/-! DEFINITION. The read path (43_dispatcher, section 3): `GRD`. -/

namespace Sys2Proof.Machine

open Sys2Proof

/-- `grd_valid(d)` (R190). -/
def grdValid (d : Descriptor) : Bool :=
  decide (d.payload.len ≤ 2) && payloadGiven d.payload && d.response.present

/-- The check of `GRD` before the first event (R191). -/
def grdVerdict (d : Descriptor) : Verdict := if grdValid d then .run else .invalid

/-- The preliminary maximum-return-size header, where `SET_MAX` is set (R134, R191). -/
def maxSizeHdr (d : Descriptor) (s : State) : Flow Result :=
  if hasSetMax d.flags then
    hdrWrite (countHdr s.cfg s.cfg.dt.setMaxRet (channelBits d) d.response.len) s
  else .done .ok s

/-- The read-request header and `enable_bta`, in the configured order (R133, R191, D16). The inline bytes are
read before either. -/
def readRequest (d : Descriptor) (s : State) : Flow Result :=
  let h := inlineHdr d s
  if s.cfg.btaBeforeReadHdr then (enableBta h.2).bind fun _ s => hdrWrite h.1 s
  else (hdrWrite h.1 h.2).onOk fun s => (enableBta s).bind fun _ s => .done .ok s

/-- Response words i, i+1, …, the given number of them, each gated by the payload-read FIFO not being empty;
of the last one only the bytes below R are kept (R73, R191, R198). -/
def readWords (r : Nat) : Nat → Nat → State → Flow Result
  | 0, _, s => .done .ok s
  | n + 1, i, s =>
    (waitFor .pldRNotEmpty s).onOk fun s =>
      (regRead s.cfg.offGenPldData s).bind fun w s =>
        readWords r n (i + 1) (storeWord i (min 4 (r - 4 * i)) w s)

/-- `grd_seq(d)` (R191). -/
def grdSeq (d : Descriptor) (s : State) : Flow Result :=
  (maxSizeHdr d s).onOk fun s =>
    (readRequest d s).onOk fun s =>
      (waitForAck s).onOk fun s => readWords d.response.len (wordCount d.response.len) 0 s

/-- `grd_body(d)` after its validity check: BTA is disabled on every path (R191, R193). -/
def grdBody (d : Descriptor) (s : State) : Flow Result :=
  (grdSeq d s).bind fun r s => (disableBta s).bind fun _ s => .done r s

/-- `GRD d` (R191). -/
def execGrd (d : Descriptor) (s : State) : Host.Outcome State Fault Refusal :=
  operation d.wf d.response.buffer (grdVerdict d) (grdBody d) s

end Sys2Proof.Machine
end

