-- ==== Sys2Proof/Machine/Send.lean ====
section
/-! DEFINITION. The dispatcher (43_dispatcher, sections 1, 2 and 4): classification, `SEND`, `INIT`, and the
refusal of an unassigned op. -/

namespace Sys2Proof.Machine

open Sys2Proof

/-! ### Classification -/

/-- The fifteen rows of R184. -/
inductive Row where
  | sr0g
  | sr0d
  | sw0g
  | sw0d
  | sr1g
  | x1d
  | sw1g
  | sw1d
  | sr2g
  | x2d
  | sw2g
  | x2n
  | x3r
  | lwg
  | lwd
deriving DecidableEq, Repr

/-- The component body a row runs (R184, R187). -/
inductive Path where
  | gsw
  | dsw
  | lw
  | read
deriving DecidableEq, Repr

/-- `classify(L, req, dcs)` (R184). -/
def classify (len : Nat) (req dcs : Bool) : Row :=
  match len, req, dcs with
  | 0, true, false => .sr0g
  | 0, true, true => .sr0d
  | 0, false, false => .sw0g
  | 0, false, true => .sw0d
  | 1, true, false => .sr1g
  | 1, true, true => .x1d
  | 1, false, false => .sw1g
  | 1, false, true => .sw1d
  | 2, true, false => .sr2g
  | 2, true, true => .x2d
  | 2, false, false => .sw2g
  | 2, false, true => .x2n
  | _, true, _ => .x3r
  | _, false, false => .lwg
  | _, false, true => .lwd

/-- What an accepted row runs, with the data type it gives; `none` is a rejection (R184). -/
def rowPath (c : Config) : Row → Option (Path × BitVec 6)
  | .sr0g => some (.read, c.dt.genSr0)
  | .sr0d => some (.read, c.dt.dcsRead)
  | .sw0g => some (.gsw, c.dt.genSw0)
  | .sw0d => some (.dsw, c.dt.dcsSw0)
  | .sr1g => some (.read, c.dt.genSr1)
  | .x1d => none
  | .sw1g => some (.gsw, c.dt.genSw1)
  | .sw1d => some (.dsw, c.dt.dcsSw0)
  | .sr2g => some (.read, c.dt.genSr2)
  | .x2d => none
  | .sw2g => some (.gsw, c.dt.genSw2)
  | .x2n => none
  | .x3r => none
  | .lwg => some (.lw, c.dt.genLw)
  | .lwd => some (.lw, c.dt.dcsLw)

/-- The flags a row gives: ACK and SET_MAX on a read, none else (R184). -/
def pathFlags : Path → BitVec 2
  | .read => 0b11
  | .gsw => 0b00
  | .dsw => 0b00
  | .lw => 0b00

/-- The descriptor `send` builds for an accepted row (R186). -/
def sendDescriptor (c : Config) (tx : PayloadArg) (rx : ResponseArg) (path : Path) (dt : BitVec 6) :
    Descriptor :=
  ⟨c.vc, dt.toNat, tx, rx, pathFlags path⟩

/-- The check of a component before its first event (R187). -/
def pathVerdict (c : Config) (d : Descriptor) : Path → Verdict
  | .gsw => gswVerdict c d
  | .dsw => dswVerdict c d
  | .lw => lwVerdict c d
  | .read => grdVerdict d

/-- The body of a component (R187). -/
def pathBody (d : Descriptor) : Path → State → Flow Result
  | .gsw => gswBody d
  | .dsw => dswBody d
  | .lw => lwBody d
  | .read => grdBody d

/-- What `send` runs: the row's path and descriptor, or nothing for a rejected row (R182, R184, R186). -/
def sendPlan (c : Config) (tx : PayloadArg) (rx : ResponseArg) (dcs : Bool) : Option (Path × Descriptor) :=
  match rowPath c (classify tx.len (decide (0 < rx.len)) dcs) with
  | none => none
  | some (path, dt) => some (path, sendDescriptor c tx rx path dt)

/-- "R > 0 and rx is absent" and "L > 0 and tx is absent" are rejected before classification (R200). -/
def sendNull (tx : PayloadArg) (rx : ResponseArg) : Bool :=
  (decide (0 < tx.len) && !tx.present) || (decide (0 < rx.len) && !rx.present)

/-- Every check of `send` before its first event (R188, R189, R200). -/
def sendVerdict (c : Config) (tx : PayloadArg) (rx : ResponseArg) (dcs : Bool) : Verdict :=
  if sendNull tx rx then .invalid
  else match sendPlan c tx rx dcs with
    | none => .invalid
    | some (path, d) => pathVerdict c d path

/-- The body of `send`: the component the row names (R187, R188). -/
def sendBody (tx : PayloadArg) (rx : ResponseArg) (dcs : Bool) (s : State) : Flow Result :=
  match sendPlan s.cfg tx rx dcs with
  | none => .done .invalidArgument s
  | some (path, d) => pathBody d path s

/-- `SEND tx rx dcs` (R188). -/
def execSend (tx : PayloadArg) (rx : ResponseArg) (dcs : Bool) (s : State) :
    Host.Outcome State Fault Refusal :=
  operation (tx.wf && rx.wf) rx.buffer (sendVerdict s.cfg tx rx dcs) (sendBody tx rx dcs) s

/-! ### Initialize, and the unassigned ops -/

/-- `INIT`: idempotent, never refused, gated by nothing but overlap (R194, R195, R225). -/
def execInit (s : State) : Host.Outcome State Fault Refusal :=
  match s.fault with
  | some f => .fault f
  | none =>
    if s.busy = true then .next (raiseFault .overlappingCommand s)
    else .next (reply none .ok { s with initialized := true })

/-- An unassigned op: refused, which sets the refusal mark (R84, R86, R229). -/
def execReservedOp (_ : Fin 6) (s : State) : Host.Outcome State Fault Refusal :=
  operation false none .run (fun s => .done .ok s) s

end Sys2Proof.Machine
end

