-- ==== Sys2Proof/Machine/Wire.lean ====
section
/-! DEFINITION. The wire words of the opcode table: a header word on its way to `GEN_HDR`, a payload word on its
way to `GEN_PLD_DATA`. The block issues these words inside its operations, gated as 41_encoder R125 and R130
say; a wire word presented alone is that one gated write. Log entry 13. -/

namespace Sys2Proof.Machine

open Sys2Proof

/-- One header word, gated (R125), under the gate every operation has (R196). -/
def issueHdr (dt : Config → BitVec 6) (vc : BitVec 2) (lo hi : Byte) (s : State) :
    Host.Outcome State Fault Refusal :=
  operation true none .run (hdrWrite (hdr s.cfg (dt s.cfg) vc lo hi)) s

/-- Header `GEN_SW0` (R74, R123). -/
def execHdrGenSw0 (vc : BitVec 2) (lo hi : Byte) (s : State) : Host.Outcome State Fault Refusal :=
  issueHdr (fun c => c.dt.genSw0) vc lo hi s

/-- Header `GEN_SW1` (R74, R123). -/
def execHdrGenSw1 (vc : BitVec 2) (lo hi : Byte) (s : State) : Host.Outcome State Fault Refusal :=
  issueHdr (fun c => c.dt.genSw1) vc lo hi s

/-- Header `GEN_SW2` (R74, R123). -/
def execHdrGenSw2 (vc : BitVec 2) (lo hi : Byte) (s : State) : Host.Outcome State Fault Refusal :=
  issueHdr (fun c => c.dt.genSw2) vc lo hi s

/-- Header `GEN_SR0` (R74, R133). -/
def execHdrGenSr0 (vc : BitVec 2) (lo hi : Byte) (s : State) : Host.Outcome State Fault Refusal :=
  issueHdr (fun c => c.dt.genSr0) vc lo hi s

/-- Header `GEN_SR1` (R74, R133). -/
def execHdrGenSr1 (vc : BitVec 2) (lo hi : Byte) (s : State) : Host.Outcome State Fault Refusal :=
  issueHdr (fun c => c.dt.genSr1) vc lo hi s

/-- Header `GEN_SR2` (R74, R133). -/
def execHdrGenSr2 (vc : BitVec 2) (lo hi : Byte) (s : State) : Host.Outcome State Fault Refusal :=
  issueHdr (fun c => c.dt.genSr2) vc lo hi s

/-- Header `DCS_SW0` (R74, R124). -/
def execHdrDcsSw0 (vc : BitVec 2) (lo hi : Byte) (s : State) : Host.Outcome State Fault Refusal :=
  issueHdr (fun c => c.dt.dcsSw0) vc lo hi s

/-- Header `DCS_SW1` (R74, R124). -/
def execHdrDcsSw1 (vc : BitVec 2) (lo hi : Byte) (s : State) : Host.Outcome State Fault Refusal :=
  issueHdr (fun c => c.dt.dcsSw1) vc lo hi s

/-- Header `DCS_READ` (R74, R133). -/
def execHdrDcsRead (vc : BitVec 2) (lo hi : Byte) (s : State) : Host.Outcome State Fault Refusal :=
  issueHdr (fun c => c.dt.dcsRead) vc lo hi s

/-- Header `SET_MAX_RET` (R74, R134). -/
def execHdrSetMaxRet (vc : BitVec 2) (lo hi : Byte) (s : State) : Host.Outcome State Fault Refusal :=
  issueHdr (fun c => c.dt.setMaxRet) vc lo hi s

/-- Header `GEN_LW` (R74, R131). -/
def execHdrGenLw (vc : BitVec 2) (lo hi : Byte) (s : State) : Host.Outcome State Fault Refusal :=
  issueHdr (fun c => c.dt.genLw) vc lo hi s

/-- Header `DCS_LW` (R74, R131). -/
def execHdrDcsLw (vc : BitVec 2) (lo hi : Byte) (s : State) : Host.Outcome State Fault Refusal :=
  issueHdr (fun c => c.dt.dcsLw) vc lo hi s

/-- One payload word, gated (R72, R130). -/
def execPldWord (b0 b1 b2 b3 : Byte) (s : State) : Host.Outcome State Fault Refusal :=
  operation true none .run (pldWrite fun s => (pword [b0, b1, b2, b3] 0, s)) s

end Sys2Proof.Machine
end

