-- ==== Sys2Proof/Machine/Dispatch.lean ====
section
/-! DEFINITION. One arm per row of the opcode table, each one direct call of its meaning. -/

namespace Sys2Proof.Machine

open Sys2Proof

/-- The effect of one presented operation or wire word. -/
def exec (i : Instr) (s : State) : Host.Outcome State Fault Refusal :=
  match i with
  | .init => Sys2Proof.Machine.execInit s
  | .send tx rx dcs => Sys2Proof.Machine.execSend tx rx dcs s
  | .gsw d => Sys2Proof.Machine.execGsw d s
  | .dsw d => Sys2Proof.Machine.execDsw d s
  | .lw d => Sys2Proof.Machine.execLw d s
  | .grd d => Sys2Proof.Machine.execGrd d s
  | .wait sel => Sys2Proof.Machine.execWait sel s
  | .btaen => Sys2Proof.Machine.execBtaen s
  | .btadis => Sys2Proof.Machine.execBtadis s
  | .btawait => Sys2Proof.Machine.execBtawait s
  | .reservedOp k => Sys2Proof.Machine.execReservedOp k s
  | .waitPldWNotFull => Sys2Proof.Machine.execWaitPldWNotFull s
  | .waitPldWEmpty => Sys2Proof.Machine.execWaitPldWEmpty s
  | .waitPldRFull => Sys2Proof.Machine.execWaitPldRFull s
  | .waitPldRNotEmpty => Sys2Proof.Machine.execWaitPldRNotEmpty s
  | .waitCmdNotFull => Sys2Proof.Machine.execWaitCmdNotFull s
  | .waitCmdEmpty => Sys2Proof.Machine.execWaitCmdEmpty s
  | .hdrGenSw0 vc lo hi => Sys2Proof.Machine.execHdrGenSw0 vc lo hi s
  | .hdrGenSw1 vc lo hi => Sys2Proof.Machine.execHdrGenSw1 vc lo hi s
  | .hdrGenSw2 vc lo hi => Sys2Proof.Machine.execHdrGenSw2 vc lo hi s
  | .hdrGenSr0 vc lo hi => Sys2Proof.Machine.execHdrGenSr0 vc lo hi s
  | .hdrGenSr1 vc lo hi => Sys2Proof.Machine.execHdrGenSr1 vc lo hi s
  | .hdrGenSr2 vc lo hi => Sys2Proof.Machine.execHdrGenSr2 vc lo hi s
  | .hdrDcsSw0 vc lo hi => Sys2Proof.Machine.execHdrDcsSw0 vc lo hi s
  | .hdrDcsSw1 vc lo hi => Sys2Proof.Machine.execHdrDcsSw1 vc lo hi s
  | .hdrDcsRead vc lo hi => Sys2Proof.Machine.execHdrDcsRead vc lo hi s
  | .hdrSetMaxRet vc lo hi => Sys2Proof.Machine.execHdrSetMaxRet vc lo hi s
  | .hdrGenLw vc lo hi => Sys2Proof.Machine.execHdrGenLw vc lo hi s
  | .hdrDcsLw vc lo hi => Sys2Proof.Machine.execHdrDcsLw vc lo hi s
  | .pldWord b0 b1 b2 b3 => Sys2Proof.Machine.execPldWord b0 b1 b2 b3 s

end Sys2Proof.Machine
end

