-- ==== Sys2Proof/Machine/Step.lean ====
section
/-! DEFINITION. One step: the next item of the command port. The block has no program counter and fetches
nothing (10_state R23): "The next operation begins only when the host presents it on the command port". -/

namespace Sys2Proof.Machine

open Sys2Proof

/-- The state with the first port item taken, and what the host does to its buffers meanwhile. -/
def State.taken (s : State) (rest : List HostInput) (txChanged rxTouched : List Nat) : State :=
  { s with port := rest, txChanged := txChanged, rxTouched := rxTouched }

/-- One step: a reset, a presented operation run whole, or, with nothing presented, waiting (R23, R250). -/
def step (s : State) : Host.Outcome State Fault Refusal :=
  match s.port with
  | [] => .next s
  | .reset :: rest => .next (resetBlock { s with port := rest })
  | .present op txChanged rxTouched :: rest =>
    match decode op with
    | .ok i => exec i (s.taken rest txChanged rxTouched)
    | .error why => .refused (.undecodable why)

/-- The state with a table word presented next. -/
def State.withFetchWord (s : State) (nbits w : Nat) : State :=
  { s with port := .present (presentedOfWord nbits w) [] [] :: s.port }

end Sys2Proof.Machine
end

