-- ==== Sys2Proof/Safety.lean ====
section
/-! DEFINITION. The terms claims are made in: when the block is ready for an operation, what the environment is
going to answer, the events of a poll, what the block has written, when bus turn-around is enabled (42_bta R162),
and what a safe trace is (20_memory R50, R63; 70_reset R255). -/

namespace Sys2Proof.Machine

open Sys2Proof

/-! ### The state an operation starts in -/

/-- Initialized, idle, and without a fault mark: an accepted operation runs (R225, R227). -/
def Ready (s : State) : Prop := s.fault = none ∧ s.busy = false ∧ s.initialized = true

/-- The platform completes every bus access and every sleep (D26). -/
def Live (s : State) : Prop := s.stallAfter = none

/-- The host leaves both buffers alone during the operation, as R61 asks of it. -/
def Stable (s : State) : Prop := s.txChanged = [] ∧ s.rxTouched = []

/-! ### What the environment is going to answer (R52) -/

/-- The answer to the register read after the next `k`: laid down, or free. -/
def State.peek (s : State) (k : Nat) : Word :=
  match s.reads[k]? with
  | some v => v
  | none => Config.freeRead (s.draws + (k - s.reads.length))

/-- The answers to `n` register reads, from the one after the next `k` on. -/
def State.peeks (s : State) (k n : Nat) : List Word := (List.range n).map fun j => s.peek (k + j)

/-- The state with `n` answers used up. -/
def State.afterReads (s : State) (n : Nat) : State :=
  { s with reads := s.reads.drop n, draws := s.draws + (n - s.reads.length) }

/-- The first `k` of the answers from the `a`-th on miss, and the next one hits. -/
def State.FirstHit (s : State) (hit : Word → Bool) (a k : Nat) : Prop :=
  (∀ j, j < k → hit (s.peek (a + j)) = false) ∧ hit (s.peek (a + k)) = true

/-- All the `n` answers from the `a`-th on miss. -/
def State.AllMiss (s : State) (hit : Word → Bool) (a n : Nat) : Prop :=
  ∀ j, j < n → hit (s.peek (a + j)) = false

/-! ### Traces -/

/-- The reads of a poll, a sleep between two of them (R101, R102). -/
def pollTrace (off us : Nat) : List Word → List Event
  | [] => []
  | [v] => [.rd off v]
  | v :: w :: rest => .rd off v :: .slp us :: pollTrace off us (w :: rest)

/-- The events of one poll of `CMD_PKT_STATUS` with the given answers. -/
def statusPoll (c : Config) (vs : List Word) : List Event := pollTrace c.offCmdPktStatus c.pollIntervalUs vs

/-- The events of one poll of `PHY_STATUS` with the given answers. -/
def phyPoll (c : Config) (vs : List Word) : List Event := pollTrace c.offPhyStatus c.pollIntervalUs vs

/-- The reads of a poll that matched: the last one, within the budget of `n`, and none before it (R101, R102). -/
def PollMatched (n : Nat) (hit : Word → Bool) (vs : List Word) : Prop :=
  ∃ ms v, vs = ms ++ [v] ∧ ms.length < n ∧ (∀ m ∈ ms, hit m = false) ∧ hit v = true

/-- The reads of a poll that timed out: the whole budget of `n`, none matching (R101, R102). -/
def PollMissed (n : Nat) (hit : Word → Bool) (vs : List Word) : Prop :=
  vs.length = n ∧ ∀ v ∈ vs, hit v = false

/-- One part of what an operation does on the bus: a poll with the tag it times out with, or accesses with no
poll of their own, as a condition on their events. -/
inductive Part where
  | wait (off : Nat) (hit : Word → Bool) (tag : TimeoutTag)
  | access (events : List Event → Prop)

/-- The events and the result of an operation whose parts run in order: every poll matches and the result is
`Ok`, or one poll misses, which ends the events, and the result is its timeout (R102, R135, R222, R224). -/
def Course (c : Config) : List Part → List Event → Result → Prop
  | [], evs, r => evs = [] ∧ r = .ok
  | .wait off hit tag :: rest, evs, r =>
    (∃ vs more, PollMatched c.retryMax hit vs ∧ evs = pollTrace off c.pollIntervalUs vs ++ more ∧
      Course c rest more r) ∨
    (∃ vs, PollMissed c.retryMax hit vs ∧ evs = pollTrace off c.pollIntervalUs vs ∧ r = .timeout tag)
  | .access events :: rest, evs, r => ∃ a more, events a ∧ evs = a ++ more ∧ Course c rest more r

/-- The four events of `enable_bta` and `disable_bta`: what was read, and what was written (R160, R161). -/
def btaTrace (c : Config) (a a' b b' : Word) : List Event :=
  [.rd c.offCmdModeCfg a, .wr c.offCmdModeCfg a', .rd c.offPckhdlCfg b, .wr c.offPckhdlCfg b']

/-- The register writes of a trace, offset and value, in order. -/
def writes : List Event → List (Nat × Word)
  | [] => []
  | .wr off v :: rest => (off, v) :: writes rest
  | .rd _ _ :: rest => writes rest
  | .slp _ :: rest => writes rest

/-- The values the reads of one register returned, in order. -/
def readsAt (off : Nat) : List Event → List Word
  | [] => []
  | .rd o v :: rest => if o = off then v :: readsAt off rest else readsAt off rest
  | .wr _ _ :: rest => readsAt off rest
  | .slp _ :: rest => readsAt off rest

/-- The last value the block wrote to a register. -/
def lastWrite (off : Nat) (t : List Event) : Option Word :=
  (((writes t).filter fun w => w.1 = off).map fun w => w.2).getLast?

/-- "BTA is enabled" (R162): both last writes had the bit set. -/
def BtaEnabled (c : Config) (t : List Event) : Prop :=
  ∃ a b, lastWrite c.offCmdModeCfg t = some a ∧ lastWrite c.offPckhdlCfg t = some b ∧
    a.getLsbD c.bitAckRqstEn = true ∧ b.getLsbD c.bitBtaEn = true

/-- "disabled when both had the bit 0" (R162). -/
def BtaDisabled (c : Config) (t : List Event) : Prop :=
  ∃ a b, lastWrite c.offCmdModeCfg t = some a ∧ lastWrite c.offPckhdlCfg t = some b ∧
    a.getLsbD c.bitAckRqstEn = false ∧ b.getLsbD c.bitBtaEn = false

/-! ### Safe traces -/

/-- An event the block may issue: each register only as R26 gives the block access to it, and sleeps only of the
poll interval (R50, R63). -/
def eventLegal (c : Config) : Event → Prop
  | .rd off _ => off = c.offCmdPktStatus ∨ off = c.offPhyStatus ∨ off = c.offGenPldData ∨
      off = c.offCmdModeCfg ∨ off = c.offPckhdlCfg
  | .wr off _ => off = c.offGenHdr ∨ off = c.offGenPldData ∨ off = c.offCmdModeCfg ∨ off = c.offPckhdlCfg
  | .slp us => us = c.pollIntervalUs

/-- The event before is the read that ended the named wait. -/
def endedWait (c : Config) (w : WaitName) : Option Event → Bool
  | some (.rd off v) => decide (off = c.offCmdPktStatus) && waitHit c w v
  | some (.wr _ _) => false
  | some (.slp _) => false
  | none => false

/-- A FIFO access has its poll's matching read immediately before it (R255). -/
def gateKept (c : Config) (prev : Option Event) : Event → Bool
  | .wr off _ =>
    if off = c.offGenHdr then endedWait c .cmdNotFull prev
    else if off = c.offGenPldData then endedWait c .pldWNotFull prev
    else true
  | .rd off _ => if off = c.offGenPldData then endedWait c .pldRNotEmpty prev else true
  | .slp _ => true

/-- Every FIFO access of a trace is gated (R255), the event before the trace being `prev`. -/
def gatedFrom (c : Config) : Option Event → List Event → Bool
  | _, [] => true
  | prev, e :: rest => gateKept c prev e && gatedFrom c (some e) rest

/-! ### Invariants -/

/-- The response buffer has its one form. -/
def BufferCanonical (s : State) : Prop := Memory.wf s.response

/-- Every event is one the block may issue. -/
def TraceLegal (s : State) : Prop := ∀ e ∈ s.trace, eventLegal s.cfg e

/-- Every FIFO access was gated. -/
def TraceGated (s : State) : Prop := gatedFrom s.cfg none s.trace = true

/-- Between steps the block is busy only where the platform hangs, and then it has returned no result (R230,
R261). -/
def BusyOnlyWhileHung (s : State) : Prop := s.busy = true → s.stallAfter = some 0 ∧ s.result = none

/-- An overlap is marked only on a block that is still busy with the operation overlapped, and a fault mark
stands with no result (R228, R230). -/
def FaultMarkSound (s : State) : Prop :=
  (s.fault = some .overlappingCommand → s.busy = true) ∧ (s.fault ≠ none → s.result = none)

end Sys2Proof.Machine
end

