-- ==== Sys2Proof/Certificates/Slice0/Obligations.lean ====
section
/-! DEFINITION. The statements for the provers, from the numbered rules of spec/. Each docstring names the rule.
Tables of rows stand first: the statements quantify over them. -/

namespace Sys2Proof.Claims

open Sys2Proof Sys2Proof.Machine

/-! ### Tables and shapes the statements quantify over -/

/-- A row of R100: selector, 7-bit form, polled bit, target, timeout tag. -/
structure WaitRow where
  sel : BitVec 3
  form : Instr
  bit : Nat
  target : Word
  tag : TimeoutTag

/-- The six rows of R100. -/
def waitRows (c : Config) : List WaitRow :=
  [⟨0, .waitPldWNotFull, c.bitPldWFull, 0, .pldFifoWrite⟩,
   ⟨1, .waitPldWEmpty, c.bitPldWEmpty, 1, .pldFifoWrite⟩,
   ⟨2, .waitPldRFull, c.bitPldRFull, 1, .pldFifoRead⟩,
   ⟨3, .waitPldRNotEmpty, c.bitPldREmpty, 0, .pldFifoRead⟩,
   ⟨4, .waitCmdNotFull, c.bitCmdFull, 0, .cmdFifo⟩,
   ⟨5, .waitCmdEmpty, c.bitCmdEmpty, 1, .cmdFifo⟩]

/-- The twelve header rows of the table with their codes (R74). -/
def headerRows (c : Config) : List ((BitVec 2 → Byte → Byte → Instr) × BitVec 6) :=
  [(.hdrGenSw0, c.dt.genSw0), (.hdrGenSw1, c.dt.genSw1), (.hdrGenSw2, c.dt.genSw2),
   (.hdrGenSr0, c.dt.genSr0), (.hdrGenSr1, c.dt.genSr1), (.hdrGenSr2, c.dt.genSr2),
   (.hdrDcsSw0, c.dt.dcsSw0), (.hdrDcsSw1, c.dt.dcsSw1), (.hdrDcsRead, c.dt.dcsRead),
   (.hdrSetMaxRet, c.dt.setMaxRet), (.hdrGenLw, c.dt.genLw), (.hdrDcsLw, c.dt.dcsLw)]

/-- The read hits of the command-FIFO gate (R125). -/
def cmdFree (c : Config) (v : Word) : Bool := fieldIs c.bitCmdFull 1 0 v

/-- The read hits of the payload-write gate (R130). -/
def pldWFree (c : Config) (v : Word) : Bool := fieldIs c.bitPldWFull 1 0 v

/-- The read hits of the payload-read gate (R191). -/
def pldRReady (c : Config) (v : Word) : Bool := fieldIs c.bitPldREmpty 1 0 v

/-- A `PHY_STATUS` read whose direction field holds the given code (R31, R164). -/
def ShowsDir (c : Config) (v : Word) (code : Nat) : Prop :=
  getf v c.phyDirPos c.phyDirWidth = BitVec.ofNat 32 code

/-- The bytes of a payload operand, in full (R33). -/
def bytesOf (p : PayloadArg) : List Byte := (p.bytes.getD []).map (BitVec.ofNat 8)

/-- Byte k of a payload operand, zero where there is none (R72, R81). -/
def byteOf (p : PayloadArg) (k : Nat) : Byte := (bytesOf p)[k]?.getD 0#8

/-- The payload words of L bytes (R72, R127). -/
def payloadWords (p : PayloadArg) : List Word :=
  (List.range ((p.len + 3) / 4)).map (pword (bytesOf p))

/-- The header of a byte count: `trunc_8(n)`, `trunc_8(n >> 8)` (R80, R130, R134). -/
def countHeader (c : Config) (dt : BitVec 6) (d : Descriptor) (n : Nat) : Word :=
  hdr c dt (BitVec.ofNat 2 d.channelId) (BitVec.ofNat 8 n) (BitVec.ofNat 8 (n / 256))

/-- The header of a short write or read request with up to two inline bytes (R81, R133). -/
def inlineHeader (c : Config) (d : Descriptor) : Word :=
  hdr c (BitVec.ofNat 6 d.dataType) (BitVec.ofNat 2 d.channelId) (byteOf d.payload 0) (byteOf d.payload 1)

/-- The state after an operation that used `n` answers, emitted `evs` and returned `r`, and did nothing else. -/
def returned (s : State) (n : Nat) (evs : List Event) (r : Result) : State :=
  { s.afterReads n with trace := s.trace ++ evs, result := some r }

/-- A payload is given where it has a length (R34). -/
def Given (p : PayloadArg) : Prop := p.len = 0 ∨ p.bytes ≠ none

/-- `L ≤ 2`, payload given, generic short-write family (R120, R121). -/
def GswValid (c : Config) (d : Descriptor) : Prop :=
  d.payload.len ≤ 2 ∧ Given d.payload ∧
  BitVec.ofNat 6 d.dataType ∈ [c.dt.genSw0, c.dt.genSw1, c.dt.genSw2]

/-- `L ≤ 1`, payload given, DCS short-write family (R120, R122). -/
def DswValid (c : Config) (d : Descriptor) : Prop :=
  d.payload.len ≤ 1 ∧ Given d.payload ∧ BitVec.ofNat 6 d.dataType ∈ [c.dt.dcsSw0, c.dt.dcsSw1]

/-- `L ≤ 2`, payload given, response present (R190). -/
def GrdValid (d : Descriptor) : Prop :=
  d.payload.len ≤ 2 ∧ Given d.payload ∧ d.response.buffer ≠ none

/-- The rejected combinations of R184: `X1d`, `X2d`, `X2n`, `X3r`. -/
def SendRejected (len : Nat) (req dcs : Bool) : Prop :=
  (len = 1 ∧ req = true ∧ dcs = true) ∨ (len = 2 ∧ dcs = true) ∨ (3 ≤ len ∧ req = true)

/-- The causes of `InvalidArgument`, by operation (R221). -/
def InvalidCause (c : Config) : Instr → Prop
  | .gsw d => ¬ GswValid c d
  | .dsw d => ¬ DswValid c d
  | .lw d => ¬ Given d.payload
  | .grd d => ¬ GrdValid d
  | .send tx rx dcs => ¬ Given tx ∨ (0 < rx.len ∧ rx.buffer = none) ∨
      SendRejected tx.len (decide (0 < rx.len)) dcs
  | _ => False

/-- Nothing of the block changes but what the operation returns: no event, no state change (R221, R223). The
response bytes are the exception R41 makes. -/
def OnlyReturns (s t : State) (r : Result) : Prop :=
  t.result = some r ∧ t.trace = s.trace ∧ t.cfg = s.cfg ∧ t.initialized = s.initialized ∧
  t.busy = s.busy ∧ t.fault = s.fault ∧ t.refused = s.refused ∧ t.port = s.port ∧ t.reads = s.reads ∧
  t.stallAfter = s.stallAfter ∧ t.txChanged = s.txChanged ∧ t.rxTouched = s.rxTouched

/-- The rows of R184 that write a short packet: L, dcs, data type. -/
def shortWriteRows (c : Config) : List (Nat × Bool × BitVec 6) :=
  [(0, false, c.dt.genSw0), (0, true, c.dt.dcsSw0), (1, false, c.dt.genSw1), (1, true, c.dt.dcsSw0),
   (2, false, c.dt.genSw2)]

/-- The rows of R184 that read: L, dcs, data type. -/
def readRows (c : Config) : List (Nat × Bool × BitVec 6) :=
  [(0, false, c.dt.genSr0), (0, true, c.dt.dcsRead), (1, false, c.dt.genSr1), (2, false, c.dt.genSr2)]

/-- The rows of R184 that write a long packet: dcs, data type. -/
def longRows (c : Config) : List (Bool × BitVec 6) := [(false, c.dt.genLw), (true, c.dt.dcsLw)]

/-- The descriptor of R186. -/
def descriptorFor (c : Config) (dt : BitVec 6) (tx : PayloadArg) (rx : ResponseArg) (flags : BitVec 2) :
    Descriptor :=
  ⟨c.vc, dt.toNat, tx, rx, flags⟩

/-- `i` is a read that passes validation, with the descriptor it runs on: `GRD d`, or a read row of `SEND`
(R187, R191, R193). -/
def ReadRuns (c : Config) (i : Instr) (d : Descriptor) : Prop :=
  (i = .grd d ∧ d.wf = true ∧ GrdValid d) ∨
  ∃ tx rx dcs dt, i = .send tx rx dcs ∧ tx.wf = true ∧ rx.wf = true ∧ Given tx ∧ 0 < rx.len ∧
    rx.buffer ≠ none ∧ (tx.len, dcs, dt) ∈ readRows c ∧ d = descriptorFor c dt tx rx 0b11

/-- `i` is a long write with its payload given, with the descriptor it runs on: `LW d`, or a long-write row of
`SEND`, whose response buffer is absent or present with length 0 (R129, R182, R187). -/
def LongWriteAsked (c : Config) (i : Instr) (d : Descriptor) : Prop :=
  (i = .lw d ∧ d.wf = true ∧ Given d.payload) ∨
  ∃ tx rx dcs dt, i = .send tx rx dcs ∧ tx.wf = true ∧ rx.wf = true ∧ Given tx ∧ rx.len = 0 ∧
    3 ≤ tx.len ∧ (dcs, dt) ∈ longRows c ∧ d = descriptorFor c dt tx rx 0b00

/-- `i` is a long write that passes validation and fits the FIFO (R129). -/
def LongWriteRuns (c : Config) (i : Instr) (d : Descriptor) : Prop :=
  d.payload.len ≤ c.pldFifoDepth ∧ LongWriteAsked c i d

/-- The response operand of a read operation (R41). -/
def lentBy : Instr → Option (List Nat)
  | .send _ rx _ => rx.buffer
  | .grd d => d.response.buffer
  | _ => none

/-- What a present response buffer of length 0 adds to a `SEND` that requests no response (R182): the buffer of the
operation, once it is lent, holds no byte. A faulted operation lends none. -/
def lendingEmpty (rx : ResponseArg) :
    Host.Outcome State Fault Refusal → Host.Outcome State Fault Refusal
  | .next t => .next (if rx.buffer.isSome ∧ t.fault = none then { t with response := [] } else t)
  | .fault f => .fault f
  | .refused r => .refused r

/-- The answers to one read operation whose every poll matches at its first read. -/
structure ReadAnswers where
  maxStatus : Word
  reqStatus : Word
  modeCfg : Word
  pckhdl : Word
  dir1 : Word
  dir2 : Word
  words : List (Word × Word)
  modeCfg' : Word
  pckhdl' : Word

/-- In the order the operation asks for them (R191). -/
def ReadAnswers.inOrder (a : ReadAnswers) (c : Config) (d : Descriptor) : List Word :=
  (if d.flags.getLsbD 1 then [a.maxStatus] else []) ++
  (if c.btaBeforeReadHdr then [a.modeCfg, a.pckhdl, a.reqStatus] else [a.reqStatus, a.modeCfg, a.pckhdl]) ++
  [a.dir1, a.dir2] ++ a.words.flatMap (fun w => [w.1, w.2]) ++ [a.modeCfg', a.pckhdl']

/-- Every poll matches: the gates of R255, and the two phases of R164. -/
def ReadAnswers.AllHit (a : ReadAnswers) (c : Config) : Prop :=
  cmdFree c a.maxStatus = true ∧ cmdFree c a.reqStatus = true ∧
  getf a.dir1 c.phyDirPos c.phyDirWidth ≠ BitVec.ofNat 32 c.dirTx ∧
  getf a.dir2 c.phyDirPos c.phyDirWidth ≠ BitVec.ofNat 32 c.dirRx ∧
  ∀ w ∈ a.words, pldRReady c w.1 = true

/-- A gated header write whose poll matches at once. -/
def headerEvents (c : Config) (v h : Word) : List Event := [.rd c.offCmdPktStatus v, .wr c.offGenHdr h]

/-- The events of `enable_bta` (R160) and `disable_bta` (R161). -/
def enableEvents (c : Config) (a b : Word) : List Event :=
  btaTrace c a (setf a c.bitAckRqstEn 1 1) b (setf b c.bitBtaEn 1 1)

def disableEvents (c : Config) (a b : Word) : List Event :=
  btaTrace c a (setf a c.bitAckRqstEn 1 0) b (setf b c.bitBtaEn 1 0)

/-- The trace of that read operation (R191). -/
def ReadAnswers.events (a : ReadAnswers) (c : Config) (d : Descriptor) : List Event :=
  (if d.flags.getLsbD 1 then headerEvents c a.maxStatus (countHeader c c.dt.setMaxRet d d.response.len)
   else []) ++
  (if c.btaBeforeReadHdr then
    enableEvents c a.modeCfg a.pckhdl ++ headerEvents c a.reqStatus (inlineHeader c d)
   else headerEvents c a.reqStatus (inlineHeader c d) ++ enableEvents c a.modeCfg a.pckhdl) ++
  [.rd c.offPhyStatus a.dir1, .rd c.offPhyStatus a.dir2] ++
  a.words.flatMap (fun w => [.rd c.offCmdPktStatus w.1, .rd c.offGenPldData w.2]) ++
  disableEvents c a.modeCfg' a.pckhdl'

/-- A header write behind its gate (R125, R255), its word as the condition says. -/
def headerParts (c : Config) (header : Word → Prop) : List Part :=
  [.wait c.offCmdPktStatus (cmdFree c) .cmdFifo, .access fun evs => ∃ h, header h ∧ evs = [.wr c.offGenHdr h]]

/-- The request header of a read: the inline bytes are the payload's where the host leaves them alone (R61, R133). -/
def requestParts (c : Config) (d : Descriptor) (txChanged : List Nat) : List Part :=
  headerParts c fun h => ∃ lo hi, h = hdr c (BitVec.ofNat 6 d.dataType) (BitVec.ofNat 2 d.channelId) lo hi ∧
    (txChanged = [] → lo = byteOf d.payload 0 ∧ hi = byteOf d.payload 1)

/-- The four events of `enable_bta` (R160). -/
def enableParts (c : Config) : List Part := [.access fun evs => ∃ a b, evs = enableEvents c a b]

/-- The two phases of `wait_for_ack` (R164): while the direction reads TX, then while it reads RX. -/
def ackParts (c : Config) : List Part :=
  [.wait c.offPhyStatus (fun v => getf v c.phyDirPos c.phyDirWidth != BitVec.ofNat 32 c.dirTx) .btaPhase1,
   .wait c.offPhyStatus (fun v => getf v c.phyDirPos c.phyDirWidth != BitVec.ofNat 32 c.dirRx) .btaPhase2]

/-- One response word: its gate, and the read of `GEN_PLD_DATA` (R191). -/
def responseWordParts (c : Config) : List Part :=
  [.wait c.offCmdPktStatus (pldRReady c) .pldFifoRead, .access fun evs => ∃ w, evs = [.rd c.offGenPldData w]]

/-- What `grd_seq` does on the bus, in order (R191). -/
def readParts (c : Config) (d : Descriptor) (txChanged : List Nat) : List Part :=
  (if d.flags.getLsbD 1 then headerParts c (· = countHeader c c.dt.setMaxRet d d.response.len) else []) ++
  (if c.btaBeforeReadHdr then enableParts c ++ requestParts c d txChanged
   else requestParts c d txChanged ++ enableParts c) ++
  ackParts c ++ (List.replicate ((d.response.len + 3) / 4) (responseWordParts c)).flatten

/-- The little-endian bytes of the words read, up to the response length (R73). -/
def ReadAnswers.bytes (a : ReadAnswers) (r : Nat) : List Byte :=
  (a.words.flatMap fun w => [wordByte w.2 0, wordByte w.2 1, wordByte w.2 2, wordByte w.2 3]).take r

/-- The most events an operation can emit (R261), P being `P_RETRY_MAX`; a `SEND` runs one component. -/
def eventBound (c : Config) : Instr → Nat
  | .init => 0
  | .gsw _ => 2 * c.retryMax
  | .dsw _ => 2 * c.retryMax
  | .lw d => 2 * c.retryMax * ((d.payload.len + 3) / 4 + 1)
  | .grd d => 2 * c.retryMax + 2 * c.retryMax + 4 + (4 * c.retryMax - 2) +
      2 * c.retryMax * ((d.response.len + 3) / 4) + 4
  | .send tx rx _ => if 0 < rx.len then 2 * c.retryMax + 2 * c.retryMax + 4 + (4 * c.retryMax - 2) +
      2 * c.retryMax * ((rx.len + 3) / 4) + 4
      else if tx.len ≤ 2 then 2 * c.retryMax else 2 * c.retryMax * ((tx.len + 3) / 4 + 1)
  | .btaen => 4
  | .btadis => 4
  | .btawait => 4 * c.retryMax - 2
  | .reservedOp _ => 0
  | .pldWord _ _ _ _ => 2 * c.retryMax
  | .hdrGenSw0 _ _ _ | .hdrGenSw1 _ _ _ | .hdrGenSw2 _ _ _ | .hdrGenSr0 _ _ _ | .hdrGenSr1 _ _ _
  | .hdrGenSr2 _ _ _ | .hdrDcsSw0 _ _ _ | .hdrDcsSw1 _ _ _ | .hdrDcsRead _ _ _ | .hdrSetMaxRet _ _ _
  | .hdrGenLw _ _ _ | .hdrDcsLw _ _ _ => 2 * c.retryMax
  | .wait _ | .waitPldWNotFull | .waitPldWEmpty | .waitPldRFull | .waitPldRNotEmpty | .waitCmdNotFull
  | .waitCmdEmpty => 2 * c.retryMax - 1

/-- The operations that lend no response buffer: all but `SEND` and `GRD` (R57, R123). -/
def lendsNothing : Instr → Bool
  | .send _ _ _ => false
  | .grd _ => false
  | _ => true

/-- What no operation changes: the configuration, the host's port and what it does to its buffers; and no event
ever leaves the trace (R40, R58). -/
def OutsideKept (s t : State) : Prop :=
  t.cfg = s.cfg ∧ t.port = s.port ∧ t.txChanged = s.txChanged ∧ t.rxTouched = s.rxTouched ∧
  ∃ evs, t.trace = s.trace ++ evs

/-- Two states that differ at most in what is left of earlier operations: trace, result, response buffer and
refusal mark. -/
def SameButHistory (s₁ s₂ : State) : Prop :=
  s₁ = { s₂ with trace := s₁.trace, result := s₁.result, response := s₁.response, refused := s₁.refused }

end Sys2Proof.Claims

open Sys2Proof Sys2Proof.Machine Sys2Proof.Claims

/-! ### Encoding -/

/-- R70, R72, R76, R100: the decoder reads every row back from its own encoding, at every operand value. -/
def Obligations.DecodeInvertsEncode : Prop := ∀ i : Instr, decode (encode i) = .ok i

/-- A few words of the table, written out bit by bit (R70, R72, R74, R76, R100). Which format a bare word is read in
is the model's choice, log entry 8. -/
def Obligations.TableWordsDecode : Prop :=
  decodeTableWord 8 0b0000 = some .init ∧
  decodeTableWord 8 0b0111 = some .btaen ∧
  decodeTableWord 8 0b1010 = some (.reservedOp 0) ∧
  decodeTableWord 8 0b0110101 = some .waitCmdEmpty ∧
  decodeTableWord 32 0b00000000000000010010110000101001 = some (.hdrGenLw 0 0x2C 0x01) ∧
  decodeTableWord 32 0b11011101110011001011101110101010 = some (.pldWord 0xAA 0xBB 0xCC 0xDD)

/-- R83: under any well-formed layout the four fields of a header read back. -/
def Obligations.HeaderFieldsReadBack : Prop :=
  ∀ (c : Config) (dt : BitVec 6) (vc : BitVec 2) (lo hi : Byte),
    getf (hdr c dt vc lo hi) c.hdrDtPos 6 = dt.setWidth 32 ∧
    getf (hdr c dt vc lo hi) c.hdrVcPos 2 = vc.setWidth 32 ∧
    getf (hdr c dt vc lo hi) c.hdrWclPos 8 = lo.setWidth 32 ∧
    getf (hdr c dt vc lo hi) c.hdrWcmPos 8 = hi.setWidth 32

/-- R71: a header bit outside the four fields is 0; and at the default positions the header is the source's OR
of shifted fields. -/
def Obligations.HeaderOutsideFieldsZero : Prop :=
  ∀ (c : Config) (dt : BitVec 6) (vc : BitVec 2) (lo hi : Byte),
    (∀ n, ¬ (c.hdrDtPos ≤ n ∧ n < c.hdrDtPos + 6) → ¬ (c.hdrVcPos ≤ n ∧ n < c.hdrVcPos + 2) →
      ¬ (c.hdrWclPos ≤ n ∧ n < c.hdrWclPos + 8) → ¬ (c.hdrWcmPos ≤ n ∧ n < c.hdrWcmPos + 8) →
      (hdr c dt vc lo hi).getLsbD n = false) ∧
    (c.hdrDtPos = 0 → c.hdrVcPos = 6 → c.hdrWclPos = 8 → c.hdrWcmPos = 16 →
      hdr c dt vc lo hi = (hi.setWidth 32 <<< 16) ||| (lo.setWidth 32 <<< 8) ||| (vc.setWidth 32 <<< 6) |||
        dt.setWidth 32)

/-- R72: byte 4i+j of the payload is bits 8j+7..8j of payload word i, and the unused high bytes are zero. -/
def Obligations.PayloadWordLittleEndian : Prop :=
  ∀ (p : List Byte) (i j : Nat), j < 4 →
    (pword p i).extractLsb' (8 * j) 8 = if h : 4 * i + j < p.length then p[4 * i + j] else 0#8

/-- R80: the two count fields hold the byte count. -/
def Obligations.ByteCountSplitExact : Prop :=
  ∀ (c : Config) (dt : BitVec 6) (d : Descriptor) (n : Nat), n ≤ 65535 →
    (getf (countHeader c dt d n) c.hdrWclPos 8).toNat = n % 256 ∧
    (getf (countHeader c dt d n) c.hdrWcmPos 8).toNat = n / 256 ∧
    n = (getf (countHeader c dt d n) c.hdrWclPos 8).toNat +
      256 * (getf (countHeader c dt d n) c.hdrWcmPos 8).toNat

/-- R78: the codes of the results and the tags of the timeouts. -/
def Obligations.ResultNumbers : Prop :=
  resultCode .ok = 0 ∧ resultCode .invalidArgument = 1 ∧ (∀ t, resultCode (.timeout t) = 2) ∧
  resultCode .notInitialized = 3 ∧
  resultTag (.timeout .cmdFifo) = 0 ∧ resultTag (.timeout .pldFifoWrite) = 1 ∧
  resultTag (.timeout .pldFifoRead) = 2 ∧ resultTag (.timeout .btaPhase1) = 3 ∧
  resultTag (.timeout .btaPhase2) = 4 ∧
  resultTag .ok = 0 ∧ resultTag .invalidArgument = 0 ∧ resultTag .notInitialized = 0

/-! ### The checks before the first event -/

/-- R229: a refused operation sets the refusal mark, emits nothing and returns nothing. -/
def Obligations.RefusalSetsOnlyItsMark : Prop :=
  ∀ (i : Instr) (s : State), s.fault = none → i.wf = false →
    exec i s = .next { s with refused := true, result := none }

/-- R230: an operation presented while another is in progress faults. -/
def Obligations.OverlapFaults : Prop :=
  ∀ (i : Instr) (s : State), s.fault = none → i.wf = true → s.busy = true →
    exec i s = .next { s with fault := some .overlappingCommand, result := none }

/-- R196: before `INIT` every other operation returns `NotInitialized`, before any operand check. -/
def Obligations.GateBeforeInit : Prop :=
  ∀ (i : Instr) (s : State), s.fault = none → s.busy = false → s.initialized = false → i.wf = true →
    i ≠ .init → ∃ t, exec i s = .next t ∧ OnlyReturns s t .notInitialized

/-- R221: the causes of `InvalidArgument`, each before any event and with no state change. -/
def Obligations.InvalidArgumentCauses : Prop :=
  ∀ (i : Instr) (s : State), Ready s → i.wf = true → InvalidCause s.cfg i →
    ∃ t, exec i s = .next t ∧ OnlyReturns s t .invalidArgument

/-- The converse of R221: a ready block returns `InvalidArgument` for no other cause. -/
def Obligations.InvalidArgumentOnlyForCause : Prop :=
  ∀ (i : Instr) (s t : State), Ready s → i.wf = true → exec i s = .next t →
    t.result = some .invalidArgument → InvalidCause s.cfg i

/-- R129, R188: the null check comes before the depth check, and a payload longer than the FIFO faults, of `LW` and
of the long-write rows of `SEND`. That the fault is a next state with `busy` clear is the model's choice, log
entry 7. -/
def Obligations.LongWriteChecksInOrder : Prop :=
  ∀ s : State, Ready s →
    (∀ d : Descriptor, d.wf = true → ¬ Given d.payload →
      exec (.lw d) s = .next { s with result := some .invalidArgument }) ∧
    (∀ (i : Instr) (d : Descriptor), LongWriteAsked s.cfg i d → s.cfg.pldFifoDepth < d.payload.len →
      exec i s = .next { s with fault := some .payloadExceedsFifoDepth, result := none })

/-- R220, R227, R228: on a live platform every operation that is neither refused nor faulted ends with exactly one
result, and the block is idle again. The only fault an idle block raises is the depth fault; that `busy` is clear
after it is the model's choice, log entry 7. -/
def Obligations.EveryOperationEnds : Prop :=
  ∀ (i : Instr) (s : State), s.fault = none → s.busy = false → Live s → i.wf = true →
    ∃ t, exec i s = .next t ∧ t.busy = false ∧
      ((∃ r, t.result = some r ∧ t.fault = none) ∨
       (t.result = none ∧ t.fault = some .payloadExceedsFifoDepth))

/-- R189: whatever rejects or faults an operation does so before its first event. -/
def Obligations.NoPartialDispatch : Prop :=
  ∀ (i : Instr) (s t : State), exec i s = .next t →
    (t.result = some .invalidArgument ∨ t.result = some .notInitialized ∨ t.fault ≠ none) →
    t.trace = s.trace

/-- The model's choice, log entry 7: a block whose fault mark is set runs nothing (R228 says only that reset
clears the mark). -/
def Obligations.FaultedBlockRunsNothing : Prop :=
  ∀ (i : Instr) (s : State) (f : Fault), s.fault = some f → exec i s = .fault f

/-! ### INIT -/

/-- R194: `INIT` makes the block ready, with no event. -/
def Obligations.InitMakesReady : Prop :=
  ∀ s : State, s.fault = none → s.busy = false →
    exec .init s = .next { s with initialized := true, result := some .ok }

/-- R195: a second `INIT` changes nothing. -/
def Obligations.InitIsIdempotent : Prop :=
  ∀ s : State, s.fault = none → s.busy = false →
    ∃ t, exec .init s = .next t ∧ exec .init t = .next t

/-! ### The poller -/

/-- R101, R104: a named wait whose first matching read is read k+1, within the budget, returns `Ok` with k+1
reads and k sleeps, in the `WAIT sel` form and in the 7-bit form alike. -/
def Obligations.NamedWaitReturnsOk : Prop :=
  ∀ (s : State) (row : WaitRow) (k : Nat) (i : Instr), Ready s → Live s → row ∈ waitRows s.cfg →
    (i = .wait row.sel ∨ i = row.form) → k < s.cfg.retryMax →
    s.FirstHit (fieldIs row.bit 1 row.target) 0 k →
    exec i s = .next (returned s (k + 1) (statusPoll s.cfg (s.peeks 0 (k + 1))) .ok)

/-- R101, R102: a named wait none of whose `P_RETRY_MAX` reads matches times out with the row's tag. -/
def Obligations.NamedWaitTimesOut : Prop :=
  ∀ (s : State) (row : WaitRow) (i : Instr), Ready s → Live s → row ∈ waitRows s.cfg →
    (i = .wait row.sel ∨ i = row.form) → s.AllMiss (fieldIs row.bit 1 row.target) 0 s.cfg.retryMax →
    exec i s = .next (returned s s.cfg.retryMax (statusPoll s.cfg (s.peeks 0 s.cfg.retryMax))
      (.timeout row.tag))

/-- R103: a poll issues only reads of the status register and sleeps, and leaves the rest as it was. -/
def Obligations.PollHasNoSideEffects : Prop :=
  ∀ (s t : State) (row : WaitRow) (i : Instr), Ready s → row ∈ waitRows s.cfg →
    (i = .wait row.sel ∨ i = row.form) → exec i s = .next t →
    t.initialized = s.initialized ∧ t.fault = s.fault ∧ t.refused = s.refused ∧ t.response = s.response ∧
    ∃ evs, t.trace = s.trace ++ evs ∧
      ∀ e ∈ evs, e = .slp s.cfg.pollIntervalUs ∨ ∃ v, e = .rd s.cfg.offCmdPktStatus v

/-! ### The packet encoder -/

/-- R123: a valid generic short write waits for the command FIFO and writes its header. -/
def Obligations.GswWritesItsHeader : Prop :=
  ∀ (d : Descriptor) (s : State) (k : Nat), Ready s → Live s → Stable s → d.wf = true → GswValid s.cfg d →
    k < s.cfg.retryMax → s.FirstHit (cmdFree s.cfg) 0 k →
    exec (.gsw d) s = .next (returned s (k + 1)
      (statusPoll s.cfg (s.peeks 0 (k + 1)) ++ [.wr s.cfg.offGenHdr (inlineHeader s.cfg d)]) .ok)

/-- R124: a valid DCS short write writes its header, `WC_MSB` zero and the data type unchanged. -/
def Obligations.DswWritesItsHeader : Prop :=
  ∀ (d : Descriptor) (s : State) (k : Nat), Ready s → Live s → Stable s → d.wf = true → DswValid s.cfg d →
    k < s.cfg.retryMax → s.FirstHit (cmdFree s.cfg) 0 k →
    exec (.dsw d) s = .next (returned s (k + 1)
      (statusPoll s.cfg (s.peeks 0 (k + 1)) ++ [.wr s.cfg.offGenHdr (hdr s.cfg (BitVec.ofNat 6 d.dataType)
        (BitVec.ofNat 2 d.channelId) (byteOf d.payload 0) 0#8)]) .ok)

/-- R125: a short write whose command FIFO stays full times out, and `GEN_HDR` is not written. -/
def Obligations.ShortWriteTimesOut : Prop :=
  ∀ (d : Descriptor) (s : State) (i : Instr), Ready s → Live s → Stable s → d.wf = true →
    ((i = .gsw d ∧ GswValid s.cfg d) ∨ (i = .dsw d ∧ DswValid s.cfg d)) →
    s.AllMiss (cmdFree s.cfg) 0 s.cfg.retryMax →
    exec i s = .next (returned s s.cfg.retryMax (statusPoll s.cfg (s.peeks 0 s.cfg.retryMax))
      (.timeout .cmdFifo))

/-- R125, R70, R74 (log entry 13): a header word issued alone is the gated header write of that word. -/
def Obligations.HeaderWordIsGatedWrite : Prop :=
  ∀ (s : State) (row : (BitVec 2 → Byte → Byte → Instr) × BitVec 6) (vc : BitVec 2) (lo hi : Byte),
    Ready s → Live s → row ∈ headerRows s.cfg →
    (∀ k, k < s.cfg.retryMax → s.FirstHit (cmdFree s.cfg) 0 k →
      exec (row.1 vc lo hi) s = .next (returned s (k + 1)
        (statusPoll s.cfg (s.peeks 0 (k + 1)) ++ [.wr s.cfg.offGenHdr (hdr s.cfg row.2 vc lo hi)]) .ok)) ∧
    (s.AllMiss (cmdFree s.cfg) 0 s.cfg.retryMax →
      exec (row.1 vc lo hi) s = .next (returned s s.cfg.retryMax
        (statusPoll s.cfg (s.peeks 0 s.cfg.retryMax)) (.timeout .cmdFifo)))

/-- R130, R72 (log entry 13): a payload word issued alone is the gated payload write of that word. -/
def Obligations.PayloadWordIsGatedWrite : Prop :=
  ∀ (s : State) (b0 b1 b2 b3 : Byte), Ready s → Live s →
    (∀ k, k < s.cfg.retryMax → s.FirstHit (pldWFree s.cfg) 0 k →
      exec (.pldWord b0 b1 b2 b3) s = .next (returned s (k + 1)
        (statusPoll s.cfg (s.peeks 0 (k + 1)) ++ [.wr s.cfg.offGenPldData (b3 ++ b2 ++ b1 ++ b0)]) .ok)) ∧
    (s.AllMiss (pldWFree s.cfg) 0 s.cfg.retryMax →
      exec (.pldWord b0 b1 b2 b3) s = .next (returned s s.cfg.retryMax
        (statusPoll s.cfg (s.peeks 0 s.cfg.retryMax)) (.timeout .pldFifoWrite)))

/-- R130, R131: where every gate opens at once, a long write is its payload words in order and then the header
with the byte count. A present buffer of length 0 is no response requested (R182). -/
def Obligations.LongWriteEventByEvent : Prop :=
  ∀ (i : Instr) (d : Descriptor) (s : State), Ready s → Live s → Stable s → LongWriteRuns s.cfg i d →
    (∀ j, j < (d.payload.len + 3) / 4 → pldWFree s.cfg (s.peek j) = true) →
    cmdFree s.cfg (s.peek ((d.payload.len + 3) / 4)) = true →
    exec i s = .next { returned s ((d.payload.len + 3) / 4 + 1)
      ((List.range ((d.payload.len + 3) / 4)).flatMap (fun j =>
        [.rd s.cfg.offCmdPktStatus (s.peek j), .wr s.cfg.offGenPldData (pword (bytesOf d.payload) j)]) ++
       headerEvents s.cfg (s.peek ((d.payload.len + 3) / 4))
        (countHeader s.cfg (BitVec.ofNat 6 d.dataType) d d.payload.len)) .ok
      with response := if lentBy i = none then s.response else [] }

/-- R130, R131, R132, R135: whatever the environment answers, a long write on a live platform ends in one of three
ways: every payload word and then the header; some payload words and no header, the payload FIFO having stayed
full; every payload word and no header, the command FIFO having stayed full. -/
def Obligations.LongWriteCourse : Prop :=
  ∀ (i : Instr) (d : Descriptor) (s : State), Ready s → Live s → Stable s → LongWriteRuns s.cfg i d →
    ∃ t evs, exec i s = .next t ∧ t.trace = s.trace ++ evs ∧
      ((t.result = some .ok ∧
        writes evs = (payloadWords d.payload).map (fun w => (s.cfg.offGenPldData, w)) ++
          [(s.cfg.offGenHdr, countHeader s.cfg (BitVec.ofNat 6 d.dataType) d d.payload.len)]) ∨
       (t.result = some (.timeout .pldFifoWrite) ∧ ∃ n, n < (d.payload.len + 3) / 4 ∧
        writes evs = ((payloadWords d.payload).take n).map (fun w => (s.cfg.offGenPldData, w))) ∨
       (t.result = some (.timeout .cmdFifo) ∧
        writes evs = (payloadWords d.payload).map (fun w => (s.cfg.offGenPldData, w))))

/-- R136: the words and the header of a successful long write decode back to the payload, byte for byte. -/
def Obligations.LongWriteRoundTrip : Prop :=
  ∀ (i : Instr) (d : Descriptor) (s t : State) (evs : List Event) (ws : List Word) (h : Word),
    Ready s → Stable s → LongWriteRuns s.cfg i d → exec i s = .next t → t.result = some .ok →
    t.trace = s.trace ++ evs →
    writes evs = ws.map (fun w => (s.cfg.offGenPldData, w)) ++ [(s.cfg.offGenHdr, h)] →
    d.payload.len = (getf h s.cfg.hdrWclPos 8).toNat + 256 * (getf h s.cfg.hdrWcmPos 8).toNat ∧
    ws.length = (d.payload.len + 3) / 4 ∧
    (∀ k, k < d.payload.len → (ws[k / 4]?.getD 0#32).extractLsb' (8 * (k % 4)) 8 = byteOf d.payload k ∧
      k < (bytesOf d.payload).length) ∧
    (∀ k, d.payload.len ≤ k → k < 4 * ws.length →
      (ws[k / 4]?.getD 0#32).extractLsb' (8 * (k % 4)) 8 = 0#8)

/-- R126: the last event of every successful write operation is the header write. -/
def Obligations.OkWriteEndsWithHeader : Prop :=
  ∀ (i : Instr) (s t : State), Ready s → exec i s = .next t → t.result = some .ok →
    ((∃ d, i = .gsw d ∨ i = .dsw d ∨ i = .lw d) ∨
      ∃ tx rx dcs, i = .send tx rx dcs ∧ rx.len = 0) →
    ∃ evs v h, t.trace = s.trace ++ evs ++ [.rd s.cfg.offCmdPktStatus v, .wr s.cfg.offGenHdr h] ∧
      cmdFree s.cfg v = true

/-! ### Bus turn-around -/

/-- R160: `BTAEN` sets the two bits, each by a read and a write back. -/
def Obligations.BtaenSetsBothBits : Prop :=
  ∀ s : State, Ready s → Live s →
    exec .btaen s = .next (returned s 2 (enableEvents s.cfg (s.peek 0) (s.peek 1)) .ok)

/-- R161: `BTADIS` clears the two bits, each by a read and a write back. -/
def Obligations.BtadisClearsBothBits : Prop :=
  ∀ s : State, Ready s → Live s →
    exec .btadis s = .next (returned s 2 (disableEvents s.cfg (s.peek 0) (s.peek 1)) .ok)

/-- R37: a one-bit field is written without touching any other bit of the word. -/
def Obligations.FieldWriteKeepsOtherBits : Prop :=
  ∀ (v x : Word) (pos n : Nat), pos < 32 →
    (setf v pos 1 x).getLsbD n = if n = pos then x.getLsbD 0 else v.getLsbD n

/-- R162: after `BTAEN` the block's own writes show BTA enabled, after `BTADIS` disabled. -/
def Obligations.BtaStateFollowsOwnWrites : Prop :=
  ∀ s : State, Ready s → Live s →
    (∃ t, exec .btaen s = .next t ∧ BtaEnabled s.cfg t.trace) ∧
    (∃ t, exec .btadis s = .next t ∧ BtaDisabled s.cfg t.trace)

/-- R164, R165: phase 1 ends at the first read that is not TX, phase 2, begun with a fresh read and no sleep, at
the first that is not RX. -/
def Obligations.BtawaitReturnsOk : Prop :=
  ∀ (s : State) (j k : Nat), Ready s → Live s → j < s.cfg.retryMax → k < s.cfg.retryMax →
    (∀ m, m < j → ShowsDir s.cfg (s.peek m) s.cfg.dirTx) →
    ¬ ShowsDir s.cfg (s.peek j) s.cfg.dirTx →
    (∀ m, m < k → ShowsDir s.cfg (s.peek (j + 1 + m)) s.cfg.dirRx) →
    ¬ ShowsDir s.cfg (s.peek (j + 1 + k)) s.cfg.dirRx →
    exec .btawait s = .next (returned s (j + 1 + (k + 1))
      (phyPoll s.cfg (s.peeks 0 (j + 1)) ++ phyPoll s.cfg (s.peeks (j + 1) (k + 1))) .ok)

/-- R164: a direction that reads TX at every phase-1 read times out in phase 1; one that leaves TX and then
reads RX at every phase-2 read times out in phase 2. -/
def Obligations.BtawaitTimesOut : Prop :=
  ∀ s : State, Ready s → Live s →
    ((∀ m, m < s.cfg.retryMax → ShowsDir s.cfg (s.peek m) s.cfg.dirTx) →
      exec .btawait s = .next (returned s s.cfg.retryMax
        (phyPoll s.cfg (s.peeks 0 s.cfg.retryMax)) (.timeout .btaPhase1))) ∧
    (∀ j, j < s.cfg.retryMax → (∀ m, m < j → ShowsDir s.cfg (s.peek m) s.cfg.dirTx) →
      ¬ ShowsDir s.cfg (s.peek j) s.cfg.dirTx →
      (∀ m, m < s.cfg.retryMax → ShowsDir s.cfg (s.peek (j + 1 + m)) s.cfg.dirRx) →
      exec .btawait s = .next (returned s (j + 1 + s.cfg.retryMax)
        (phyPoll s.cfg (s.peeks 0 (j + 1)) ++ phyPoll s.cfg (s.peeks (j + 1) s.cfg.retryMax))
        (.timeout .btaPhase2)))

/-! ### The dispatcher and the read path -/

/-- R184: the fifteen rows: what runs, with which data type and flags, and what is rejected. -/
def Obligations.ClassificationRows : Prop :=
  ∀ (c : Config) (n : Nat), 3 ≤ n →
    rowPath c (classify 0 true false) = some (.read, c.dt.genSr0) ∧
    rowPath c (classify 0 true true) = some (.read, c.dt.dcsRead) ∧
    rowPath c (classify 0 false false) = some (.gsw, c.dt.genSw0) ∧
    rowPath c (classify 0 false true) = some (.dsw, c.dt.dcsSw0) ∧
    rowPath c (classify 1 true false) = some (.read, c.dt.genSr1) ∧
    rowPath c (classify 1 true true) = none ∧
    rowPath c (classify 1 false false) = some (.gsw, c.dt.genSw1) ∧
    rowPath c (classify 1 false true) = some (.dsw, c.dt.dcsSw0) ∧
    rowPath c (classify 2 true false) = some (.read, c.dt.genSr2) ∧
    rowPath c (classify 2 true true) = none ∧
    rowPath c (classify 2 false false) = some (.gsw, c.dt.genSw2) ∧
    rowPath c (classify 2 false true) = none ∧
    (∀ dcs, rowPath c (classify n true dcs) = none) ∧
    rowPath c (classify n false false) = some (.lw, c.dt.genLw) ∧
    rowPath c (classify n false true) = some (.lw, c.dt.dcsLw) ∧
    pathFlags .read = 0b11 ∧ pathFlags .gsw = 0 ∧ pathFlags .dsw = 0 ∧ pathFlags .lw = 0

/-- R187, R186: `SEND` runs the component its row names, on the descriptor built for the row, in every state. A
present buffer of length 0 requests no response (R182). -/
def Obligations.SendRunsItsComponent : Prop :=
  ∀ (tx : PayloadArg) (rx : ResponseArg) (dcs : Bool) (s : State), tx.wf = true → rx.wf = true → Given tx →
    (∀ dt, (tx.len, dcs, dt) ∈ readRows s.cfg → 0 < rx.len → rx.buffer ≠ none →
      exec (.send tx rx dcs) s = exec (.grd (descriptorFor s.cfg dt tx rx 0b11)) s) ∧
    (rx.len = 0 →
      (∀ dt, dcs = false → (tx.len, dcs, dt) ∈ shortWriteRows s.cfg →
        exec (.send tx rx dcs) s = lendingEmpty rx (exec (.gsw (descriptorFor s.cfg dt tx rx 0b00)) s)) ∧
      (∀ dt, dcs = true → (tx.len, dcs, dt) ∈ shortWriteRows s.cfg →
        exec (.send tx rx dcs) s = lendingEmpty rx (exec (.dsw (descriptorFor s.cfg dt tx rx 0b00)) s)) ∧
      (∀ dt, 3 ≤ tx.len → (dcs, dt) ∈ longRows s.cfg →
        exec (.send tx rx dcs) s = lendingEmpty rx (exec (.lw (descriptorFor s.cfg dt tx rx 0b00)) s)))

/-- R184, R188: a short-write row of `SEND` writes the row's header on channel `P_VC`. A present buffer of
length 0 is no response requested (R182). -/
def Obligations.SendShortWriteRows : Prop :=
  ∀ (tx : PayloadArg) (rx : ResponseArg) (dcs : Bool) (dt : BitVec 6) (s : State) (k : Nat), Ready s →
    Live s → Stable s → tx.wf = true → rx.wf = true → Given tx → rx.len = 0 →
    (tx.len, dcs, dt) ∈ shortWriteRows s.cfg → k < s.cfg.retryMax → s.FirstHit (cmdFree s.cfg) 0 k →
    exec (.send tx rx dcs) s = .next { returned s (k + 1)
      (statusPoll s.cfg (s.peeks 0 (k + 1)) ++ [.wr s.cfg.offGenHdr
        (hdr s.cfg dt (BitVec.ofNat 2 s.cfg.vc) (byteOf tx 0) (byteOf tx 1))]) .ok
      with response := if rx.buffer = none then s.response else [] }

/-- R191, R73: a read whose every poll matches at once, for `GRD` and for the read rows of `SEND`, in either
order of header and BTA enable: the trace, the response bytes, `Ok`. -/
def Obligations.ReadEventByEvent : Prop :=
  ∀ (i : Instr) (d : Descriptor) (s : State) (a : ReadAnswers) (rest : List Word), Ready s → Live s →
    Stable s → ReadRuns s.cfg i d → a.words.length = (d.response.len + 3) / 4 → a.AllHit s.cfg →
    s.reads = a.inOrder s.cfg d ++ rest →
    exec i s = .next { s with
      reads := rest, trace := s.trace ++ a.events s.cfg d, result := some .ok,
      response := Memory.ofBytes 0 (a.bytes d.response.len) }

/-- R191, R193, R222, R224: whatever the environment answers, a read that passes validation on a live platform runs
its parts in order, to `Ok` or to the timeout of the poll that missed and no part beyond it (`CMD_FIFO` at either
header, `BTA_PHASE1`, `BTA_PHASE2`, `PLD_FIFO_READ`); then come the four events of `disable_bta` and no other, and
BTA is disabled; and that result is returned. A read that does not pass emits nothing. -/
def Obligations.ReadAlwaysDisablesBta : Prop :=
  ∀ (i : Instr) (d : Descriptor) (s : State), Ready s →
    (Live s → ReadRuns s.cfg i d →
      ∃ t evs r a b, exec i s = .next t ∧ t.trace = s.trace ++ evs ++ disableEvents s.cfg a b ∧
        Course s.cfg (readParts s.cfg d s.txChanged) evs r ∧ t.result = some r ∧
        BtaDisabled s.cfg t.trace) ∧
    (i = .grd d → d.wf = true → ¬ GrdValid d → ∃ t, exec i s = .next t ∧ t.trace = s.trace)

/-- R73, R191, R198, R41: after `Ok` the response bytes are the bytes of the words read, in order, and there is no
other byte in the buffer. -/
def Obligations.ReadUnpacksResponse : Prop :=
  ∀ (i : Instr) (d : Descriptor) (s t : State) (evs : List Event), Ready s → Stable s →
    ReadRuns s.cfg i d → exec i s = .next t → t.result = some .ok → t.trace = s.trace ++ evs →
    (readsAt s.cfg.offGenPldData evs).length = (d.response.len + 3) / 4 ∧
    (∀ k, k < d.response.len → t.response.read k =
      some (((readsAt s.cfg.offGenPldData evs)[k / 4]?.getD 0#32).extractLsb' (8 * (k % 4)) 8)) ∧
    (∀ k, d.response.len ≤ k → t.response.read k = none)

/-- R192: the `ACK` flag has no effect on any operation that takes a descriptor. -/
def Obligations.AckFlagChangesNothing : Prop :=
  ∀ (d : Descriptor) (s : State),
    exec (.grd { d with flags := d.flags ^^^ 1#2 }) s = exec (.grd d) s ∧
    exec (.gsw { d with flags := d.flags ^^^ 1#2 }) s = exec (.gsw d) s ∧
    exec (.dsw { d with flags := d.flags ^^^ 1#2 }) s = exec (.dsw d) s ∧
    exec (.lw { d with flags := d.flags ^^^ 1#2 }) s = exec (.lw d) s

/-! ### Frames and bounds -/

/-- Every operation but `SEND` and `GRD` leaves the response buffer as it was; none changes the configuration or
the host's side, drops an event, clears a mark or takes readiness back; the fault mark is set by an overlap and by
an overlong `LW`, the refusal mark by a refusal, readiness by `INIT`, and by nothing else (R40, R41, R197, R228,
R229). -/
def Obligations.FrameOfWritingOperations : Prop :=
  ∀ (i : Instr) (s t : State), lendsNothing i = true → exec i s = .next t →
    OutsideKept s t ∧ t.response = s.response ∧
    t.initialized = (s.initialized || (decide (i = .init) && !s.busy)) ∧
    t.refused = (s.refused || !i.wf) ∧
    (i.wf = true → s.busy = true → t.fault = some .overlappingCommand) ∧
    (i.wf = false ∨ s.busy = false → t.fault = none ∨
      (t.fault = some .payloadExceedsFifoDepth ∧ ∃ d, i = .lw d ∧ s.cfg.pldFifoDepth < d.payload.len))

/-- `SEND` and `GRD` write no response byte outside 0..R-1 (R41): where no buffer is lent the response is as it
was, where one is lent no index from its length on is in it. The rest is as for the other operations, the depth
fault being that of a `SEND` with more than two bytes and no response requested (R184, R188). -/
def Obligations.FrameOfReadingOperations : Prop :=
  ∀ (i : Instr) (s t : State), lendsNothing i = false → exec i s = .next t →
    OutsideKept s t ∧ t.initialized = s.initialized ∧ t.refused = (s.refused || !i.wf) ∧
    (i.wf = true → s.busy = true → t.fault = some .overlappingCommand) ∧
    (i.wf = false ∨ s.busy = false → t.fault = none ∨
      (t.fault = some .payloadExceedsFifoDepth ∧ ∃ tx rx dcs, i = .send tx rx dcs ∧ 2 < tx.len ∧
        rx.len = 0 ∧ s.cfg.pldFifoDepth < tx.len)) ∧
    (lentBy i = none → t.response = s.response) ∧
    (∀ b, lentBy i = some b → t.response = s.response ∨ ∀ k, b.length ≤ k → t.response.read k = none)

/-- R261: every operation emits a bounded number of events. -/
def Obligations.EventsAreBounded : Prop :=
  ∀ (i : Instr) (s t : State), exec i s = .next t →
    t.trace.length ≤ s.trace.length + eventBound s.cfg i

/-- R40, R35: nothing left of earlier operations (trace, result, response buffer) has any influence, nor has the
refusal mark: the same operation in two states that differ only there emits the same events, returns the same and
consumes the same answers. That a refused block goes on taking operations is the model's choice, log entry 7. -/
def Obligations.HistoryHasNoInfluence : Prop :=
  ∀ (i : Instr) (s₁ s₂ t₁ : State), SameButHistory s₁ s₂ → exec i s₁ = .next t₁ →
    ∃ t₂ evs, exec i s₂ = .next t₂ ∧ t₁.trace = s₁.trace ++ evs ∧ t₂.trace = s₂.trace ++ evs ∧
      t₁.result = t₂.result ∧ SameButHistory t₁ t₂ ∧
      (lentBy i ≠ none → Ready s₁ → i.wf = true → t₁.fault = none → t₁.response = t₂.response)

/-! ### Steps -/

/-- R23: a presentation that decodes is run as `exec` of the instruction, its port item taken; a word that does
not decode is rejected by name; with nothing presented the block waits. -/
def Obligations.StepRunsThePresentedOperation : Prop :=
  ∀ (s : State) (p : Presented) (tx rx : List Nat) (rest : List HostInput),
    (∀ i, s.port = .present p tx rx :: rest → decode p = .ok i →
      step s = exec i { s with port := rest, txChanged := tx, rxTouched := rx }) ∧
    (∀ e, s.port = .present p tx rx :: rest → decode p = .error e → step s = .refused (.undecodable e)) ∧
    (s.port = [] → step s = .next s)

/-- R250, R251: reset makes the block not initialized, not busy, without marks and with no operation in progress,
and emits no event. -/
def Obligations.ResetClearsTheBlock : Prop :=
  ∀ (s : State) (rest : List HostInput), s.port = .reset :: rest →
    step s = .next { s with
      port := rest, initialized := false, busy := false, fault := none, refused := false, result := none }

/-- R197: no step but a reset takes readiness back. -/
def Obligations.OnlyResetDeinitializes : Prop :=
  ∀ s t : State, step s = .next t → s.initialized = true → s.port.head? ≠ some .reset →
    t.initialized = true

/-- R228, R229: no step but a reset clears the fault mark or the refusal mark. -/
def Obligations.OnlyResetClearsMarks : Prop :=
  ∀ s t : State, step s = .next t → s.port.head? ≠ some .reset →
    (∀ f, s.fault = some f → t.fault = some f) ∧ (s.refused = true → t.refused = true)

/-- R7: no step changes the configuration. -/
def Obligations.ConfigurationIsFixed : Prop := ∀ s t : State, step s = .next t → t.cfg = s.cfg

/-! ### Invariants -/

/-- R41, R57: the response buffer keeps its one form. -/
def Obligations.StepKeepsBufferCanonical : Prop :=
  ∀ s t : State, BufferCanonical s → step s = .next t → BufferCanonical t

/-- R26, R50, R51, R63: every event is a read or a write of a register the block may read or write, or a sleep of
the poll interval. -/
def Obligations.StepKeepsTraceLegal : Prop :=
  ∀ s t : State, TraceLegal s → step s = .next t → TraceLegal t

/-- R255: "No FIFO access is issued without its poll having matched immediately before it." -/
def Obligations.StepKeepsTraceGated : Prop :=
  ∀ s t : State, TraceGated s → step s = .next t → TraceGated t

/-- R230, R261: between steps the block is busy only where the platform hangs, and then it has returned
nothing. -/
def Obligations.StepKeepsBusyOnlyWhileHung : Prop :=
  ∀ s t : State, BusyOnlyWhileHung s → step s = .next t → BusyOnlyWhileHung t

/-- R228, R230: the fault mark stays what it stands for. -/
def Obligations.StepKeepsFaultMarkSound : Prop :=
  ∀ s t : State, FaultMarkSound s → step s = .next t → FaultMarkSound t

/-- R54: in a legal trace every register offset is a multiple of 4. -/
def Obligations.LegalOffsetsAreAligned : Prop :=
  ∀ (s : State) (off : Nat) (v : Word), TraceLegal s →
    (.rd off v ∈ s.trace ∨ .wr off v ∈ s.trace) → off % 4 = 0

/-- R39, R250: the values the spec gives for reset, and that the state after reset meets every invariant. -/
def Obligations.ResetMeetsTheInvariants : Prop :=
  State.reset.initialized = false ∧ State.reset.busy = false ∧ State.reset.fault = none ∧
  State.reset.refused = false ∧ BufferCanonical State.reset ∧ TraceLegal State.reset ∧
  TraceGated State.reset ∧ BusyOnlyWhileHung State.reset ∧ FaultMarkSound State.reset
end

