-- ==== Sys2Proof/Laws/State.lean ====
section
/-! SUPPORT. What each update of the state does to each field: one lemma per field per update, true by rfl. -/

namespace Sys2Proof.Machine

open Sys2Proof

/-! ### log -/

@[simp] theorem log_cfg (s : State) (e : Event) : (s.log e).cfg = s.cfg := rfl
@[simp] theorem log_initialized (s : State) (e : Event) : (s.log e).initialized = s.initialized := rfl
@[simp] theorem log_busy (s : State) (e : Event) : (s.log e).busy = s.busy := rfl
@[simp] theorem log_fault (s : State) (e : Event) : (s.log e).fault = s.fault := rfl
@[simp] theorem log_refused (s : State) (e : Event) : (s.log e).refused = s.refused := rfl
@[simp] theorem log_result (s : State) (e : Event) : (s.log e).result = s.result := rfl
@[simp] theorem log_trace (s : State) (e : Event) : (s.log e).trace = s.trace ++ [e] := rfl
@[simp] theorem log_response (s : State) (e : Event) : (s.log e).response = s.response := rfl
@[simp] theorem log_port (s : State) (e : Event) : (s.log e).port = s.port := rfl
@[simp] theorem log_reads (s : State) (e : Event) : (s.log e).reads = s.reads := rfl
@[simp] theorem log_stallAfter (s : State) (e : Event) : (s.log e).stallAfter = s.stallAfter := rfl
@[simp] theorem log_txChanged (s : State) (e : Event) : (s.log e).txChanged = s.txChanged := rfl
@[simp] theorem log_rxTouched (s : State) (e : Event) : (s.log e).rxTouched = s.rxTouched := rfl
@[simp] theorem log_draws (s : State) (e : Event) : (s.log e).draws = s.draws := rfl

/-! ### afterReads -/

@[simp] theorem afterReads_cfg (s : State) (n : Nat) : (s.afterReads n).cfg = s.cfg := rfl
@[simp] theorem afterReads_initialized (s : State) (n : Nat) : (s.afterReads n).initialized = s.initialized := rfl
@[simp] theorem afterReads_busy (s : State) (n : Nat) : (s.afterReads n).busy = s.busy := rfl
@[simp] theorem afterReads_fault (s : State) (n : Nat) : (s.afterReads n).fault = s.fault := rfl
@[simp] theorem afterReads_refused (s : State) (n : Nat) : (s.afterReads n).refused = s.refused := rfl
@[simp] theorem afterReads_result (s : State) (n : Nat) : (s.afterReads n).result = s.result := rfl
@[simp] theorem afterReads_trace (s : State) (n : Nat) : (s.afterReads n).trace = s.trace := rfl
@[simp] theorem afterReads_response (s : State) (n : Nat) : (s.afterReads n).response = s.response := rfl
@[simp] theorem afterReads_port (s : State) (n : Nat) : (s.afterReads n).port = s.port := rfl
@[simp] theorem afterReads_reads (s : State) (n : Nat) : (s.afterReads n).reads = s.reads.drop n := rfl
@[simp] theorem afterReads_stallAfter (s : State) (n : Nat) : (s.afterReads n).stallAfter = s.stallAfter := rfl
@[simp] theorem afterReads_txChanged (s : State) (n : Nat) : (s.afterReads n).txChanged = s.txChanged := rfl
@[simp] theorem afterReads_rxTouched (s : State) (n : Nat) : (s.afterReads n).rxTouched = s.rxTouched := rfl
@[simp] theorem afterReads_draws (s : State) (n : Nat) : (s.afterReads n).draws = s.draws + (n - s.reads.length) := rfl

/-! ### taken -/

@[simp] theorem taken_cfg (s : State) (p : List HostInput) (a b : List Nat) : (s.taken p a b).cfg = s.cfg := rfl
@[simp] theorem taken_initialized (s : State) (p : List HostInput) (a b : List Nat) : (s.taken p a b).initialized = s.initialized := rfl
@[simp] theorem taken_busy (s : State) (p : List HostInput) (a b : List Nat) : (s.taken p a b).busy = s.busy := rfl
@[simp] theorem taken_fault (s : State) (p : List HostInput) (a b : List Nat) : (s.taken p a b).fault = s.fault := rfl
@[simp] theorem taken_refused (s : State) (p : List HostInput) (a b : List Nat) : (s.taken p a b).refused = s.refused := rfl
@[simp] theorem taken_result (s : State) (p : List HostInput) (a b : List Nat) : (s.taken p a b).result = s.result := rfl
@[simp] theorem taken_trace (s : State) (p : List HostInput) (a b : List Nat) : (s.taken p a b).trace = s.trace := rfl
@[simp] theorem taken_response (s : State) (p : List HostInput) (a b : List Nat) : (s.taken p a b).response = s.response := rfl
@[simp] theorem taken_port (s : State) (p : List HostInput) (a b : List Nat) : (s.taken p a b).port = p := rfl
@[simp] theorem taken_reads (s : State) (p : List HostInput) (a b : List Nat) : (s.taken p a b).reads = s.reads := rfl
@[simp] theorem taken_stallAfter (s : State) (p : List HostInput) (a b : List Nat) : (s.taken p a b).stallAfter = s.stallAfter := rfl
@[simp] theorem taken_txChanged (s : State) (p : List HostInput) (a b : List Nat) : (s.taken p a b).txChanged = a := rfl
@[simp] theorem taken_rxTouched (s : State) (p : List HostInput) (a b : List Nat) : (s.taken p a b).rxTouched = b := rfl
@[simp] theorem taken_draws (s : State) (p : List HostInput) (a b : List Nat) : (s.taken p a b).draws = s.draws := rfl

/-! ### refuse -/

@[simp] theorem refuse_cfg (s : State) : (refuse s).cfg = s.cfg := rfl
@[simp] theorem refuse_initialized (s : State) : (refuse s).initialized = s.initialized := rfl
@[simp] theorem refuse_busy (s : State) : (refuse s).busy = s.busy := rfl
@[simp] theorem refuse_fault (s : State) : (refuse s).fault = s.fault := rfl
@[simp] theorem refuse_refused (s : State) : (refuse s).refused = true := rfl
@[simp] theorem refuse_result (s : State) : (refuse s).result = none := rfl
@[simp] theorem refuse_trace (s : State) : (refuse s).trace = s.trace := rfl
@[simp] theorem refuse_response (s : State) : (refuse s).response = s.response := rfl
@[simp] theorem refuse_port (s : State) : (refuse s).port = s.port := rfl
@[simp] theorem refuse_reads (s : State) : (refuse s).reads = s.reads := rfl
@[simp] theorem refuse_stallAfter (s : State) : (refuse s).stallAfter = s.stallAfter := rfl
@[simp] theorem refuse_txChanged (s : State) : (refuse s).txChanged = s.txChanged := rfl
@[simp] theorem refuse_rxTouched (s : State) : (refuse s).rxTouched = s.rxTouched := rfl
@[simp] theorem refuse_draws (s : State) : (refuse s).draws = s.draws := rfl

/-! ### raiseFault -/

@[simp] theorem raiseFault_cfg (f : Fault) (s : State) : (raiseFault f s).cfg = s.cfg := rfl
@[simp] theorem raiseFault_initialized (f : Fault) (s : State) : (raiseFault f s).initialized = s.initialized := rfl
@[simp] theorem raiseFault_busy (f : Fault) (s : State) : (raiseFault f s).busy = s.busy := rfl
@[simp] theorem raiseFault_fault (f : Fault) (s : State) : (raiseFault f s).fault = some f := rfl
@[simp] theorem raiseFault_refused (f : Fault) (s : State) : (raiseFault f s).refused = s.refused := rfl
@[simp] theorem raiseFault_result (f : Fault) (s : State) : (raiseFault f s).result = none := rfl
@[simp] theorem raiseFault_trace (f : Fault) (s : State) : (raiseFault f s).trace = s.trace := rfl
@[simp] theorem raiseFault_response (f : Fault) (s : State) : (raiseFault f s).response = s.response := rfl
@[simp] theorem raiseFault_port (f : Fault) (s : State) : (raiseFault f s).port = s.port := rfl
@[simp] theorem raiseFault_reads (f : Fault) (s : State) : (raiseFault f s).reads = s.reads := rfl
@[simp] theorem raiseFault_stallAfter (f : Fault) (s : State) : (raiseFault f s).stallAfter = s.stallAfter := rfl
@[simp] theorem raiseFault_txChanged (f : Fault) (s : State) : (raiseFault f s).txChanged = s.txChanged := rfl
@[simp] theorem raiseFault_rxTouched (f : Fault) (s : State) : (raiseFault f s).rxTouched = s.rxTouched := rfl
@[simp] theorem raiseFault_draws (f : Fault) (s : State) : (raiseFault f s).draws = s.draws := rfl

/-! ### resetBlock -/

@[simp] theorem resetBlock_cfg (s : State) : (resetBlock s).cfg = s.cfg := rfl
@[simp] theorem resetBlock_initialized (s : State) : (resetBlock s).initialized = false := rfl
@[simp] theorem resetBlock_busy (s : State) : (resetBlock s).busy = false := rfl
@[simp] theorem resetBlock_fault (s : State) : (resetBlock s).fault = none := rfl
@[simp] theorem resetBlock_refused (s : State) : (resetBlock s).refused = false := rfl
@[simp] theorem resetBlock_result (s : State) : (resetBlock s).result = none := rfl
@[simp] theorem resetBlock_trace (s : State) : (resetBlock s).trace = s.trace := rfl
@[simp] theorem resetBlock_response (s : State) : (resetBlock s).response = s.response := rfl
@[simp] theorem resetBlock_port (s : State) : (resetBlock s).port = s.port := rfl
@[simp] theorem resetBlock_reads (s : State) : (resetBlock s).reads = s.reads := rfl
@[simp] theorem resetBlock_stallAfter (s : State) : (resetBlock s).stallAfter = s.stallAfter := rfl
@[simp] theorem resetBlock_txChanged (s : State) : (resetBlock s).txChanged = s.txChanged := rfl
@[simp] theorem resetBlock_rxTouched (s : State) : (resetBlock s).rxTouched = s.rxTouched := rfl
@[simp] theorem resetBlock_draws (s : State) : (resetBlock s).draws = s.draws := rfl

/-! ### scrambleResponse -/

@[simp] theorem scrambleResponse_cfg (n : Nat) (s : State) : (scrambleResponse n s).cfg = s.cfg := rfl
@[simp] theorem scrambleResponse_initialized (n : Nat) (s : State) : (scrambleResponse n s).initialized = s.initialized := rfl
@[simp] theorem scrambleResponse_busy (n : Nat) (s : State) : (scrambleResponse n s).busy = s.busy := rfl
@[simp] theorem scrambleResponse_fault (n : Nat) (s : State) : (scrambleResponse n s).fault = s.fault := rfl
@[simp] theorem scrambleResponse_refused (n : Nat) (s : State) : (scrambleResponse n s).refused = s.refused := rfl
@[simp] theorem scrambleResponse_result (n : Nat) (s : State) : (scrambleResponse n s).result = s.result := rfl
@[simp] theorem scrambleResponse_trace (n : Nat) (s : State) : (scrambleResponse n s).trace = s.trace := rfl
@[simp] theorem scrambleResponse_response (n : Nat) (s : State) : (scrambleResponse n s).response = Memory.ofBytes 0 (freeBytes s.draws n) := rfl
@[simp] theorem scrambleResponse_port (n : Nat) (s : State) : (scrambleResponse n s).port = s.port := rfl
@[simp] theorem scrambleResponse_reads (n : Nat) (s : State) : (scrambleResponse n s).reads = s.reads := rfl
@[simp] theorem scrambleResponse_stallAfter (n : Nat) (s : State) : (scrambleResponse n s).stallAfter = s.stallAfter := rfl
@[simp] theorem scrambleResponse_txChanged (n : Nat) (s : State) : (scrambleResponse n s).txChanged = s.txChanged := rfl
@[simp] theorem scrambleResponse_rxTouched (n : Nat) (s : State) : (scrambleResponse n s).rxTouched = s.rxTouched := rfl
@[simp] theorem scrambleResponse_draws (n : Nat) (s : State) : (scrambleResponse n s).draws = s.draws + n := rfl

end Sys2Proof.Machine
end

