-- ==== Sys2Proof/Laws/Ports.lean ====
section
/-! SUPPORT. The environment's answers and the trace, as data: how `peek`, `afterReads` and appended events go
together; then, on a live platform, what each port operation and the poll come to, in closed form. -/

namespace Sys2Proof.Machine

open Sys2Proof

/-- Several events join the trace. -/
def State.emits (s : State) (evs : List Event) : State := { s with trace := s.trace ++ evs }

/-! ### Algebra of answers and events -/

theorem log_eq_emits (s : State) (e : Event) : s.log e = s.emits [e] := rfl

@[simp] theorem emits_nil (s : State) : s.emits [] = s := by simp [State.emits]

@[simp] theorem emits_emits (s : State) (a b : List Event) : (s.emits a).emits b = s.emits (a ++ b) := by
  simp [State.emits]

@[simp] theorem afterReads_zero (s : State) : s.afterReads 0 = s := by simp [State.afterReads]

@[simp] theorem afterReads_afterReads (s : State) (m n : Nat) :
    (s.afterReads m).afterReads n = s.afterReads (m + n) := by
  simp only [State.afterReads, List.drop_drop, List.length_drop, State.mk.injEq, true_and]
  omega

@[simp] theorem emits_afterReads (s : State) (evs : List Event) (n : Nat) :
    (s.emits evs).afterReads n = (s.afterReads n).emits evs := rfl

@[simp] theorem emits_peek (s : State) (evs : List Event) (k : Nat) : (s.emits evs).peek k = s.peek k := rfl

@[simp] theorem emits_cfg (s : State) (evs : List Event) : (s.emits evs).cfg = s.cfg := rfl
@[simp] theorem emits_stallAfter (s : State) (evs : List Event) :
    (s.emits evs).stallAfter = s.stallAfter := rfl
@[simp] theorem emits_trace (s : State) (evs : List Event) : (s.emits evs).trace = s.trace ++ evs := rfl
@[simp] theorem emits_txChanged (s : State) (evs : List Event) : (s.emits evs).txChanged = s.txChanged := rfl
@[simp] theorem emits_rxTouched (s : State) (evs : List Event) : (s.emits evs).rxTouched = s.rxTouched := rfl
@[simp] theorem emits_response (s : State) (evs : List Event) : (s.emits evs).response = s.response := rfl

@[simp] theorem afterReads_peek (s : State) (m k : Nat) : (s.afterReads m).peek k = s.peek (m + k) := by
  simp only [State.peek, State.afterReads, List.getElem?_drop, List.length_drop]
  by_cases h : m + k < s.reads.length
  · simp [List.getElem?_eq_getElem h]
  · simp only [List.getElem?_eq_none (Nat.le_of_not_lt h)]
    congr 1; omega

theorem peeks_succ (s : State) (a n : Nat) : s.peeks a (n + 1) = s.peek a :: s.peeks (a + 1) n := by
  simp [State.peeks, List.range_succ_eq_map, Function.comp_def, Nat.add_assoc, Nat.add_comm 1]

@[simp] theorem peeks_zero (s : State) (a : Nat) : s.peeks a 0 = [] := rfl

@[simp] theorem peeks_length (s : State) (a n : Nat) : (s.peeks a n).length = n := by simp [State.peeks]

@[simp] theorem emits_peeks (s : State) (evs : List Event) (a n : Nat) :
    (s.emits evs).peeks a n = s.peeks a n := rfl

@[simp] theorem afterReads_peeks (s : State) (m a n : Nat) :
    (s.afterReads m).peeks a n = s.peeks (m + a) n := by
  simp [State.peeks, Nat.add_assoc]

theorem nextRead_eq (s : State) : nextRead s = (s.peek 0, s.afterReads 1) := by
  unfold nextRead State.peek State.afterReads
  cases h : s.reads <;> simp

/-! ### The ports on a live platform -/

theorem completes_live {s : State} (h : Live s) : completes s = some s := by
  unfold Live at h
  simp [completes, h]

theorem regRead_live {s : State} (h : Live s) (off : Nat) :
    regRead off s = .done (s.peek 0) ((s.afterReads 1).emits [.rd off (s.peek 0)]) := by
  simp [regRead, completes_live h, nextRead_eq, log_eq_emits]

theorem regWrite_live {s : State} (h : Live s) (off : Nat) (v : Word) :
    regWrite off v s = .done () (s.emits [.wr off v]) := by
  simp [regWrite, completes_live h, log_eq_emits]

theorem sleep_live {s : State} (h : Live s) (us : Nat) : sleep us s = .done () (s.emits [.slp us]) := by
  simp [sleep, completes_live h, log_eq_emits]

theorem live_emits {s : State} {evs : List Event} : Live (s.emits evs) ↔ Live s := Iff.rfl
theorem live_afterReads {s : State} {n : Nat} : Live (s.afterReads n) ↔ Live s := Iff.rfl

theorem pollTrace_cons (off us : Nat) (v : Word) {vs : List Word} (h : vs ≠ []) :
    pollTrace off us (v :: vs) = .rd off v :: .slp us :: pollTrace off us vs := by
  cases vs with
  | nil => exact absurd rfl h
  | cons w rest => rfl

/-- A poll whose first match is read k+1 (R101, R102). -/
theorem poll_hit (off us : Nat) (hit : Word → Bool) (tag : TimeoutTag) :
    ∀ (k n : Nat) (s : State), Live s → k < n → s.FirstHit hit 0 k →
      poll off us hit tag n s =
        .done .ok ((s.afterReads (k + 1)).emits (pollTrace off us (s.peeks 0 (k + 1)))) := by
  intro k
  induction k with
  | zero =>
    intro n s hl hn hf
    obtain ⟨m, rfl⟩ : ∃ m, n = m + 1 := ⟨n - 1, by omega⟩
    have h0 : hit (s.peek 0) = true := by simpa using hf.2
    simp [poll, regRead_live hl, Flow.bind, h0, peeks_succ, pollTrace]
  | succ k ih =>
    intro n s hl hn hf
    obtain ⟨m, rfl⟩ : ∃ m, n = m + 1 := ⟨n - 1, by omega⟩
    have h0 : hit (s.peek 0) = false := by simpa using hf.1 0 (by omega)
    have hm : m ≠ 0 := by omega
    have hl' : Live ((s.afterReads 1).emits [.rd off (s.peek 0)]) := hl
    simp only [poll, regRead_live hl, Flow.bind, h0, Bool.false_eq_true, if_false, hm, sleep_live hl']
    rw [emits_emits, ih m ((s.afterReads 1).emits ([Event.rd off (s.peek 0)] ++ [Event.slp us])) hl (by omega)]
    · simp [peeks_succ, pollTrace, Nat.add_comm, Nat.add_left_comm]
    · constructor
      · intro j hj
        have := hf.1 (j + 1) (by omega)
        simpa [Nat.add_comm, Nat.add_left_comm] using this
      · simpa [Nat.add_comm, Nat.add_left_comm] using hf.2

/-- A poll none of whose reads matches (R101, R102). -/
theorem poll_miss (off us : Nat) (hit : Word → Bool) (tag : TimeoutTag) :
    ∀ (n : Nat) (s : State), Live s → s.AllMiss hit 0 n →
      poll off us hit tag n s =
        .done (.timeout tag) ((s.afterReads n).emits (pollTrace off us (s.peeks 0 n))) := by
  intro n
  induction n with
  | zero => intro s _ _; simp [poll, pollTrace]
  | succ n ih =>
    intro s hl hf
    have h0 : hit (s.peek 0) = false := by simpa using hf 0 (by omega)
    have hl' : Live ((s.afterReads 1).emits [.rd off (s.peek 0)]) := hl
    by_cases hn : n = 0
    · subst hn
      simp [poll, regRead_live hl, Flow.bind, h0, peeks_succ, pollTrace]
    · simp only [poll, regRead_live hl, Flow.bind, h0, Bool.false_eq_true, if_false, hn, sleep_live hl']
      rw [emits_emits, ih ((s.afterReads 1).emits ([Event.rd off (s.peek 0)] ++ [Event.slp us])) hl]
      · obtain ⟨m, rfl⟩ : ∃ m, n = m + 1 := ⟨n - 1, by omega⟩
        simp [peeks_succ, pollTrace, Nat.add_comm, Nat.add_left_comm]
      · intro j hj
        have := hf (j + 1) (by omega)
        simpa [Nat.add_comm, Nat.add_left_comm] using this

end Sys2Proof.Machine
end

