-- ==== Sys2Proof/Laws/Operation.lean ====
section
/-! SUPPORT. The shared course of an operation (60_exceptions R225), one lemma per way it can go, and one that
says all of them. -/

namespace Sys2Proof.Machine

open Sys2Proof

section

variable {accepted : Bool} {lent : Option (List Nat)} {verdict : Verdict} {body : State → Flow Result}
  {s t : State}

theorem operation_faulted {f : Fault} (h : s.fault = some f) :
    operation accepted lent verdict body s = .fault f := by
  simp [operation, h]

theorem operation_refused (hf : s.fault = none) (ha : accepted = false) :
    operation accepted lent verdict body s = .next (refuse s) := by
  simp [operation, hf, ha]

theorem operation_overlap (hf : s.fault = none) (ha : accepted = true) (hb : s.busy = true) :
    operation accepted lent verdict body s = .next (raiseFault .overlappingCommand s) := by
  simp [operation, hf, ha, hb]

theorem operation_gate (hf : s.fault = none) (ha : accepted = true) (hb : s.busy = false)
    (hi : s.initialized = false) :
    operation accepted lent verdict body s = .next (reply lent .notInitialized s) := by
  simp [operation, hf, ha, hb, hi]

theorem operation_invalid (hr : Ready s) (ha : accepted = true) (hv : verdict = .invalid) :
    operation accepted lent verdict body s = .next (reply lent .invalidArgument s) := by
  obtain ⟨hf, hb, hi⟩ := hr
  simp [operation, hf, ha, hb, hi, hv]

theorem operation_fault {f : Fault} (hr : Ready s) (ha : accepted = true) (hv : verdict = .fault f) :
    operation accepted lent verdict body s = .next (raiseFault f s) := by
  obtain ⟨hf, hb, hi⟩ := hr
  simp [operation, hf, ha, hb, hi, hv]

theorem operation_run (hr : Ready s) (ha : accepted = true) (hv : verdict = .run) :
    operation accepted lent verdict body s = .next (finish lent (body (start lent s))) := by
  obtain ⟨hf, hb, hi⟩ := hr
  simp [operation, hf, ha, hb, hi, hv]

/-- Everything an operation that answers a next state can have done. -/
theorem operation_cases (h : operation accepted lent verdict body s = .next t) :
    s.fault = none ∧
    ((accepted = false ∧ t = refuse s) ∨
     (accepted = true ∧ s.busy = true ∧ t = raiseFault .overlappingCommand s) ∨
     (accepted = true ∧ s.busy = false ∧ s.initialized = false ∧ t = reply lent .notInitialized s) ∨
     (accepted = true ∧ Ready s ∧
       ((verdict = .invalid ∧ t = reply lent .invalidArgument s) ∨
        (∃ f, verdict = .fault f ∧ t = raiseFault f s) ∨
        (verdict = .run ∧ t = finish lent (body (start lent s)))))) := by
  cases hf : s.fault with
  | some f => rw [operation_faulted hf] at h; cases h
  | none =>
    refine ⟨rfl, ?_⟩
    cases ha : accepted with
    | false => rw [operation_refused hf ha] at h; cases h; exact .inl ⟨rfl, rfl⟩
    | true =>
      cases hb : s.busy with
      | true => rw [operation_overlap hf ha hb] at h; cases h; exact .inr (.inl ⟨rfl, rfl, rfl⟩)
      | false =>
        cases hi : s.initialized with
        | false =>
          rw [operation_gate hf ha hb hi] at h; cases h
          exact .inr (.inr (.inl ⟨rfl, rfl, rfl, rfl⟩))
        | true =>
          have hr : Ready s := ⟨hf, hb, hi⟩
          refine .inr (.inr (.inr ⟨rfl, hr, ?_⟩))
          cases hv : verdict with
          | invalid => rw [operation_invalid hr ha hv] at h; cases h; exact .inl ⟨rfl, rfl⟩
          | fault f => rw [operation_fault hr ha hv] at h; cases h; exact .inr (.inl ⟨f, rfl, rfl⟩)
          | run => rw [operation_run hr ha hv] at h; cases h; exact .inr (.inr ⟨rfl, rfl⟩)

end

/-! ### Starting and replying -/

@[simp] theorem reply_ok (lent : Option (List Nat)) (s : State) :
    reply lent .ok s = { s with busy := false, result := some .ok } := by simp [reply]

@[simp] theorem reply_none (r : Result) (s : State) :
    reply none r s = { s with busy := false, result := some r } := by simp [reply]

theorem reply_err {r : Result} (h : r ≠ .ok) (b : List Nat) (s : State) :
    reply (some b) r s = scrambleResponse b.length { s with busy := false, result := some r } := by
  simp [reply, h]

@[simp] theorem start_none (s : State) : start none s = { s with busy := true, result := none } := rfl

@[simp] theorem start_some (b : List Nat) (s : State) :
    start (some b) s =
      { s with busy := true, result := none, response := Memory.ofBytes 0 (b.map (BitVec.ofNat 8)) } := rfl

/-- Every operation but `INIT` takes one course. -/
theorem exec_init (s : State) : exec .init s = execInit s := rfl

theorem execInit_next {s t : State} (h : execInit s = .next t) :
    s.fault = none ∧
    ((s.busy = true ∧ t = raiseFault .overlappingCommand s) ∨
     (s.busy = false ∧ t = { s with initialized := true, busy := false, result := some .ok })) := by
  unfold execInit at h
  split at h
  · cases h
  · refine ⟨‹_›, ?_⟩
    cases hb : s.busy with
    | true => simp only [hb, if_true] at h; cases h; exact .inl ⟨rfl, rfl⟩
    | false =>
      simp only [hb, Bool.false_eq_true, if_false] at h
      cases h
      exact .inr ⟨rfl, by simp⟩

end Sys2Proof.Machine
end

