-- ==== Sys2Proof/Laws/Bodies.lean ====
section
/-! SUPPORT. The pieces of the operations in closed form on a live platform whose host leaves the buffers alone:
the named waits, the gated writes, the inline bytes, bus turn-around, the acknowledge wait. -/

namespace Sys2Proof.Machine

open Sys2Proof

@[simp] theorem flow_done_bind {α β : Type} (a : α) (s : State) (f : α → State → Flow β) :
    (Flow.done a s).bind f = f a s := rfl

@[simp] theorem flow_stuck_bind {α β : Type} (s : State) (f : α → State → Flow β) :
    (Flow.stuck s : Flow α).bind f = .stuck s := rfl

@[simp] theorem flow_ok_onOk (s : State) (f : State → Flow Result) : (Flow.done .ok s).onOk f = f s := rfl

@[simp] theorem flow_stuck_onOk (s : State) (f : State → Flow Result) :
    (Flow.stuck s : Flow Result).onOk f = .stuck s := rfl

theorem flow_err_onOk {r : Result} (h : r ≠ .ok) (s : State) (f : State → Flow Result) :
    (Flow.done r s).onOk f = .done r s := by
  simp [Flow.onOk, h]

@[simp] theorem flow_timeout_onOk (tag : TimeoutTag) (s : State) (f : State → Flow Result) :
    (Flow.done (.timeout tag) s).onOk f = .done (.timeout tag) s := flow_err_onOk (by simp) s f

/-! ### Named waits -/

theorem waitFor_hit {w : WaitName} {s : State} {k : Nat} (hl : Live s) (hk : k < s.cfg.retryMax)
    (hh : s.FirstHit (waitHit s.cfg w) 0 k) :
    waitFor w s =
      .done .ok ((s.afterReads (k + 1)).emits (statusPoll s.cfg (s.peeks 0 (k + 1)))) :=
  poll_hit _ _ _ _ k _ s hl hk hh

theorem waitFor_miss {w : WaitName} {s : State} (hl : Live s)
    (hm : s.AllMiss (waitHit s.cfg w) 0 s.cfg.retryMax) :
    waitFor w s = .done (.timeout (waitTag w))
      ((s.afterReads s.cfg.retryMax).emits (statusPoll s.cfg (s.peeks 0 s.cfg.retryMax))) :=
  poll_miss _ _ _ _ _ s hl hm

/-! ### Gated writes -/

theorem hdrWrite_hit {h : Word} {s : State} {k : Nat} (hl : Live s) (hk : k < s.cfg.retryMax)
    (hh : s.FirstHit (waitHit s.cfg .cmdNotFull) 0 k) :
    hdrWrite h s = .done .ok ((s.afterReads (k + 1)).emits
      (statusPoll s.cfg (s.peeks 0 (k + 1)) ++ [.wr s.cfg.offGenHdr h])) := by
  rw [hdrWrite, waitFor_hit hl hk hh, flow_ok_onOk, regWrite_live (live_emits.2 (live_afterReads.2 hl))]
  simp

theorem hdrWrite_miss {h : Word} {s : State} (hl : Live s)
    (hm : s.AllMiss (waitHit s.cfg .cmdNotFull) 0 s.cfg.retryMax) :
    hdrWrite h s = .done (.timeout .cmdFifo)
      ((s.afterReads s.cfg.retryMax).emits (statusPoll s.cfg (s.peeks 0 s.cfg.retryMax))) := by
  rw [hdrWrite, waitFor_miss hl hm, flow_timeout_onOk]; rfl

theorem pldWrite_hit {word : State → Word × State} {w : Word} {s : State} {k : Nat} (hl : Live s)
    (hk : k < s.cfg.retryMax) (hh : s.FirstHit (waitHit s.cfg .pldWNotFull) 0 k)
    (hw : ∀ n evs, word ((s.afterReads n).emits evs) = (w, (s.afterReads n).emits evs)) :
    pldWrite word s = .done .ok ((s.afterReads (k + 1)).emits
      (statusPoll s.cfg (s.peeks 0 (k + 1)) ++ [.wr s.cfg.offGenPldData w])) := by
  rw [pldWrite, waitFor_hit hl hk hh, flow_ok_onOk, hw,
    regWrite_live (live_emits.2 (live_afterReads.2 hl))]
  simp

theorem pldWrite_miss {word : State → Word × State} {s : State} (hl : Live s)
    (hm : s.AllMiss (waitHit s.cfg .pldWNotFull) 0 s.cfg.retryMax) :
    pldWrite word s = .done (.timeout .pldFifoWrite)
      ((s.afterReads s.cfg.retryMax).emits (statusPoll s.cfg (s.peeks 0 s.cfg.retryMax))) := by
  rw [pldWrite, waitFor_miss hl hm, flow_timeout_onOk]; rfl

/-! ### Buffers the host leaves alone -/

/-- An inline byte of a stable payload (R81). -/
theorem inlineByte_stable {p : PayloadArg} {k : Nat} {s : State} (h : s.txChanged = []) :
    inlineByte p k s = (if p.len ≤ k then 0#8 else byteOrZero (payloadBytes p) k, s) := by
  unfold inlineByte
  split <;> simp [h]

/-- The bytes of a represented payload are as many as its length, or none. -/
theorem payloadBytes_length {p : PayloadArg} (h : p.wf = true) :
    (payloadBytes p).length = p.len ∨ p.bytes = none := by
  cases hb : p.bytes with
  | none => exact .inr rfl
  | some bs =>
    simp only [PayloadArg.wf, hb, Bool.and_eq_true, decide_eq_true_eq] at h
    simp [payloadBytes, hb, h.1]

/-- Past its length a represented payload reads as zero. -/
theorem byteOrZero_past {p : PayloadArg} {k : Nat} (h : p.wf = true) (hk : p.len ≤ k) :
    byteOrZero (payloadBytes p) k = 0#8 := by
  have : (payloadBytes p).length ≤ k := by
    rcases payloadBytes_length h with h | h
    · omega
    · simp [payloadBytes, h]
  simp [byteOrZero, List.getElem?_eq_none this]

theorem inlineByte_wf {p : PayloadArg} {k : Nat} {s : State} (h : s.txChanged = []) (hp : p.wf = true) :
    inlineByte p k s = (byteOrZero (payloadBytes p) k, s) := by
  rw [inlineByte_stable h]
  split
  · rw [byteOrZero_past hp ‹_›]
  · rfl

theorem inlineHdr_stable {d : Descriptor} {s : State} (h : s.txChanged = []) (hp : d.payload.wf = true) :
    inlineHdr d s = (hdr s.cfg (typeBits d) (channelBits d) (byteOrZero (payloadBytes d.payload) 0)
      (byteOrZero (payloadBytes d.payload) 1), s) := by
  simp [inlineHdr, inlineByte_wf h hp]

theorem payloadWord_stable {p : PayloadArg} {i : Nat} {s : State} (h : s.txChanged = []) :
    payloadWord p i s = (pword (payloadBytes p) i, s) := by
  simp [payloadWord, wordChanged, h]

theorem storeWord_stable {i n : Nat} {w : Word} {s : State} (h : s.rxTouched = []) :
    storeWord i n w s = { s with response := writeWordBytes i w s.response n } := by
  simp [storeWord, wordTouched, h]

/-! ### Bus turn-around -/

theorem setBta_live {b : Bool} {s : State} (hl : Live s) :
    setBta b s = .done () ((s.afterReads 2).emits (btaTrace s.cfg
      (s.peek 0) (withAckRqstEn s.cfg b (s.peek 0)) (s.peek 1) (withBtaEn s.cfg b (s.peek 1)))) := by
  have h1 : Live ((s.afterReads 1).emits [.rd s.cfg.offCmdModeCfg (s.peek 0)]) := hl
  have h2 : Live ((s.afterReads 1).emits ([Event.rd s.cfg.offCmdModeCfg (s.peek 0)] ++
    [Event.wr s.cfg.offCmdModeCfg (withAckRqstEn s.cfg b (s.peek 0))])) := hl
  simp only [setBta, readModifyWrite, regRead_live hl, flow_done_bind, regWrite_live h1, emits_emits,
    regRead_live h2]
  rw [regWrite_live (by exact hl)]
  simp [btaTrace]

theorem waitForAck_hit {s : State} {j k : Nat} (hl : Live s) (hj : j < s.cfg.retryMax)
    (hk : k < s.cfg.retryMax) (h1 : s.FirstHit (leftTx s.cfg) 0 j)
    (h2 : s.FirstHit (leftRx s.cfg) (j + 1) k) :
    waitForAck s = .done .ok ((s.afterReads (j + 1 + (k + 1))).emits
      (phyPoll s.cfg (s.peeks 0 (j + 1)) ++ phyPoll s.cfg (s.peeks (j + 1) (k + 1)))) := by
  rw [waitForAck, poll_hit _ _ _ _ j _ s hl hj h1, flow_ok_onOk]
  simp only [emits_cfg, afterReads_cfg]
  rw [poll_hit _ _ _ _ k _ ((s.afterReads (j + 1)).emits _) hl hk (by
    constructor
    · intro i hi; simpa [Nat.add_comm, Nat.add_left_comm] using h2.1 i hi
    · simpa [Nat.add_comm, Nat.add_left_comm] using h2.2)]
  simp [phyPoll]

theorem waitForAck_miss1 {s : State} (hl : Live s) (hm : s.AllMiss (leftTx s.cfg) 0 s.cfg.retryMax) :
    waitForAck s = .done (.timeout .btaPhase1)
      ((s.afterReads s.cfg.retryMax).emits (phyPoll s.cfg (s.peeks 0 s.cfg.retryMax))) := by
  rw [waitForAck, poll_miss _ _ _ _ _ s hl hm, flow_timeout_onOk]; rfl

theorem waitForAck_miss2 {s : State} {j : Nat} (hl : Live s) (hj : j < s.cfg.retryMax)
    (h1 : s.FirstHit (leftTx s.cfg) 0 j) (hm : s.AllMiss (leftRx s.cfg) (j + 1) s.cfg.retryMax) :
    waitForAck s = .done (.timeout .btaPhase2) ((s.afterReads (j + 1 + s.cfg.retryMax)).emits
      (phyPoll s.cfg (s.peeks 0 (j + 1)) ++ phyPoll s.cfg (s.peeks (j + 1) s.cfg.retryMax))) := by
  rw [waitForAck, poll_hit _ _ _ _ j _ s hl hj h1, flow_ok_onOk]
  simp only [emits_cfg, afterReads_cfg]
  rw [poll_miss _ _ _ _ _ ((s.afterReads (j + 1)).emits _) hl (by
    intro i hi; simpa [Nat.add_comm, Nat.add_left_comm] using hm i hi)]
  simp [phyPoll]

end Sys2Proof.Machine
end

