-- ==== Sys2Proof/Laws/Course.lean ====
section
/-! SUPPORT. What a piece of an operation can do whatever the environment answers: which fields it leaves alone,
the exact events it emits, how it ends. One lemma per piece; they compose by `Flow.Spec.bind`. -/

namespace Sys2Proof.Machine

open Sys2Proof

/-- What every piece of an operation leaves alone, and the events it adds. The response buffer, the answers used
and the draws are not spoken of. -/
structure Ran (s t : State) (evs : List Event) : Prop where
  cfg : t.cfg = s.cfg
  initialized : t.initialized = s.initialized
  busy : t.busy = s.busy
  fault : t.fault = s.fault
  refused : t.refused = s.refused
  result : t.result = s.result
  port : t.port = s.port
  txChanged : t.txChanged = s.txChanged
  rxTouched : t.rxTouched = s.rxTouched
  trace : t.trace = s.trace ++ evs
  live : s.stallAfter = none → t.stallAfter = none

theorem Ran.refl (s : State) : Ran s s [] := by constructor <;> simp

theorem Ran.trans {s t u : State} {a b : List Event} (h : Ran s t a) (k : Ran t u b) : Ran s u (a ++ b) := by
  constructor
  · rw [k.cfg, h.cfg]
  · rw [k.initialized, h.initialized]
  · rw [k.busy, h.busy]
  · rw [k.fault, h.fault]
  · rw [k.refused, h.refused]
  · rw [k.result, h.result]
  · rw [k.port, h.port]
  · rw [k.txChanged, h.txChanged]
  · rw [k.rxTouched, h.rxTouched]
  · rw [k.trace, h.trace, List.append_assoc]
  · exact fun l => k.live (h.live l)

/-- A piece run from `s` either ends, with `P` of its value, events and end state, or hangs, with `Q` of its
events and state. -/
def Flow.Spec {α : Type} (s : State) (x : Flow α) (P : α → List Event → State → Prop)
    (Q : List Event → State → Prop) : Prop :=
  match x with
  | .done a t => ∃ evs, Ran s t evs ∧ P a evs t
  | .stuck t => ∃ evs, Ran s t evs ∧ t.stallAfter = some 0 ∧ Q evs t

theorem Flow.Spec.done {α : Type} {s : State} {a : α} {P : α → List Event → State → Prop}
    {Q : List Event → State → Prop} (h : P a [] s) : (Flow.done a s).Spec s P Q :=
  ⟨[], Ran.refl s, h⟩

theorem Flow.Spec.bind {α β : Type} {s : State} {x : Flow α} {f : α → State → Flow β}
    {P : α → List Event → State → Prop} {Q Q' : List Event → State → Prop}
    {P' : β → List Event → State → Prop} (hx : x.Spec s P Q) (hq : ∀ evs t, Q evs t → Q' evs t)
    (hf : ∀ a evs t, Ran s t evs → P a evs t →
      (f a t).Spec t (fun b more u => P' b (evs ++ more) u) (fun more u => Q' (evs ++ more) u)) :
    (x.bind f).Spec s P' Q' := by
  cases x with
  | stuck t =>
    obtain ⟨evs, hr, hs, h⟩ := hx
    exact ⟨evs, hr, hs, hq _ _ h⟩
  | done a t =>
    obtain ⟨evs, hr, h⟩ := hx
    have hk := hf a evs t hr h
    simp only [flow_done_bind]
    revert hk
    cases f a t with
    | done b u => exact fun ⟨more, hm, h'⟩ => ⟨evs ++ more, hr.trans hm, h'⟩
    | stuck u => exact fun ⟨more, hm, hs, h'⟩ => ⟨evs ++ more, hr.trans hm, hs, h'⟩

/-- The same for "if r != Ok: return r". -/
theorem Flow.Spec.onOk {s : State} {x : Flow Result} {f : State → Flow Result}
    {P P' : Result → List Event → State → Prop} {Q Q' : List Event → State → Prop} (hx : x.Spec s P Q)
    (hq : ∀ evs t, Q evs t → Q' evs t) (he : ∀ r evs t, r ≠ .ok → P r evs t → P' r evs t)
    (hf : ∀ evs t, Ran s t evs → P .ok evs t →
      (f t).Spec t (fun b more u => P' b (evs ++ more) u) (fun more u => Q' (evs ++ more) u)) :
    (x.onOk f).Spec s P' Q' := by
  refine hx.bind hq ?_
  intro r evs t hr h
  by_cases hk : r = .ok
  · subst hk; simpa using hf evs t hr h
  · simp only [hk, if_false]
    exact Flow.Spec.done (by simpa using he r evs t hk h)

theorem Flow.Spec.mono {α : Type} {s : State} {x : Flow α} {P P' : α → List Event → State → Prop}
    {Q Q' : List Event → State → Prop} (hx : x.Spec s P Q)
    (hp : ∀ a evs t, Ran s t evs → P a evs t → P' a evs t) (hq : ∀ evs t, Ran s t evs → Q evs t → Q' evs t) :
    x.Spec s P' Q' := by
  cases x with
  | done a t => obtain ⟨evs, hr, h⟩ := hx; exact ⟨evs, hr, hp _ _ _ hr h⟩
  | stuck t => obtain ⟨evs, hr, hs, h⟩ := hx; exact ⟨evs, hr, hs, hq _ _ hr h⟩

/-! ### The ports -/

theorem completes_cases (s : State) :
    (completes s = none ∧ s.stallAfter = some 0) ∨
    ∃ k, completes s = some { s with stallAfter := k } ∧ (s.stallAfter = none → k = none) := by
  unfold completes
  cases h : s.stallAfter with
  | none => exact .inr ⟨none, by simp [← h]⟩
  | some n =>
    cases n with
    | zero => exact .inl ⟨rfl, rfl⟩
    | succ n => exact .inr ⟨some n, rfl, by simp⟩

theorem regRead_spec (off : Nat) (s : State) :
    (regRead off s).Spec s (fun v evs t => evs = [.rd off v] ∧ t.response = s.response)
      (fun evs t => evs = [] ∧ t.response = s.response) := by
  unfold regRead
  rcases completes_cases s with ⟨h, h0⟩ | ⟨k, h, hk⟩
  · rw [h]; exact ⟨[], Ran.refl s, h0, rfl, rfl⟩
  · rw [h]
    refine ⟨_, ?_, rfl, ?_⟩
    · rw [nextRead_eq]
      constructor <;> first | rfl | exact hk
    · rw [nextRead_eq]; rfl

theorem regWrite_spec (off : Nat) (v : Word) (s : State) :
    (regWrite off v s).Spec s (fun _ evs t => evs = [.wr off v] ∧ t.response = s.response)
      (fun evs t => evs = [] ∧ t.response = s.response) := by
  unfold regWrite
  rcases completes_cases s with ⟨h, h0⟩ | ⟨k, h, hk⟩
  · rw [h]; exact ⟨[], Ran.refl s, h0, rfl, rfl⟩
  · rw [h]
    refine ⟨_, ?_, rfl, rfl⟩
    constructor <;> first | rfl | exact hk

theorem sleep_spec (us : Nat) (s : State) :
    (sleep us s).Spec s (fun _ evs t => evs = [.slp us] ∧ t.response = s.response)
      (fun evs t => evs = [] ∧ t.response = s.response) := by
  unfold sleep
  rcases completes_cases s with ⟨h, h0⟩ | ⟨k, h, hk⟩
  · rw [h]; exact ⟨[], Ran.refl s, h0, rfl, rfl⟩
  · rw [h]
    refine ⟨_, ?_, rfl, rfl⟩
    constructor <;> first | rfl | exact hk

/-! ### The poll -/

/-- The events a poll has emitted when it hangs: reads of its register and sleeps. -/
def PollEvents (off us : Nat) (evs : List Event) : Prop := ∀ e ∈ evs, e = .slp us ∨ ∃ v, e = .rd off v

/-- How a poll can end: at its first hit, or with its tag after a whole budget of misses. -/
def PollEnds (off us : Nat) (hit : Word → Bool) (tag : TimeoutTag) (n : Nat) (r : Result)
    (evs : List Event) : Prop :=
  ∃ vs, evs = pollTrace off us vs ∧
    ((r = .ok ∧ PollMatched n hit vs) ∨ (r = .timeout tag ∧ PollMissed n hit vs))

theorem pollTrace_events (off us : Nat) : ∀ vs, PollEvents off us (pollTrace off us vs)
  | [] => by intro e he; cases he
  | [v] => by
    intro e he
    simp only [pollTrace, List.mem_singleton] at he
    exact .inr ⟨v, he⟩
  | v :: w :: rest => by
    intro e he
    simp only [pollTrace, List.mem_cons] at he
    rcases he with rfl | rfl | he
    · exact .inr ⟨v, rfl⟩
    · exact .inl rfl
    · exact pollTrace_events off us (w :: rest) e he

theorem pollTrace_length (off us : Nat) : ∀ vs, (pollTrace off us vs).length = 2 * vs.length - 1
  | [] => rfl
  | [_] => rfl
  | v :: w :: rest => by
    simp only [pollTrace, List.length_cons, pollTrace_length off us (w :: rest)]
    omega

/-- The last event of a poll is its last read. -/
theorem pollTrace_append (off us : Nat) (v : Word) :
    ∀ ms, ∃ pre, pollTrace off us (ms ++ [v]) = pre ++ [.rd off v] ∧ PollEvents off us pre
  | [] => ⟨[], rfl, by simp [PollEvents]⟩
  | m :: ms => by
    obtain ⟨pre, h, hp⟩ := pollTrace_append off us v ms
    refine ⟨.rd off m :: .slp us :: pre, ?_, ?_⟩
    · rw [List.cons_append, pollTrace_cons off us m (by simp), h]; rfl
    · intro e he
      simp only [List.mem_cons] at he
      rcases he with rfl | rfl | he
      · exact .inr ⟨m, rfl⟩
      · exact .inl rfl
      · exact hp e he

theorem poll_spec (off us : Nat) (hit : Word → Bool) (tag : TimeoutTag) :
    ∀ (n : Nat) (s : State), (poll off us hit tag n s).Spec s
      (fun r evs t => PollEnds off us hit tag n r evs ∧ t.response = s.response)
      (fun evs t => PollEvents off us evs ∧ evs.length ≤ 2 * n - 1 ∧ t.response = s.response) := by
  intro n
  induction n with
  | zero =>
    intro s
    exact Flow.Spec.done ⟨⟨[], rfl, .inr ⟨rfl, rfl, by simp⟩⟩, rfl⟩
  | succ n ih =>
    intro s
    unfold poll
    refine (regRead_spec off s).bind ?_ ?_
    · rintro evs t ⟨rfl, h⟩
      exact ⟨by simp [PollEvents], Nat.zero_le _, h⟩
    · rintro v evs t hr ⟨rfl, hresp⟩
      by_cases hv : hit v = true
      · rw [if_pos hv]
        exact Flow.Spec.done ⟨⟨[v], rfl, .inl ⟨rfl, [], v, rfl, by simp, by simp, hv⟩⟩, hresp⟩
      · rw [if_neg hv]
        by_cases hn : n = 0
        · rw [if_pos hn]
          exact Flow.Spec.done ⟨⟨[v], rfl, .inr ⟨rfl, by simp [hn], by simpa using hv⟩⟩, hresp⟩
        · rw [if_neg hn]
          refine (sleep_spec us t).bind ?_ ?_
          · rintro evs' u ⟨rfl, h⟩
            exact ⟨by simp [PollEvents], by simp; omega, h.trans hresp⟩
          · rintro _ evs' u hr' ⟨rfl, hresp'⟩
            refine (ih u).mono ?_ ?_
            · rintro r more w hm ⟨⟨vs, rfl, hend⟩, h⟩
              have hne : vs ≠ [] := by
                rcases hend with ⟨-, ms, x, rfl, -⟩ | ⟨-, hl, -⟩
                · simp
                · rintro rfl; exact hn hl.symm
              have hv' : hit v = false := by simpa using hv
              refine ⟨⟨v :: vs, by rw [pollTrace_cons off us v hne]; rfl, ?_⟩, h.trans (hresp'.trans hresp)⟩
              rcases hend with ⟨rfl, ms, x, rfl, hl, hm, hx⟩ | ⟨rfl, hl, hm⟩
              · exact .inl ⟨rfl, v :: ms, x, rfl, by simpa using hl, by simpa using ⟨hv', hm⟩, hx⟩
              · exact .inr ⟨rfl, by simp [hl], by simpa using ⟨hv', hm⟩⟩
            · rintro more w hm ⟨hpe, hlen, h⟩
              refine ⟨?_, by simp; omega, h.trans (hresp'.trans hresp)⟩
              intro e he
              simp only [List.cons_append, List.nil_append, List.mem_cons] at he
              rcases he with rfl | rfl | he
              · exact .inr ⟨v, rfl⟩
              · exact .inl rfl
              · exact hpe e he

end Sys2Proof.Machine
end

