-- ==== Sys2Proof/Laws/Fields.lean ====
section
/-! SUPPORT. Bit fields one bit at a time, the header word one bit at a time, and what the constraints of R8 give
of a configuration. -/

namespace Sys2Proof.Machine

open Sys2Proof

/-! ### Fields -/

theorem mask_bit {w : Nat} (n : Nat) (h : w < 32) : (mask w).getLsbD n = decide (n < w) := by
  unfold mask
  rw [BitVec.getLsbD_ofNat]
  by_cases hn : n < 32
  · simp [hn]
  · simp [hn]; omega

theorem getf_bit (v : Word) (p : Nat) {w : Nat} (n : Nat) (h : w < 32) :
    (getf v p w).getLsbD n = (decide (n < w) && v.getLsbD (p + n)) := by
  simp [getf, mask_bit _ h, Bool.and_comm]

theorem setf_bit (v x : Word) (p : Nat) {w : Nat} (n : Nat) (h : w < 32) :
    (setf v p w x).getLsbD n =
      (decide (n < 32) && if p ≤ n ∧ n < p + w then x.getLsbD (n - p) else v.getLsbD n) := by
  simp only [setf, BitVec.getLsbD_or, BitVec.getLsbD_and, BitVec.getLsbD_not, BitVec.getLsbD_shiftLeft,
    mask_bit _ h]
  by_cases hn : n < 32
  · by_cases h1 : n < p
    · have : ¬ (p ≤ n ∧ n < p + w) := by omega
      simp [hn, h1, this]
    · by_cases h2 : n < p + w
      · have : (p ≤ n ∧ n < p + w) := by omega
        have : n - p < w := by omega
        simp [*]
      · have : ¬ (p ≤ n ∧ n < p + w) := by omega
        have : ¬ n - p < w := by omega
        simp [*]
  · simp [hn]

/-- A header word, bit by bit: the innermost field that holds the bit, else 0. -/
theorem hdr_bit (c : Config) (dt : BitVec 6) (vc : BitVec 2) (lo hi : Byte) (n : Nat) :
    (hdr c dt vc lo hi).getLsbD n =
      (decide (n < 32) &&
        if c.hdrWcmPos ≤ n ∧ n < c.hdrWcmPos + 8 then hi.getLsbD (n - c.hdrWcmPos)
        else if c.hdrWclPos ≤ n ∧ n < c.hdrWclPos + 8 then lo.getLsbD (n - c.hdrWclPos)
        else if c.hdrVcPos ≤ n ∧ n < c.hdrVcPos + 2 then vc.getLsbD (n - c.hdrVcPos)
        else if c.hdrDtPos ≤ n ∧ n < c.hdrDtPos + 6 then dt.getLsbD (n - c.hdrDtPos)
        else false) := by
  simp only [hdr, setf_bit _ _ _ _ (by decide : 8 < 32), setf_bit _ _ _ _ (by decide : 2 < 32),
    setf_bit _ _ _ _ (by decide : 6 < 32)]
  by_cases hn : n < 32
  · simp only [hn, decide_true, Bool.true_and, BitVec.getLsbD_setWidth]
    repeat' split
    all_goals first | (simp; omega) | simp
  · simp [hn]

/-! ### Configurations -/

theorem cfg_retryMax (c : Config) : 1 ≤ c.retryMax := by
  have := c.valid
  simp only [Params.wf, Bool.and_eq_true, decide_eq_true_eq] at this
  tauto

theorem cfg_header (c : Config) : c.headerApart = true ∧ c.hdrDtPos + 6 ≤ 32 ∧ c.hdrVcPos + 2 ≤ 32 ∧
    c.hdrWclPos + 8 ≤ 32 ∧ c.hdrWcmPos + 8 ≤ 32 := by
  have := c.valid
  simp only [Params.wf, Params.fieldsInWord, Bool.and_eq_true, decide_eq_true_eq] at this
  tauto

theorem cfg_offsets (c : Config) : c.offsets.Nodup ∧ ∀ o ∈ c.offsets, o % 4 = 0 := by
  have := c.valid
  simp only [Params.wf, Bool.and_eq_true, decide_eq_true_eq, List.all_eq_true] at this
  tauto

/-- The six registers are six different ones. -/
theorem cfg_apart (c : Config) :
    c.offCmdPktStatus ≠ c.offGenHdr ∧ c.offCmdPktStatus ≠ c.offGenPldData ∧ c.offGenHdr ≠ c.offGenPldData ∧
    c.offPhyStatus ≠ c.offGenPldData ∧ c.offCmdModeCfg ≠ c.offGenHdr ∧ c.offCmdModeCfg ≠ c.offGenPldData ∧
    c.offPckhdlCfg ≠ c.offGenHdr ∧ c.offPckhdlCfg ≠ c.offGenPldData ∧ c.offCmdModeCfg ≠ c.offPckhdlCfg := by
  have := (cfg_offsets c).1
  simp only [Params.offsets, List.nodup_cons, List.mem_cons, List.not_mem_nil, or_false, not_or] at this
  refine ⟨?_, ?_, ?_, ?_, ?_, ?_, ?_, ?_, ?_⟩ <;> intro h <;> simp_all

theorem cfg_bits (c : Config) : c.bitAckRqstEn < 32 ∧ c.bitBtaEn < 32 := by
  have := c.valid
  simp only [Params.wf, Params.fieldsInWord, Params.bitPositions, Bool.and_eq_true, decide_eq_true_eq,
    List.all_cons, List.all_nil] at this
  omega

theorem cfg_vc (c : Config) : c.vc ≤ 3 := by
  have := c.valid
  simp only [Params.wf, Bool.and_eq_true, decide_eq_true_eq] at this
  tauto

end Sys2Proof.Machine
end

