-- ==== Sys2Proof/Laws/Memory.lean ====
section
/-! SUPPORT. The response buffer: every operation on it keeps its one form, a read after a write gives the byte
written, and a write leaves every other byte alone. -/

namespace Sys2Proof.Machine

open Sys2Proof

/-! ### Read after write -/

theorem read_write_same (i : Nat) (b : Byte) : ∀ m : Memory, (m.write i b).read i = some b
  | [] => by simp [Memory.write, Memory.read]
  | (j, c) :: rest => by
    unfold Memory.write
    split
    · simp [Memory.read]
    · split
      · simp [Memory.read]
      · have h : j ≠ i := by omega
        simp [Memory.read, h, read_write_same i b rest]

theorem read_write_other {i k : Nat} (b : Byte) (h : k ≠ i) : ∀ m : Memory, (m.write i b).read k = m.read k
  | [] => by simp [Memory.write, Memory.read, h.symm]
  | (j, c) :: rest => by
    unfold Memory.write
    split
    · simp [Memory.read, h.symm]
    · split
      · have hj : j ≠ k := by omega
        simp [Memory.read, h.symm, hj]
      · simp [Memory.read, read_write_other b h rest]

theorem read_ofBytes (k : Nat) : ∀ (bs : List Byte) (i : Nat),
    (Memory.ofBytes i bs).read k = if k < i then none else bs[k - i]?
  | [], i => by simp [Memory.ofBytes, Memory.read]
  | b :: rest, i => by
    unfold Memory.ofBytes Memory.read
    rw [read_ofBytes k rest (i + 1)]
    by_cases h : i = k
    · simp [h]
    · rw [if_neg h]
      by_cases hk : k < i
      · rw [if_pos hk, if_pos (by omega)]
      · rw [if_neg hk, if_neg (by omega), show k - i = k - (i + 1) + 1 from by omega, List.getElem?_cons_succ]

/-! ### The one form -/

theorem mem_write {i : Nat} {b : Byte} {x : Host.Cell} :
    ∀ {m : Memory}, x ∈ m.write i b → x = (i, b) ∨ x ∈ m
  | [], h => by simp [Memory.write] at h; exact .inl h
  | (j, c) :: rest, h => by
    unfold Memory.write at h
    split at h
    · rcases List.mem_cons.1 h with h | h
      · exact .inl h
      · exact .inr h
    · split at h
      · rcases List.mem_cons.1 h with h | h
        · exact .inl h
        · exact .inr (List.mem_cons_of_mem _ h)
      · rcases List.mem_cons.1 h with h | h
        · exact .inr (h ▸ List.mem_cons_self)
        · rcases mem_write h with h | h
          · exact .inl h
          · exact .inr (List.mem_cons_of_mem _ h)

theorem write_wf (i : Nat) (b : Byte) : ∀ {m : Memory}, m.wf → (m.write i b).wf
  | [], _ => by simp [Memory.write, Memory.wf]
  | (j, c) :: rest, h => by
    obtain ⟨hj, hr⟩ := List.pairwise_cons.1 h
    unfold Memory.write
    split
    · refine List.pairwise_cons.2 ⟨?_, h⟩
      intro x hx
      rcases List.mem_cons.1 hx with rfl | hx
      · assumption
      · exact Nat.lt_trans ‹_› (hj x hx)
    · split
      · refine List.pairwise_cons.2 ⟨?_, hr⟩
        intro x hx
        have := hj x hx
        simp only at this ⊢
        omega
      · refine List.pairwise_cons.2 ⟨?_, write_wf i b hr⟩
        intro x hx
        rcases mem_write hx with rfl | hx
        · simp only; omega
        · exact hj x hx

theorem mem_ofBytes {x : Host.Cell} : ∀ {bs : List Byte} {i : Nat}, x ∈ Memory.ofBytes i bs → i ≤ x.1
  | [], _, h => by simp [Memory.ofBytes] at h
  | b :: rest, i, h => by
    rcases List.mem_cons.1 h with rfl | h
    · exact Nat.le_refl _
    · have := mem_ofBytes h; omega

theorem ofBytes_wf : ∀ (bs : List Byte) (i : Nat), (Memory.ofBytes i bs).wf
  | [], _ => List.Pairwise.nil
  | b :: rest, i => by
    refine List.pairwise_cons.2 ⟨?_, ofBytes_wf rest (i + 1)⟩
    intro x hx
    have := mem_ofBytes hx
    simp only
    omega

theorem writeWordBytes_wf (i : Nat) (w : Word) {m : Memory} (h : m.wf) : ∀ n, (writeWordBytes i w m n).wf
  | 0 => h
  | n + 1 => write_wf _ _ (writeWordBytes_wf i w h n)

theorem scrambleResponse_wf (n : Nat) (s : State) : (scrambleResponse n s).response.wf := ofBytes_wf _ _

theorem storeWord_wf (i n : Nat) (w : Word) {s : State} (h : s.response.wf) :
    (storeWord i n w s).response.wf := by
  unfold storeWord
  split
  · exact writeWordBytes_wf _ _ h n
  · exact writeWordBytes_wf _ _ h n

theorem start_wf (lent : Option (List Nat)) {s : State} (h : s.response.wf) :
    (start lent s).response.wf := by
  cases lent with
  | none => exact h
  | some b => exact ofBytes_wf _ _

theorem reply_wf (lent : Option (List Nat)) (r : Result) {s : State} (h : s.response.wf) :
    (reply lent r s).response.wf := by
  unfold reply
  split
  · exact h
  · split
    · exact h
    · exact scrambleResponse_wf _ _

/-! ### The bytes of a word -/

/-- Bytes 4i+j, j < n, of the buffer are the word's, every other byte is as it was (R73). -/
theorem read_writeWordBytes (i : Nat) (w : Word) (m : Memory) (k : Nat) : ∀ n,
    (writeWordBytes i w m n).read k =
      if 4 * i ≤ k ∧ k < 4 * i + n then some (wordByte w (k - 4 * i)) else m.read k
  | 0 => by rw [if_neg (by omega)]; rfl
  | n + 1 => by
    unfold writeWordBytes
    by_cases h : k = 4 * i + n
    · subst h
      rw [read_write_same, if_pos (by omega)]
      congr 2; omega
    · rw [read_write_other _ h, read_writeWordBytes i w m k n]
      by_cases h' : 4 * i ≤ k ∧ k < 4 * i + n
      · rw [if_pos h', if_pos (by omega)]
      · rw [if_neg h', if_neg (by omega)]

/-- Two buffers in the one form that read alike are equal data. -/
theorem ext_read : ∀ {m m' : Memory}, m.wf → m'.wf → (∀ k, m.read k = m'.read k) → m = m'
  | [], [], _, _, _ => rfl
  | [], (j, c) :: _, _, _, h => by simpa [Memory.read] using h j
  | (i, b) :: _, [], _, _, h => by simpa [Memory.read] using h i
  | (i, b) :: m, (j, c) :: m', hm, hm', h => by
    obtain ⟨hi, ht⟩ := List.pairwise_cons.1 hm
    obtain ⟨hj, ht'⟩ := List.pairwise_cons.1 hm'
    have low : ∀ (l : Memory) (k : Nat), (∀ x ∈ l, k < x.1) → l.read k = none := by
      intro l k hl
      induction l with
      | nil => rfl
      | cons x l ih =>
        have := hl x List.mem_cons_self
        have hx : x.1 ≠ k := by omega
        simp only [Memory.read, hx, if_false]
        exact ih fun y hy => hl y (List.mem_cons_of_mem _ hy)
    have hij : i = j := by
      rcases Nat.lt_trichotomy i j with hlt | heq | hgt
      · have := h i
        rw [low ((j, c) :: m') i] at this
        · simp [Memory.read] at this
        · intro x hx
          rcases List.mem_cons.1 hx with rfl | hx
          · exact hlt
          · exact Nat.lt_trans hlt (hj x hx)
      · exact heq
      · have := h j
        rw [low ((i, b) :: m) j] at this
        · simp [Memory.read] at this
        · intro x hx
          rcases List.mem_cons.1 hx with rfl | hx
          · exact hgt
          · exact Nat.lt_trans hgt (hi x hx)
    subst hij
    have hb : b = c := by simpa [Memory.read] using h i
    subst hb
    congr 1
    refine ext_read ht ht' fun k => ?_
    by_cases hk : i = k
    · subst hk; rw [low m i hi, low m' i hj]
    · simpa [Memory.read, hk] using h k

end Sys2Proof.Machine
end

