-- ==== Sys2Proof/Laws/Uniform.lean ====
section
/-! SUPPORT. Every operation but `INIT` is the one shared course with a verdict and a body of its own. A statement
about all operations is proved from this and from what each body can do. -/

namespace Sys2Proof.Machine

open Sys2Proof

/-- The response buffer an operation lends. -/
def opLent : Instr → Option (List Nat)
  | .send _ rx _ => rx.buffer
  | .grd d => d.response.buffer
  | _ => none

/-- The verdict of an operation's checks. -/
def opVerdict (c : Config) : Instr → Verdict
  | .send tx rx dcs => sendVerdict c tx rx dcs
  | .gsw d => gswVerdict c d
  | .dsw d => dswVerdict c d
  | .lw d => lwVerdict c d
  | .grd d => grdVerdict d
  | _ => .run

/-- The body of an operation. -/
def opBody (c : Config) : Instr → State → Flow Result
  | .init => fun s => .done .ok s
  | .send tx rx dcs => sendBody tx rx dcs
  | .gsw d => gswBody d
  | .dsw d => dswBody d
  | .lw d => lwBody d
  | .grd d => grdBody d
  | .wait sel => waitFor (waitOfSel sel)
  | .btaen => fun s => (enableBta s).bind fun _ s => .done .ok s
  | .btadis => fun s => (disableBta s).bind fun _ s => .done .ok s
  | .btawait => waitForAck
  | .reservedOp _ => fun s => .done .ok s
  | .waitPldWNotFull => waitFor .pldWNotFull
  | .waitPldWEmpty => waitFor .pldWEmpty
  | .waitPldRFull => waitFor .pldRFull
  | .waitPldRNotEmpty => waitFor .pldRNotEmpty
  | .waitCmdNotFull => waitFor .cmdNotFull
  | .waitCmdEmpty => waitFor .cmdEmpty
  | .hdrGenSw0 vc lo hi => hdrWrite (hdr c c.dt.genSw0 vc lo hi)
  | .hdrGenSw1 vc lo hi => hdrWrite (hdr c c.dt.genSw1 vc lo hi)
  | .hdrGenSw2 vc lo hi => hdrWrite (hdr c c.dt.genSw2 vc lo hi)
  | .hdrGenSr0 vc lo hi => hdrWrite (hdr c c.dt.genSr0 vc lo hi)
  | .hdrGenSr1 vc lo hi => hdrWrite (hdr c c.dt.genSr1 vc lo hi)
  | .hdrGenSr2 vc lo hi => hdrWrite (hdr c c.dt.genSr2 vc lo hi)
  | .hdrDcsSw0 vc lo hi => hdrWrite (hdr c c.dt.dcsSw0 vc lo hi)
  | .hdrDcsSw1 vc lo hi => hdrWrite (hdr c c.dt.dcsSw1 vc lo hi)
  | .hdrDcsRead vc lo hi => hdrWrite (hdr c c.dt.dcsRead vc lo hi)
  | .hdrSetMaxRet vc lo hi => hdrWrite (hdr c c.dt.setMaxRet vc lo hi)
  | .hdrGenLw vc lo hi => hdrWrite (hdr c c.dt.genLw vc lo hi)
  | .hdrDcsLw vc lo hi => hdrWrite (hdr c c.dt.dcsLw vc lo hi)
  | .pldWord b0 b1 b2 b3 => pldWrite fun s => (pword [b0, b1, b2, b3] 0, s)

theorem exec_operation {i : Instr} (h : i ≠ .init) (s : State) :
    exec i s = operation i.wf (opLent i) (opVerdict s.cfg i) (opBody s.cfg i) s := by
  cases i with
  | init => exact absurd rfl h
  | _ => rfl

/-- Every instruction that answers a next state did one of these. -/
theorem exec_cases {i : Instr} {s t : State} (h : exec i s = .next t) :
    s.fault = none ∧
    ((i.wf = false ∧ t = refuse s) ∨
     (i.wf = true ∧ s.busy = true ∧ t = raiseFault .overlappingCommand s) ∨
     (i = .init ∧ s.busy = false ∧ t = { s with initialized := true, busy := false, result := some .ok }) ∨
     (i ≠ .init ∧ i.wf = true ∧ s.busy = false ∧ s.initialized = false ∧
       t = reply (opLent i) .notInitialized s) ∨
     (i ≠ .init ∧ i.wf = true ∧ Ready s ∧
       ((opVerdict s.cfg i = .invalid ∧ t = reply (opLent i) .invalidArgument s) ∨
        (∃ f, opVerdict s.cfg i = .fault f ∧ t = raiseFault f s) ∨
        (opVerdict s.cfg i = .run ∧ t = finish (opLent i) (opBody s.cfg i (start (opLent i) s)))))) := by
  by_cases hi : i = .init
  · subst hi
    obtain ⟨hf, h⟩ := execInit_next h
    refine ⟨hf, ?_⟩
    rcases h with ⟨hb, rfl⟩ | ⟨hb, rfl⟩
    · exact .inr (.inl ⟨rfl, hb, rfl⟩)
    · exact .inr (.inr (.inl ⟨rfl, hb, rfl⟩))
  · rw [exec_operation hi] at h
    obtain ⟨hf, h⟩ := operation_cases h
    refine ⟨hf, ?_⟩
    rcases h with h | h | h | h
    · exact .inl h
    · exact .inr (.inl h)
    · exact .inr (.inr (.inr (.inl ⟨hi, h⟩)))
    · exact .inr (.inr (.inr (.inr ⟨hi, h⟩)))

end Sys2Proof.Machine
end

