-- ==== Sys2Proof/Laws/Safe.lean ====
section
/-! SUPPORT. One fact about every operation's body, whatever the environment answers: its events are legal and
gated, at most so many, its value is `Ok` or a timeout, and the response buffer keeps its form and its bounds. -/

namespace Sys2Proof.Machine

open Sys2Proof

/-! ### Good pieces of a trace -/

/-- Legal events, gated whatever event came before. -/
def Good (c : Config) (evs : List Event) : Prop :=
  (∀ e ∈ evs, eventLegal c e) ∧ ∀ prev, gatedFrom c prev evs = true

theorem good_nil (c : Config) : Good c [] := ⟨by simp, fun _ => rfl⟩

theorem gated_append {c : Config} {b : List Event} (hb : ∀ prev, gatedFrom c prev b = true) :
    ∀ {a : List Event} {prev : Option Event}, gatedFrom c prev a = true → gatedFrom c prev (a ++ b) = true
  | [], prev, _ => hb prev
  | e :: a, prev, h => by
    simp only [gatedFrom, Bool.and_eq_true] at h
    simp only [List.cons_append, gatedFrom, Bool.and_eq_true]
    exact ⟨h.1, gated_append hb h.2⟩

theorem Good.append {c : Config} {a b : List Event} (ha : Good c a) (hb : Good c b) : Good c (a ++ b) := by
  refine ⟨?_, fun prev => gated_append hb.2 (ha.2 prev)⟩
  intro e he
  rcases List.mem_append.1 he with he | he
  · exact ha.1 e he
  · exact hb.1 e he

theorem gated_poll {c : Config} {off us : Nat} (ho : off ≠ c.offGenPldData) {rest : List Event} :
    ∀ {evs : List Event} {prev : Option Event}, PollEvents off us evs →
      (∀ p, gatedFrom c p rest = true) → gatedFrom c prev (evs ++ rest) = true
  | [], prev, _, h => h prev
  | e :: evs, prev, hp, h => by
    have ht : gatedFrom c (some e) (evs ++ rest) = true :=
      gated_poll ho (fun e' he' => hp e' (List.mem_cons_of_mem _ he')) h
    simp only [List.cons_append, gatedFrom, Bool.and_eq_true]
    refine ⟨?_, ht⟩
    rcases hp e List.mem_cons_self with rfl | ⟨v, rfl⟩
    · rfl
    · simp [gateKept, ho]

theorem good_poll {c : Config} {off : Nat} {evs : List Event}
    (ho : off = c.offCmdPktStatus ∨ off = c.offPhyStatus) (h : PollEvents off c.pollIntervalUs evs) :
    Good c evs := by
  have hne : off ≠ c.offGenPldData := by
    obtain ⟨-, h1, -, h2, -⟩ := cfg_apart c
    rcases ho with rfl | rfl <;> assumption
  constructor
  · intro e he
    rcases h e he with rfl | ⟨v, rfl⟩
    · rfl
    · rcases ho with rfl | rfl
      · exact .inl rfl
      · exact .inr (.inl rfl)
  · intro prev
    have := gated_poll (c := c) (prev := prev) hne (rest := []) h (fun _ => rfl)
    simpa using this

/-- A poll that hits, and right after it the access it was for. -/
theorem good_access {c : Config} {ms : List Word} {v : Word} {e : Event}
    (hl : eventLegal c e) (hg : gateKept c (some (.rd c.offCmdPktStatus v)) e = true) :
    Good c (statusPoll c (ms ++ [v]) ++ [e]) := by
  obtain ⟨pre, hp, hpe⟩ := pollTrace_append c.offCmdPktStatus c.pollIntervalUs v ms
  have hne := (cfg_apart c).2.1
  rw [statusPoll, hp]
  constructor
  · intro x hx
    simp only [List.mem_append, List.mem_singleton] at hx
    rcases hx with (hx | rfl) | rfl
    · exact (good_poll (.inl rfl) hpe).1 x hx
    · exact .inl rfl
    · exact hl
  · intro prev
    rw [List.append_assoc]
    refine gated_poll hne hpe fun p => ?_
    have hr : gateKept c p (.rd c.offCmdPktStatus v) = true := by simp [gateKept, hne]
    simp only [List.cons_append, List.nil_append, gatedFrom, hr, hg, Bool.and_true]

theorem good_bta (c : Config) (a a' b b' : Word) : Good c (btaTrace c a a' b b') := by
  obtain ⟨-, -, -, -, h1, h2, h3, h4, -⟩ := cfg_apart c
  constructor
  · simp [btaTrace, eventLegal]
  · intro prev
    simp [btaTrace, gatedFrom, gateKept, h1, h2, h3, h4]

/-- The first three events of the four are as good. -/
theorem good_bta_prefix (c : Config) (a a' b : Word) :
    Good c [.rd c.offCmdModeCfg a] ∧ Good c [.rd c.offCmdModeCfg a, .wr c.offCmdModeCfg a'] ∧
    Good c [.rd c.offPckhdlCfg b] ∧ ∀ b', Good c [.rd c.offPckhdlCfg b, .wr c.offPckhdlCfg b'] := by
  obtain ⟨-, -, -, -, h1, h2, h3, h4, -⟩ := cfg_apart c
  refine ⟨⟨?_, ?_⟩, ⟨?_, ?_⟩, ⟨?_, ?_⟩, fun b' => ⟨?_, ?_⟩⟩
  all_goals first
    | (intro prev; simp [gatedFrom, gateKept, h1, h2, h3, h4]; done)
    | (simp [eventLegal]; done)

/-! ### The response buffer -/

/-- `none`: the buffer is as it was. `some r`: it keeps its one form, and gains no byte at `r` or above. -/
def Kept (r : Option Nat) (s t : State) : Prop :=
  match r with
  | none => t.response = s.response
  | some r => (s.response.wf → t.response.wf) ∧
      ∀ k, r ≤ k → s.response.read k = none → t.response.read k = none

theorem Kept.refl (r : Option Nat) (s : State) : Kept r s s := by
  cases r with
  | none => rfl
  | some r => exact ⟨id, fun _ _ h => h⟩

theorem Kept.trans {r : Option Nat} {s t u : State} (h : Kept r s t) (k : Kept r t u) : Kept r s u := by
  cases r with
  | none => exact Eq.trans k h
  | some r => exact ⟨fun w => k.1 (h.1 w), fun j hj hn => k.2 j hj (h.2 j hj hn)⟩

theorem Kept.of_eq {r : Option Nat} {s t : State} (h : t.response = s.response) : Kept r s t := by
  cases r with
  | none => exact h
  | some r => exact ⟨fun w => by rw [h]; exact w, fun j _ hn => by rw [h]; exact hn⟩

/-! ### Safe pieces of an operation -/

/-- A piece run from `s` emits at most `b` events, all good, keeps the buffer, and gives a value with `V`. -/
def Flow.Safe {α : Type} (V : α → Prop) (b : Nat) (r : Option Nat) (s : State) (x : Flow α) : Prop :=
  x.Spec s (fun a evs t => Good s.cfg evs ∧ evs.length ≤ b ∧ Kept r s t ∧ V a)
    (fun evs t => Good s.cfg evs ∧ evs.length ≤ b ∧ Kept r s t)

/-- The value of a body. -/
def Ended (r : Result) : Prop := r = .ok ∨ ∃ tag, r = .timeout tag

theorem Flow.Safe.done {α : Type} {V : α → Prop} {r : Option Nat} {s : State} {a : α} (h : V a) :
    (Flow.done a s).Safe V 0 r s := Flow.Spec.done ⟨good_nil _, Nat.le_refl _, Kept.refl _ _, h⟩

theorem Flow.Safe.mono {α : Type} {V W : α → Prop} {b b' : Nat} {r : Option Nat} {s : State} {x : Flow α}
    (h : x.Safe V b r s) (hb : b ≤ b') (hv : ∀ a, V a → W a) : x.Safe W b' r s :=
  Flow.Spec.mono h (fun _ _ _ _ ⟨g, l, k, v⟩ => ⟨g, Nat.le_trans l hb, k, hv _ v⟩)
    (fun _ _ _ ⟨g, l, k⟩ => ⟨g, Nat.le_trans l hb, k⟩)

theorem Flow.Safe.bind {α β : Type} {V : α → Prop} {W : β → Prop} {b b' : Nat} {r : Option Nat} {s : State}
    {x : Flow α} {f : α → State → Flow β} (hx : x.Safe V b r s)
    (hf : ∀ a t, t.cfg = s.cfg → V a → (f a t).Safe W b' r t) : (x.bind f).Safe W (b + b') r s := by
  refine Flow.Spec.bind hx (fun evs t ⟨g, l, k⟩ => ⟨g, by omega, k⟩) ?_
  rintro a evs t hr ⟨g, l, k, v⟩
  have hc := hr.cfg
  refine Flow.Spec.mono (hf a t hc v) ?_ ?_
  · rintro c more u - ⟨g', l', k', w⟩
    exact ⟨g.append (hc ▸ g'), by simp; omega, k.trans k', w⟩
  · rintro more u - ⟨g', l', k'⟩
    exact ⟨g.append (hc ▸ g'), by simp; omega, k.trans k'⟩

theorem Flow.Safe.onOk {b b' : Nat} {r : Option Nat} {s : State} {x : Flow Result} {f : State → Flow Result}
    (hx : x.Safe Ended b r s) (hf : ∀ t, t.cfg = s.cfg → (f t).Safe Ended b' r t) :
    (x.onOk f).Safe Ended (b + b') r s := by
  refine hx.bind ?_
  intro a t hc hv
  by_cases ha : a = .ok
  · simp only [ha, if_true]; exact hf t hc
  · simp only [ha, if_false]; exact (Flow.Safe.done hv).mono (Nat.zero_le _) fun _ => id

/-! ### The pieces -/

theorem pollEnds_ended {off us : Nat} {hit : Word → Bool} {tag : TimeoutTag} {n : Nat} {r : Result}
    {evs : List Event} (h : PollEnds off us hit tag n r evs) : Ended r := by
  obtain ⟨vs, -, ⟨h, -⟩ | ⟨h, -⟩⟩ := h
  · exact .inl h
  · exact .inr ⟨tag, h⟩

theorem pollEnds_events {off us : Nat} {hit : Word → Bool} {tag : TimeoutTag} {n : Nat} {r : Result}
    {evs : List Event} (h : PollEnds off us hit tag n r evs) :
    PollEvents off us evs ∧ evs.length ≤ 2 * n - 1 := by
  obtain ⟨vs, rfl, h⟩ := h
  have hl : vs.length ≤ n := by
    rcases h with ⟨-, ms, v, rfl, hl, -⟩ | ⟨-, hl, -⟩
    · simpa using hl
    · exact hl.le
  exact ⟨pollTrace_events _ _ _, by rw [pollTrace_length]; omega⟩

theorem poll_safe {off : Nat} {hit : Word → Bool} {tag : TimeoutTag} {n : Nat} {r : Option Nat} {s : State}
    (ho : off = s.cfg.offCmdPktStatus ∨ off = s.cfg.offPhyStatus) :
    (poll off s.cfg.pollIntervalUs hit tag n s).Safe Ended (2 * n - 1) r s :=
  Flow.Spec.mono (poll_spec off _ hit tag n s)
    (fun _ _ _ _ ⟨he, hk⟩ => ⟨good_poll ho (pollEnds_events he).1, (pollEnds_events he).2, Kept.of_eq hk,
      pollEnds_ended he⟩)
    (fun _ _ _ ⟨he, hl, hk⟩ => ⟨good_poll ho he, hl, Kept.of_eq hk⟩)

theorem waitFor_safe (w : WaitName) (r : Option Nat) (s : State) :
    (waitFor w s).Safe Ended (2 * s.cfg.retryMax - 1) r s := poll_safe (.inl rfl)

/-- How a wait ends, the event that follows it being good after a hit. -/
theorem waitFor_spec (w : WaitName) (s : State) :
    (waitFor w s).Spec s
      (fun r evs t => PollEnds s.cfg.offCmdPktStatus s.cfg.pollIntervalUs (waitHit s.cfg w) (waitTag w)
        s.cfg.retryMax r evs ∧ t.response = s.response)
      (fun evs t => PollEvents s.cfg.offCmdPktStatus s.cfg.pollIntervalUs evs ∧
        evs.length ≤ 2 * s.cfg.retryMax - 1 ∧ t.response = s.response) :=
  poll_spec _ _ _ _ _ s

/-- A named wait and then one access it gates. -/
theorem gated_spec {w : WaitName} {s : State} {f : State → Flow Result} {access : Event → State → State → Prop}
    (hf : ∀ t : State, t.cfg = s.cfg → (f t).Spec t
      (fun r evs u => r = .ok ∧ ∃ e, evs = [e] ∧ access e t u)
      (fun evs u => evs = [] ∧ u.response = t.response)) :
    ((waitFor w s).onOk f).Spec s
      (fun r evs t => (r = .ok ∧ ∃ ms v e u, evs = statusPoll s.cfg (ms ++ [v]) ++ [e] ∧
          ms.length + 1 ≤ s.cfg.retryMax ∧ waitHit s.cfg w v = true ∧ u.response = s.response ∧
          u.cfg = s.cfg ∧ u.txChanged = s.txChanged ∧ u.rxTouched = s.rxTouched ∧ access e u t) ∨
        (r = .timeout (waitTag w) ∧ t.response = s.response ∧
          ∃ vs, evs = statusPoll s.cfg vs ∧ vs.length = s.cfg.retryMax))
      (fun evs t => PollEvents s.cfg.offCmdPktStatus s.cfg.pollIntervalUs evs ∧
        evs.length ≤ 2 * s.cfg.retryMax - 1 ∧ t.response = s.response) := by
  refine (waitFor_spec w s).onOk (fun _ _ h => h) ?_ ?_
  · rintro r evs t hne ⟨⟨vs, rfl, h⟩, hk⟩
    rcases h with ⟨rfl, -⟩ | ⟨rfl, hl, -⟩
    · exact absurd rfl hne
    · exact .inr ⟨rfl, hk, vs, rfl, hl⟩
  · rintro evs t hr ⟨⟨vs, rfl, h⟩, hk⟩
    rcases h with ⟨-, ms, v, rfl, hl, -, hv⟩ | ⟨h, -⟩
    · refine (hf t hr.cfg).mono ?_ ?_
      · rintro r more u - ⟨rfl, e, rfl, ha⟩
        exact .inl ⟨rfl, ms, v, e, t, rfl, hl, hv, hk, hr.cfg, hr.txChanged, hr.rxTouched, ha⟩
      · rintro more u - ⟨rfl, h⟩
        refine ⟨?_, ?_, h.trans hk⟩
        · simpa using pollTrace_events _ _ _
        · simp only [List.append_nil, pollTrace_length, List.length_append, List.length_singleton]; omega
    · cases h

/-- Such an access is good where the gate is the one it needs. -/
theorem gated_safe {w : WaitName} {s : State} {f : State → Flow Result} {access : Event → State → State → Prop}
    {r : Option Nat}
    (hf : ∀ t : State, t.cfg = s.cfg → (f t).Spec t
      (fun r evs u => r = .ok ∧ ∃ e, evs = [e] ∧ access e t u)
      (fun evs u => evs = [] ∧ u.response = t.response))
    (ha : ∀ e t u, t.cfg = s.cfg → access e t u → Kept r t u ∧ eventLegal s.cfg e ∧
      ∀ v, waitHit s.cfg w v = true → gateKept s.cfg (some (.rd s.cfg.offCmdPktStatus v)) e = true) :
    ((waitFor w s).onOk f).Safe Ended (2 * s.cfg.retryMax) r s := by
  refine Flow.Spec.mono (gated_spec hf) ?_ ?_
  · rintro a evs t - (⟨rfl, ms, v, e, u, rfl, hl, hv, hk, hc, -, -, h⟩ | ⟨rfl, hk, vs, rfl, hl⟩)
    · obtain ⟨h1, h2, h3⟩ := ha e u t hc h
      refine ⟨good_access h2 (h3 v hv), ?_, (Kept.of_eq hk).trans h1, .inl rfl⟩
      simp only [statusPoll, List.length_append, pollTrace_length, List.length_cons, List.length_nil]
      omega
    · refine ⟨good_poll (.inl rfl) (pollTrace_events _ _ _), ?_, Kept.of_eq hk, .inr ⟨_, rfl⟩⟩
      rw [statusPoll, pollTrace_length]; omega
  · rintro evs t - ⟨hp, hl, hk⟩
    exact ⟨good_poll (.inl rfl) hp, by omega, Kept.of_eq hk⟩

/-! ### Gated writes -/

theorem hdrAccess_spec (h : Word) (t : State) :
    ((regWrite t.cfg.offGenHdr h t).bind fun _ s => .done Result.ok s).Spec t
      (fun r evs u => r = .ok ∧ ∃ e, evs = [e] ∧ e = .wr t.cfg.offGenHdr h ∧ u.response = t.response)
      (fun evs u => evs = [] ∧ u.response = t.response) :=
  (regWrite_spec _ h t).bind (fun _ _ h => h) fun _ _ u _ ⟨hE, hk⟩ =>
    Flow.Spec.done ⟨rfl, _, by simp [hE], rfl, hk⟩

theorem hdrWrite_spec (h : Word) (s : State) :
    (hdrWrite h s).Spec s
      (fun r evs t => t.response = s.response ∧
        ((r = .ok ∧ ∃ ms v, evs = statusPoll s.cfg (ms ++ [v]) ++ [.wr s.cfg.offGenHdr h] ∧
          waitHit s.cfg .cmdNotFull v = true) ∨
        (r = .timeout .cmdFifo ∧ ∃ vs, evs = statusPoll s.cfg vs)))
      (fun evs _ => PollEvents s.cfg.offCmdPktStatus s.cfg.pollIntervalUs evs) := by
  refine (gated_spec (w := .cmdNotFull) (s := s)
    (access := fun e t u => e = .wr t.cfg.offGenHdr h ∧ u.response = t.response)
    fun t _ => hdrAccess_spec h t).mono ?_ ?_
  · rintro r evs t - (⟨rfl, ms, v, e, u, rfl, -, hv, hk, hc, -, -, rfl, h2⟩ | ⟨rfl, hk, vs, rfl, -⟩)
    · exact ⟨h2.trans hk, .inl ⟨rfl, ms, v, by rw [hc], hv⟩⟩
    · exact ⟨hk, .inr ⟨rfl, vs, rfl⟩⟩
  · rintro evs t - ⟨h, -⟩; exact h

theorem hdrWrite_safe (h : Word) (r : Option Nat) (s : State) :
    (hdrWrite h s).Safe Ended (2 * s.cfg.retryMax) r s := by
  refine gated_safe (w := .cmdNotFull)
    (access := fun e t u => e = .wr t.cfg.offGenHdr h ∧ u.response = t.response)
    (fun t _ => hdrAccess_spec h t) ?_
  rintro e t u hc ⟨rfl, hk⟩
  refine ⟨Kept.of_eq hk, by rw [hc]; exact .inl rfl, fun v hv => ?_⟩
  simp [gateKept, endedWait, hc, hv]

/-- A word from the host's buffer costs a draw at most (R61). -/
def WordSource (word : State → Word × State) : Prop :=
  ∀ s, ∃ k, (word s).2 = { s with draws := k }

theorem payloadWord_source (p : PayloadArg) (i : Nat) : WordSource (payloadWord p i) := by
  intro s
  unfold payloadWord
  split
  · exact ⟨_, rfl⟩
  · exact ⟨s.draws, rfl⟩

theorem pldAccess_spec {word : State → Word × State} (hw : WordSource word) (t : State) :
    ((regWrite t.cfg.offGenPldData (word t).1 (word t).2).bind fun _ s => .done Result.ok s).Spec t
      (fun r evs u => r = .ok ∧ ∃ e, evs = [e] ∧ e = .wr t.cfg.offGenPldData (word t).1 ∧
        u.response = t.response)
      (fun evs u => evs = [] ∧ u.response = t.response) := by
  obtain ⟨k, hk⟩ := hw t
  rw [hk]
  unfold regWrite
  rcases completes_cases { t with draws := k } with ⟨h, h0⟩ | ⟨n, h, hn⟩
  · rw [h]
    refine ⟨[], ?_, h0, rfl, rfl⟩
    constructor <;> first | rfl | exact id | simp
  · rw [h]
    refine ⟨_, ?_, rfl, _, rfl, rfl, rfl⟩
    constructor <;> first | rfl | exact hn

theorem pldWrite_spec {word : State → Word × State} (hw : WordSource word) (s : State) :
    (pldWrite word s).Spec s
      (fun r evs t => t.response = s.response ∧
        ((r = .ok ∧ ∃ ms v u, evs = statusPoll s.cfg (ms ++ [v]) ++ [.wr s.cfg.offGenPldData (word u).1] ∧
          u.txChanged = s.txChanged ∧ u.cfg = s.cfg ∧ waitHit s.cfg .pldWNotFull v = true) ∨
        (r = .timeout .pldFifoWrite ∧ ∃ vs, evs = statusPoll s.cfg vs)))
      (fun evs _ => PollEvents s.cfg.offCmdPktStatus s.cfg.pollIntervalUs evs) := by
  refine (gated_spec (w := .pldWNotFull) (s := s)
    (access := fun e t u => e = .wr t.cfg.offGenPldData (word t).1 ∧ u.response = t.response)
    fun t _ => pldAccess_spec hw t).mono ?_ ?_
  · rintro r evs t - (⟨rfl, ms, v, e, u, rfl, -, hv, hk, hc, htx, -, rfl, h2⟩ | ⟨rfl, hk, vs, rfl, -⟩)
    · exact ⟨h2.trans hk, .inl ⟨rfl, ms, v, u, by rw [hc], htx, hc, hv⟩⟩
    · exact ⟨hk, .inr ⟨rfl, vs, rfl⟩⟩
  · rintro evs t - ⟨h, -⟩; exact h

theorem pldWrite_safe {word : State → Word × State} (hw : WordSource word) (r : Option Nat) (s : State) :
    (pldWrite word s).Safe Ended (2 * s.cfg.retryMax) r s := by
  refine gated_safe (w := .pldWNotFull)
    (access := fun e t u => e = .wr t.cfg.offGenPldData (word t).1 ∧ u.response = t.response)
    (fun t _ => pldAccess_spec hw t) ?_
  rintro e t u hc ⟨rfl, hk⟩
  refine ⟨Kept.of_eq hk, by rw [hc]; exact .inr (.inl rfl), fun v hv => ?_⟩
  have := (cfg_apart s.cfg).2.2.1
  simp [gateKept, endedWait, hc, hv, this.symm]

theorem writePayload_safe (p : PayloadArg) (r : Option Nat) : ∀ (n i : Nat) (s : State),
    (writePayload p n i s).Safe Ended (2 * s.cfg.retryMax * n) r s
  | 0, _, s => (Flow.Safe.done (.inl rfl)).mono (Nat.zero_le _) fun _ => id
  | n + 1, i, s => by
    have h := (pldWrite_safe (payloadWord_source p i) r s).onOk
      (f := writePayload p n (i + 1)) (b' := 2 * s.cfg.retryMax * n)
      fun t hc => hc ▸ writePayload_safe p r n (i + 1) t
    exact h.mono (by rw [Nat.mul_succ]; omega) fun _ => id

/-! ### Inline bytes -/

/-- A piece that only draws: the state it leaves differs in the counter. -/
theorem inlineByte_draws (p : PayloadArg) (k : Nat) (s : State) : ∃ n, (inlineByte p k s).2 = { s with draws := n } := by
  unfold inlineByte
  split
  · exact ⟨s.draws, rfl⟩
  · split
    · exact ⟨_, rfl⟩
    · exact ⟨s.draws, rfl⟩

theorem inlineHdr_draws (d : Descriptor) (s : State) : ∃ n, (inlineHdr d s).2 = { s with draws := n } := by
  obtain ⟨n, hn⟩ := inlineByte_draws d.payload 0 s
  obtain ⟨m, hm⟩ := inlineByte_draws d.payload 1 (inlineByte d.payload 0 s).2
  refine ⟨m, ?_⟩
  show (inlineByte d.payload 1 (inlineByte d.payload 0 s).2).2 = _
  rw [hm, hn]

/-- Drawing before a piece changes nothing the facts about the piece speak of. -/
theorem Flow.Spec.draws {α : Type} {s : State} {x : Flow α} {n : Nat} {P : α → List Event → State → Prop}
    {Q : List Event → State → Prop} (h : x.Spec { s with draws := n } P Q) : x.Spec s P Q := by
  have hr : ∀ {t evs}, Ran { s with draws := n } t evs → Ran s t evs := fun h =>
    ⟨h.cfg, h.initialized, h.busy, h.fault, h.refused, h.result, h.port, h.txChanged, h.rxTouched, h.trace,
      h.live⟩
  cases x with
  | done a t => obtain ⟨evs, hr', hp⟩ := h; exact ⟨evs, hr hr', hp⟩
  | stuck t => obtain ⟨evs, hr', hs, hq⟩ := h; exact ⟨evs, hr hr', hs, hq⟩

theorem Flow.Safe.draws {α : Type} {V : α → Prop} {b : Nat} {r : Option Nat} {s : State} {x : Flow α} {n : Nat}
    (h : x.Safe V b r { s with draws := n }) : x.Safe V b r s := by
  cases r <;> exact Flow.Spec.draws h

theorem gswBody_safe (d : Descriptor) (r : Option Nat) (s : State) :
    (gswBody d s).Safe Ended (2 * s.cfg.retryMax) r s := by
  obtain ⟨n, hn⟩ := inlineHdr_draws d s
  rw [gswBody, hn]
  exact (hdrWrite_safe _ r { s with draws := n }).draws

theorem dswBody_safe (d : Descriptor) (r : Option Nat) (s : State) :
    (dswBody d s).Safe Ended (2 * s.cfg.retryMax) r s := by
  obtain ⟨n, hn⟩ := inlineByte_draws d.payload 0 s
  simp only [dswBody]
  rw [hn]
  exact (hdrWrite_safe _ r { s with draws := n }).draws

theorem lwBody_safe (d : Descriptor) (r : Option Nat) (s : State) :
    (lwBody d s).Safe Ended (2 * s.cfg.retryMax * (wordCount d.payload.len + 1)) r s := by
  refine ((writePayload_safe d.payload r _ 0 s).onOk (b' := 2 * s.cfg.retryMax) fun t hc => ?_).mono
    (by rw [Nat.mul_succ]) fun _ => id
  exact hc ▸ hdrWrite_safe _ r t

/-! ### Bus turn-around -/

/-- One read, then one write back. -/
theorem readModifyWrite_spec (off : Nat) (f : Word → Word) (s : State) :
    (readModifyWrite off f s).Spec s
      (fun _ evs t => ∃ v, evs = [.rd off v, .wr off (f v)] ∧ t.response = s.response)
      (fun evs t => (evs = [] ∨ ∃ v, evs = [.rd off v]) ∧ t.response = s.response) := by
  refine (regRead_spec off s).bind ?_ ?_
  · rintro evs t ⟨rfl, h⟩; exact ⟨.inl rfl, h⟩
  · rintro v evs t - ⟨rfl, h⟩
    refine (regWrite_spec off (f v) t).mono ?_ ?_
    · rintro _ more u - ⟨rfl, h'⟩; exact ⟨v, rfl, h'.trans h⟩
    · rintro more u - ⟨rfl, h'⟩; exact ⟨.inr ⟨v, rfl⟩, h'.trans h⟩

theorem setBta_spec (b : Bool) (s : State) :
    (setBta b s).Spec s
      (fun _ evs t => ∃ a c, evs = btaTrace s.cfg a (withAckRqstEn s.cfg b a) c (withBtaEn s.cfg b c) ∧
        t.response = s.response)
      (fun evs t => Good s.cfg evs ∧ evs.length ≤ 4 ∧ t.response = s.response) := by
  refine (readModifyWrite_spec _ _ s).bind ?_ ?_
  · rintro evs t ⟨rfl | ⟨v, rfl⟩, h⟩
    · exact ⟨good_nil _, by simp, h⟩
    · exact ⟨(good_bta_prefix s.cfg v 0 0).1, by simp, h⟩
  · rintro _ evs t hr ⟨a, rfl, h⟩
    have hc := hr.cfg
    refine (readModifyWrite_spec _ _ t).mono ?_ ?_
    · rintro _ more u - ⟨c, rfl, h'⟩
      refine ⟨a, c, ?_, h'.trans h⟩
      rw [hc]; rfl
    · rintro more u - ⟨rfl | ⟨c, rfl⟩, h'⟩
      · exact ⟨by simpa using (good_bta_prefix s.cfg a _ 0).2.1, by simp, h'.trans h⟩
      · refine ⟨?_, by simp, h'.trans h⟩
        rw [hc]
        exact (good_bta_prefix s.cfg a _ 0).2.1.append (good_bta_prefix s.cfg a 0 c).2.2.1

theorem setBta_safe (b : Bool) (r : Option Nat) (s : State) :
    (setBta b s).Safe (fun _ => True) 4 r s := by
  refine Flow.Spec.mono (setBta_spec b s) ?_ ?_
  · rintro _ evs t - ⟨a, c, rfl, h⟩
    exact ⟨good_bta _ _ _ _ _, by simp [btaTrace], Kept.of_eq h, trivial⟩
  · rintro evs t - ⟨hg, hl, h⟩
    exact ⟨hg, hl, Kept.of_eq h⟩

theorem setBtaOk_safe (b : Bool) (r : Option Nat) (s : State) :
    ((setBta b s).bind fun _ s => .done Result.ok s).Safe Ended 4 r s :=
  (setBta_safe b r s).bind (b' := 0) fun _ _ _ _ => Flow.Safe.done (.inl rfl)

theorem waitForAck_safe (r : Option Nat) (s : State) :
    (waitForAck s).Safe Ended (4 * s.cfg.retryMax - 2) r s := by
  refine ((poll_safe (.inr rfl)).onOk (b' := 2 * s.cfg.retryMax - 1) fun t hc => ?_).mono
    (by have := cfg_retryMax s.cfg; omega) fun _ => id
  exact hc ▸ poll_safe (.inr rfl)

/-! ### The read path -/

theorem storeWord_ran (i n : Nat) (w : Word) (s : State) : Ran s (storeWord i n w s) [] := by
  unfold storeWord
  split <;> constructor <;> first | rfl | exact id | simp

theorem storeWord_kept {i n r : Nat} (w : Word) (s : State) (h : 4 * i + n ≤ r) :
    Kept (some r) s (storeWord i n w s) := by
  refine ⟨storeWord_wf i n w, ?_⟩
  intro k hk hn
  unfold storeWord
  split <;> (show (writeWordBytes _ _ _ _).read k = none; rw [read_writeWordBytes, if_neg (by omega)]; exact hn)

/-- One gated response word: its wait, its read, its bytes stored (R191). -/
def pldRead (i n : Nat) (s : State) : Flow Result :=
  (waitFor .pldRNotEmpty s).onOk fun s =>
    (regRead s.cfg.offGenPldData s).bind fun w s => .done .ok (storeWord i n w s)

theorem readWords_succ (r n i : Nat) (s : State) :
    readWords r (n + 1) i s = (pldRead i (min 4 (r - 4 * i)) s).onOk (readWords r n (i + 1)) := by
  rw [readWords, pldRead]
  cases h : waitFor .pldRNotEmpty s with
  | stuck t => rfl
  | done a t =>
    by_cases ha : a = .ok
    · subst ha
      simp only [flow_ok_onOk]
      cases regRead t.cfg.offGenPldData t with
      | stuck u => rfl
      | done w u => rfl
    · rw [flow_err_onOk ha, flow_err_onOk ha, flow_err_onOk ha]

theorem pldRead_access (i n : Nat) (t : State) :
    ((regRead t.cfg.offGenPldData t).bind fun w s => .done Result.ok (storeWord i n w s)).Spec t
      (fun r evs u => r = .ok ∧ ∃ e, evs = [e] ∧ ∃ w v, e = .rd t.cfg.offGenPldData w ∧
        u = storeWord i n w v ∧ v.response = t.response ∧ v.rxTouched = t.rxTouched)
      (fun evs u => evs = [] ∧ u.response = t.response) := by
  refine (regRead_spec _ t).bind (fun _ _ h => h) ?_
  rintro w evs v hr ⟨rfl, hk⟩
  exact ⟨[], storeWord_ran i n w v, rfl, _, rfl, w, v, rfl, rfl, hk, hr.rxTouched⟩

theorem pldRead_safe {i n r : Nat} (h : 4 * i + n ≤ r) (s : State) :
    (pldRead i n s).Safe Ended (2 * s.cfg.retryMax) (some r) s := by
  refine gated_safe (w := .pldRNotEmpty) (access := fun e t u => ∃ w v, e = .rd t.cfg.offGenPldData w ∧
    u = storeWord i n w v ∧ v.response = t.response ∧ v.rxTouched = t.rxTouched)
    (fun t _ => pldRead_access i n t) ?_
  rintro e t u hc ⟨w, v, rfl, rfl, hk, -⟩
  refine ⟨(Kept.of_eq hk).trans (storeWord_kept w v h), by rw [hc]; exact .inr (.inr (.inl rfl)), fun x hx => ?_⟩
  simp [gateKept, endedWait, hc, hx]

theorem readWords_safe (r : Nat) : ∀ (n i : Nat) (s : State), 4 * (i + n) < r + 4 →
    (readWords r n i s).Safe Ended (2 * s.cfg.retryMax * n) (some r) s
  | 0, _, s, _ => (Flow.Safe.done (.inl rfl)).mono (Nat.zero_le _) fun _ => id
  | n + 1, i, s, h => by
    rw [readWords_succ]
    refine ((pldRead_safe (by omega) s).onOk (b' := 2 * s.cfg.retryMax * n) fun t hc => ?_).mono
      (by rw [Nat.mul_succ]; omega) fun _ => id
    exact hc ▸ readWords_safe r n (i + 1) t (by omega)

theorem maxSizeHdr_safe (d : Descriptor) (r : Option Nat) (s : State) :
    (maxSizeHdr d s).Safe Ended (2 * s.cfg.retryMax) r s := by
  unfold maxSizeHdr
  split
  · exact hdrWrite_safe _ r s
  · exact (Flow.Safe.done (.inl rfl)).mono (Nat.zero_le _) fun _ => id

theorem readRequest_safe (d : Descriptor) (r : Option Nat) (s : State) :
    (readRequest d s).Safe Ended (2 * s.cfg.retryMax + 4) r s := by
  obtain ⟨n, hn⟩ := inlineHdr_draws d s
  simp only [readRequest]
  rw [hn]
  refine Flow.Safe.draws (n := n) ?_
  split
  · refine ((setBta_safe true r _).bind (b' := 2 * s.cfg.retryMax) fun _ t hc _ => ?_).mono
      (by omega) fun _ => id
    have : t.cfg = s.cfg := hc
    exact this ▸ hdrWrite_safe _ r t
  · exact (hdrWrite_safe _ r _).onOk fun t _ => setBtaOk_safe true r t

theorem grdSeq_safe (d : Descriptor) (s : State) :
    (grdSeq d s).Safe Ended (2 * s.cfg.retryMax + ((2 * s.cfg.retryMax + 4) +
      ((4 * s.cfg.retryMax - 2) + 2 * s.cfg.retryMax * wordCount d.response.len)))
      (some d.response.len) s := by
  refine (maxSizeHdr_safe d _ s).onOk fun t hc => ?_
  rw [← hc]
  refine (readRequest_safe d _ t).onOk fun u hu => ?_
  rw [← hu]
  refine (waitForAck_safe _ u).onOk fun v hv => ?_
  rw [← hv]
  exact readWords_safe _ _ 0 v (by unfold wordCount; omega)

theorem grdBody_safe (d : Descriptor) (s : State) :
    (grdBody d s).Safe Ended (2 * s.cfg.retryMax + 2 * s.cfg.retryMax + 4 + (4 * s.cfg.retryMax - 2) +
      2 * s.cfg.retryMax * wordCount d.response.len + 4) (some d.response.len) s := by
  refine ((grdSeq_safe d s).bind (b' := 4) fun a t _ hv => ?_).mono (by omega) fun _ => id
  exact (setBta_safe false _ t).bind (b' := 0) fun _ _ _ _ => Flow.Safe.done hv

end Sys2Proof.Machine
end

