-- ==== Sys2Proof/Laws/Whole.lean ====
section
/-! SUPPORT. What a whole operation can do to the state, from its shared course and what its body can do. -/

namespace Sys2Proof.Machine

open Sys2Proof

/-! ### Every body -/

/-- The most events a read operation emits (R261). -/
def readBound (c : Config) (n : Nat) : Nat :=
  2 * c.retryMax + 2 * c.retryMax + 4 + (4 * c.retryMax - 2) + 2 * c.retryMax * wordCount n + 4

/-- The most events a body emits (R261). -/
def opBound (c : Config) : Instr → Nat
  | .init => 0
  | .send tx rx _ => if 0 < rx.len then readBound c rx.len
      else if tx.len ≤ 2 then 2 * c.retryMax else 2 * c.retryMax * (wordCount tx.len + 1)
  | .gsw _ => 2 * c.retryMax
  | .dsw _ => 2 * c.retryMax
  | .lw d => 2 * c.retryMax * (wordCount d.payload.len + 1)
  | .grd d => readBound c d.response.len
  | .btaen => 4
  | .btadis => 4
  | .btawait => 4 * c.retryMax - 2
  | .reservedOp _ => 0
  | .wait _ | .waitPldWNotFull | .waitPldWEmpty | .waitPldRFull | .waitPldRNotEmpty | .waitCmdNotFull
  | .waitCmdEmpty => 2 * c.retryMax - 1
  | _ => 2 * c.retryMax

/-- How far a body may write the response buffer. -/
def opKept (i : Instr) : Option Nat := (opLent i).map List.length

theorem response_length {r : ResponseArg} {b : List Nat} (h : r.wf = true) (hb : r.buffer = some b) :
    b.length = r.len := by
  simp only [ResponseArg.wf, hb, Bool.and_eq_true, decide_eq_true_eq] at h
  exact h.2.1

/-- What the dispatcher plans, by the lengths and the path. -/
theorem sendPlan_cases {c : Config} {tx : PayloadArg} {rx : ResponseArg} {dcs : Bool} {path : Path}
    {d : Descriptor} (h : sendPlan c tx rx dcs = some (path, d)) :
    d.payload = tx ∧ d.response = rx ∧
    ((path = .read ∧ 0 < rx.len) ∨ (path = .lw ∧ rx.len = 0 ∧ 2 < tx.len) ∨
      ((path = .gsw ∨ path = .dsw) ∧ rx.len = 0 ∧ tx.len ≤ 2)) := by
  unfold sendPlan at h
  split at h
  · cases h
  · rename_i p dt hp
    simp only [Option.some.injEq, Prod.mk.injEq] at h
    obtain ⟨rfl, rfl⟩ := h
    refine ⟨rfl, rfl, ?_⟩
    by_cases hr : 0 < rx.len
    · simp only [hr, decide_true] at hp
      match htx : tx.len with
      | 0 => rw [htx] at hp; cases dcs <;> simp [classify, rowPath] at hp <;> simp [hp.1.symm, hr]
      | 1 => rw [htx] at hp; cases dcs <;> simp [classify, rowPath] at hp <;> simp [hp.1.symm, hr]
      | 2 => rw [htx] at hp; cases dcs <;> simp [classify, rowPath] at hp <;> simp [hp.1.symm, hr]
      | n + 3 => rw [htx] at hp; simp [classify, rowPath] at hp
    · have hz : rx.len = 0 := by omega
      simp only [hr, decide_false] at hp
      match htx : tx.len with
      | 0 => rw [htx] at hp; cases dcs <;> simp [classify, rowPath] at hp <;> simp [hp.1.symm, hz]
      | 1 => rw [htx] at hp; cases dcs <;> simp [classify, rowPath] at hp <;> simp [hp.1.symm, hz]
      | 2 => rw [htx] at hp; cases dcs <;> simp [classify, rowPath] at hp <;> simp [hp.1.symm, hz]
      | n + 3 => rw [htx] at hp; cases dcs <;> simp [classify, rowPath] at hp <;> simp [hp.1.symm, hz]

theorem sendBody_safe {tx : PayloadArg} {rx : ResponseArg} {dcs : Bool} {s : State} (hw : rx.wf = true)
    (hv : sendVerdict s.cfg tx rx dcs = .run) :
    (sendBody tx rx dcs s).Safe Ended (opBound s.cfg (.send tx rx dcs)) (rx.buffer.map List.length) s := by
  unfold sendVerdict at hv
  unfold sendBody
  split at hv
  · cases hv
  rename_i hn
  cases hp : sendPlan s.cfg tx rx dcs with
  | none => rw [hp] at hv; cases hv
  | some pd =>
    obtain ⟨path, d⟩ := pd
    obtain ⟨rfl, rfl, h⟩ := sendPlan_cases hp
    rcases h with ⟨rfl, hr⟩ | ⟨rfl, hr, ht⟩ | ⟨h, hr, ht⟩
    · have hb : ∃ b, d.response.buffer = some b := by
        cases hb : d.response.buffer with
        | some b => exact ⟨b, rfl⟩
        | none => simp [sendNull, ResponseArg.present, hb, hr] at hn
      obtain ⟨b, hb⟩ := hb
      rw [hb, Option.map_some, response_length hw hb]
      exact (grdBody_safe d s).mono (by simp only [opBound, hr, if_true, readBound]; omega) fun _ => id
    · refine (lwBody_safe d _ s).mono ?_ fun _ => id
      simp only [opBound, hr, Nat.lt_irrefl, if_false]
      rw [if_neg (by omega)]
    · have hb : 2 * s.cfg.retryMax ≤ opBound s.cfg (.send d.payload d.response dcs) := by
        simp only [opBound, hr, Nat.lt_irrefl, if_false, ht, if_true]; omega
      rcases h with rfl | rfl
      · exact (gswBody_safe d _ s).mono hb fun _ => id
      · exact (dswBody_safe d _ s).mono hb fun _ => id

/-- Every body that runs. -/
theorem opBody_safe {i : Instr} {s : State} (hw : i.wf = true) (hv : opVerdict s.cfg i = .run) :
    (opBody s.cfg i s).Safe Ended (opBound s.cfg i) (opKept i) s := by
  cases i with
  | init => exact Flow.Safe.done (.inl rfl)
  | reservedOp k => cases hw
  | send tx rx dcs =>
    simp only [Instr.wf, Bool.and_eq_true] at hw
    exact sendBody_safe hw.2 hv
  | gsw d => exact gswBody_safe d _ s
  | dsw d => exact dswBody_safe d _ s
  | lw d => exact lwBody_safe d _ s
  | grd d =>
    simp only [opVerdict, grdVerdict] at hv
    split at hv
    · rename_i hg
      simp only [Instr.wf, Descriptor.wf, Bool.and_eq_true] at hw
      cases hb : d.response.buffer with
      | none => simp [grdValid, ResponseArg.present, hb] at hg
      | some b =>
        have hk : opKept (.grd d) = some d.response.len := by
          simp only [opKept, opLent, hb, Option.map_some, response_length hw.2 hb]
        rw [hk]
        exact grdBody_safe d s
    · cases hv
  | wait sel => exact waitFor_safe _ _ s
  | btaen => exact setBtaOk_safe true _ s
  | btadis => exact setBtaOk_safe false _ s
  | btawait => exact waitForAck_safe _ s
  | waitPldWNotFull => exact waitFor_safe _ _ s
  | waitPldWEmpty => exact waitFor_safe _ _ s
  | waitPldRFull => exact waitFor_safe _ _ s
  | waitPldRNotEmpty => exact waitFor_safe _ _ s
  | waitCmdNotFull => exact waitFor_safe _ _ s
  | waitCmdEmpty => exact waitFor_safe _ _ s
  | pldWord b0 b1 b2 b3 => exact pldWrite_safe (fun s => ⟨s.draws, rfl⟩) _ s
  | _ => exact hdrWrite_safe _ _ s

/-! ### Every operation -/

/-- The ways a well-formed operation other than `INIT` ends on a ready block, in terms of the body's facts. -/
inductive Ends (i : Instr) (s t : State) (evs : List Event) : Prop where
  | done (u : State) (r : Result) (h : Ran (start (opLent i) s) u evs) (hr : Ended r)
      (k : Kept (opKept i) (start (opLent i) s) u) (e : t = reply (opLent i) r u)
  | hung (h : Ran (start (opLent i) s) t evs) (hs : t.stallAfter = some 0)
      (k : Kept (opKept i) (start (opLent i) s) t)

theorem start_cfg (lent : Option (List Nat)) (s : State) : (start lent s).cfg = s.cfg := by cases lent <;> rfl

theorem run_ends {i : Instr} {s : State} (hw : i.wf = true) (hv : opVerdict s.cfg i = .run) :
    ∃ evs, Good s.cfg evs ∧ evs.length ≤ opBound s.cfg i ∧
      Ends i s (finish (opLent i) (opBody s.cfg i (start (opLent i) s))) evs := by
  have h := opBody_safe (s := start (opLent i) s) hw (by rw [start_cfg]; exact hv)
  rw [start_cfg] at h
  revert h
  cases opBody s.cfg i (start (opLent i) s) with
  | done r u =>
    rintro ⟨evs, hr, hg, hl, hk, he⟩
    exact ⟨evs, start_cfg (opLent i) s ▸ hg, hl, .done u r hr he hk rfl⟩
  | stuck u =>
    rintro ⟨evs, hr, hs, hg, hl, hk⟩
    exact ⟨evs, start_cfg (opLent i) s ▸ hg, hl, .hung hr hs hk⟩

/-! ### Starting and replying, field by field -/

theorem start_fields (lent : Option (List Nat)) (s : State) :
    (start lent s).trace = s.trace ∧ (start lent s).cfg = s.cfg ∧ (start lent s).port = s.port ∧
    (start lent s).txChanged = s.txChanged ∧ (start lent s).rxTouched = s.rxTouched ∧
    (start lent s).initialized = s.initialized ∧ (start lent s).refused = s.refused ∧
    (start lent s).fault = s.fault ∧ (start lent s).busy = true ∧
    (start lent s).stallAfter = s.stallAfter ∧ (start lent s).result = none := by
  cases lent <;> simp

theorem reply_fields (lent : Option (List Nat)) (r : Result) (s : State) :
    (reply lent r s).trace = s.trace ∧ (reply lent r s).cfg = s.cfg ∧ (reply lent r s).port = s.port ∧
    (reply lent r s).txChanged = s.txChanged ∧ (reply lent r s).rxTouched = s.rxTouched ∧
    (reply lent r s).initialized = s.initialized ∧ (reply lent r s).refused = s.refused ∧
    (reply lent r s).fault = s.fault ∧ (reply lent r s).busy = false ∧
    (reply lent r s).stallAfter = s.stallAfter ∧ (reply lent r s).result = some r := by
  unfold reply
  split
  · simp [*]
  · split <;> simp [*]

theorem reply_result (lent : Option (List Nat)) (r : Result) (s : State) :
    (reply lent r s).result = some r := (reply_fields lent r s).2.2.2.2.2.2.2.2.2.2

theorem start_result (lent : Option (List Nat)) (s : State) : (start lent s).result = none :=
  (start_fields lent s).2.2.2.2.2.2.2.2.2.2

/-- A reply keeps the buffer, or fills it to its length and no further (R41). -/
theorem reply_response (b : List Nat) (r : Result) (s : State) :
    (reply (some b) r s).response = s.response ∨
      ∀ k, b.length ≤ k → (reply (some b) r s).response.read k = none := by
  by_cases h : r = .ok
  · left; subst h; simp
  · right
    intro k hk
    rw [reply_err h]
    show (Memory.ofBytes 0 _).read k = none
    rw [read_ofBytes]
    simp [freeBytes, hk]

/-- The only fault a check raises is the depth fault (R228). -/
theorem verdict_fault {c : Config} {i : Instr} {f : Fault} (h : opVerdict c i = .fault f) :
    f = .payloadExceedsFifoDepth := by
  have hlw : ∀ d, lwVerdict c d = .fault f → f = .payloadExceedsFifoDepth := by
    intro d h
    unfold lwVerdict at h
    split at h
    · cases h
    · split at h
      · cases h; rfl
      · cases h
  have hgsw : ∀ d, gswVerdict c d ≠ .fault f := by intro d h; unfold gswVerdict at h; split at h <;> cases h
  have hdsw : ∀ d, dswVerdict c d ≠ .fault f := by intro d h; unfold dswVerdict at h; split at h <;> cases h
  have hgrd : ∀ d, grdVerdict d ≠ .fault f := by intro d h; unfold grdVerdict at h; split at h <;> cases h
  cases i with
  | gsw d => exact absurd h (hgsw d)
  | dsw d => exact absurd h (hdsw d)
  | grd d => exact absurd h (hgrd d)
  | lw d => exact hlw d h
  | send tx rx dcs =>
    simp only [opVerdict, sendVerdict] at h
    split at h
    · cases h
    · split at h
      · cases h
      · rename_i path d _
        cases path with
        | gsw => exact absurd h (hgsw d)
        | dsw => exact absurd h (hdsw d)
        | read => exact absurd h (hgrd d)
        | lw => exact hlw d h
  | _ => cases h

/-! ### Everything an operation can do -/

/-- What an instruction that answers the next state `t` did to `s`, `evs` being the events it emitted. -/
structure Did (i : Instr) (s t : State) (evs : List Event) : Prop where
  good : Good s.cfg evs
  length : evs.length ≤ opBound s.cfg i
  trace : t.trace = s.trace ++ evs
  cfg : t.cfg = s.cfg
  port : t.port = s.port
  txChanged : t.txChanged = s.txChanged
  rxTouched : t.rxTouched = s.rxTouched
  initialized : t.initialized = (s.initialized || (decide (i = .init) && !s.busy))
  refused : t.refused = (s.refused || !i.wf)
  wf : s.response.wf → t.response.wf
  unlent : opLent i = none → t.response = s.response
  lent : ∀ b, opLent i = some b → t.response = s.response ∨ ∀ k, b.length ≤ k → t.response.read k = none
  hangs : t.busy = true → s.busy = true ∨ t.stallAfter = some 0
  unanswered : t.busy = true → t.result = none
  stays : s.busy = true → t.stallAfter = s.stallAfter ∧ t.busy = true
  overlaps : i.wf = true → s.busy = true → t.fault = some .overlappingCommand
  faults : i.wf = false ∨ s.busy = false → t.fault = none ∨ (t.fault = some .payloadExceedsFifoDepth ∧
    opVerdict s.cfg i = .fault .payloadExceedsFifoDepth ∧ i.wf = true)
  faulted : t.fault ≠ none → t.result = none

/-- An operation that returns before any event (R223). -/
theorem did_reply {i : Instr} {s : State} (r : Result) (hf : s.fault = none) (hne : i ≠ .init)
    (hw : i.wf = true) (hb : s.busy = false) : Did i s (reply (opLent i) r s) [] := by
  obtain ⟨h1, h2, h3, h4, h5, h6, h7, h8, h9, -, -⟩ := reply_fields (opLent i) r s
  refine ⟨good_nil _, Nat.zero_le _, by simp [h1], h2, h3, h4, h5, by simp [h6, hne], by simp [h7, hw],
    fun h => reply_wf _ _ h, fun hl => by rw [hl]; simp, fun b hl => by rw [hl]; exact reply_response _ _ _,
    by simp [h9], by simp [h9], by simp [hb], by simp [hb], fun _ => .inl (h8.trans hf), by simp [h8, hf]⟩

theorem did_run {i : Instr} {s t : State} {evs : List Event} (hf : s.fault = none) (hne : i ≠ .init)
    (hw : i.wf = true) (hb : s.busy = false) (hg : Good s.cfg evs) (hl : evs.length ≤ opBound s.cfg i)
    (he : Ends i s t evs) : Did i s t evs := by
  obtain ⟨g1, g2, g3, g4, g5, g6, g7, g8, -, -, g11⟩ := start_fields (opLent i) s
  have keep : ∀ {u : State}, Kept (opKept i) (start (opLent i) s) u →
      (s.response.wf → u.response.wf) ∧ (opLent i = none → u.response = s.response) ∧
      ∀ b, opLent i = some b → ∀ k, b.length ≤ k → u.response.read k = none := by
    intro u k
    unfold opKept at k
    cases hL : opLent i with
    | none =>
      rw [hL] at k
      have k : u.response = s.response := k
      exact ⟨fun h => by rw [k]; exact h, fun _ => k, fun b h => by cases h⟩
    | some b =>
      rw [hL] at k
      refine ⟨fun _ => k.1 (ofBytes_wf _ _), fun h => (by cases h), fun b' h j hj => ?_⟩
      cases h
      exact k.2 j hj (by simp [read_ofBytes, hj])
  rcases he with ⟨u, r, hn, -, k, rfl⟩ | ⟨hn, hs, k⟩
  · obtain ⟨h1, h2, h3, h4, h5, h6, h7, h8, h9, -, -⟩ := reply_fields (opLent i) r u
    obtain ⟨kw, ku, kl⟩ := keep k
    refine ⟨hg, hl, by rw [h1, hn.trace, g1], by rw [h2, hn.cfg, g2], by rw [h3, hn.port, g3],
      by rw [h4, hn.txChanged, g4], by rw [h5, hn.rxTouched, g5],
      by rw [h6, hn.initialized, g6]; simp [hne], by rw [h7, hn.refused, g7]; simp [hw],
      fun h => reply_wf _ _ (kw h), fun hL => ?_, fun b hL => .inr fun j hj => ?_, by simp [h9], by simp [h9],
      by simp [hb], by simp [hb], fun _ => .inl (by rw [h8, hn.fault, g8, hf]),
      by rw [h8, hn.fault, g8, hf]; simp⟩
    · rw [hL]
      simp only [reply_none]
      exact ku hL
    · rw [hL]
      rcases reply_response b r u with h | h
      · rw [h]; exact kl b hL j hj
      · exact h j hj
  · obtain ⟨kw, ku, kl⟩ := keep k
    exact ⟨hg, hl, by rw [hn.trace, g1], by rw [hn.cfg, g2], by rw [hn.port, g3], by rw [hn.txChanged, g4],
      by rw [hn.rxTouched, g5], by rw [hn.initialized, g6]; simp [hne], by rw [hn.refused, g7]; simp [hw],
      kw, ku, fun b hL => .inr (kl b hL), fun _ => .inr hs, fun _ => by rw [hn.result, g11], by simp [hb],
      by simp [hb], fun _ => .inl (by rw [hn.fault, g8, hf]), by rw [hn.fault, g8, hf]; simp⟩

theorem exec_did {i : Instr} {s t : State} (h : exec i s = .next t) : s.fault = none ∧ ∃ evs, Did i s t evs := by
  obtain ⟨hf, h⟩ := exec_cases h
  refine ⟨hf, ?_⟩
  rcases h with ⟨hw, rfl⟩ | ⟨hw, hb, rfl⟩ | ⟨rfl, hb, rfl⟩ | ⟨hne, hw, hb, -, rfl⟩ | ⟨hne, hw, hr, h⟩
  · have hne : i ≠ .init := by rintro rfl; cases hw
    exact ⟨[], good_nil _, Nat.zero_le _, by simp [refuse], rfl, rfl, rfl, rfl, by simp [refuse, hne],
      by simp [refuse, hw], id, fun _ => rfl, fun _ _ => .inl rfl, .inl, fun _ => rfl, fun h => ⟨rfl, h⟩,
      by simp [hw], fun _ => .inl hf, fun _ => rfl⟩
  · exact ⟨[], good_nil _, Nat.zero_le _, by simp [raiseFault], rfl, rfl, rfl, rfl,
      by simp [raiseFault, hb], by simp [raiseFault, hw], id, fun _ => rfl, fun _ _ => .inl rfl, .inl,
      fun _ => rfl, fun h => ⟨rfl, h⟩, fun _ _ => rfl, fun h => by simp_all, fun _ => rfl⟩
  · exact ⟨[], good_nil _, Nat.zero_le _, by simp, rfl, rfl, rfl, rfl, by simp [hb], by simp [Instr.wf], id,
      fun _ => rfl, fun _ _ => .inl rfl, by simp, by simp, by simp [hb], by simp [hb], fun _ => .inl hf,
      by simp [hf]⟩
  · exact ⟨[], did_reply _ hf hne hw hb⟩
  · rcases h with ⟨-, rfl⟩ | ⟨f, hv, rfl⟩ | ⟨hv, rfl⟩
    · exact ⟨[], did_reply _ hf hne hw hr.2.1⟩
    · have hb := hr.2.1
      have hd := verdict_fault hv
      subst hd
      exact ⟨[], good_nil _, Nat.zero_le _, by simp [raiseFault], rfl, rfl, rfl, rfl,
        by simp [raiseFault, hne], by simp [raiseFault, hw], id, fun _ => rfl, fun _ _ => .inl rfl,
        by simp [raiseFault, hb], fun _ => rfl, by simp [hb], by simp [hb], fun _ => .inr ⟨rfl, hv, hw⟩,
        fun _ => rfl⟩
    · obtain ⟨evs, hg, hl, he⟩ := run_ends hw hv
      exact ⟨evs, did_run hf hne hw hr.2.1 hg hl he⟩

/-- A block without a fault mark answers every operation with a next state. -/
theorem exec_next {i : Instr} {s : State} (hf : s.fault = none) : ∃ t, exec i s = .next t := by
  by_cases hi : i = .init
  · subst hi
    simp only [exec, execInit, hf]
    split <;> exact ⟨_, rfl⟩
  · rw [exec_operation hi]
    unfold operation
    simp only [hf]
    repeat' split
    all_goals exact ⟨_, rfl⟩

/-- Every step that answers a next state did one of these. -/
theorem step_cases {s t : State} (h : step s = .next t) :
    (s.port = [] ∧ t = s) ∨
    (∃ rest, s.port = .reset :: rest ∧ t = resetBlock { s with port := rest }) ∨
    (∃ op a b rest i, s.port = .present op a b :: rest ∧ exec i (s.taken rest a b) = .next t) := by
  unfold step at h
  split at h
  · cases h; exact .inl ⟨‹_›, rfl⟩
  · cases h; exact .inr (.inl ⟨_, ‹_›, rfl⟩)
  · split at h
    · exact .inr (.inr ⟨_, _, _, _, _, ‹_›, h⟩)
    · cases h

/-! ### Running an operation whose body is known -/

theorem operation_done {lent : Option (List Nat)} {verdict : Verdict} {body : State → Flow Result}
    {s t : State} {r : Result} (hr : Ready s) (hv : verdict = .run) (hb : body (start lent s) = .done r t) :
    operation true lent verdict body s = .next (reply lent r t) := by
  rw [operation_run hr rfl hv, hb]; rfl

theorem start_peek (lent : Option (List Nat)) (s : State) (k : Nat) : (start lent s).peek k = s.peek k := by
  cases lent <;> rfl

theorem start_peeks (lent : Option (List Nat)) (s : State) (a n : Nat) :
    (start lent s).peeks a n = s.peeks a n := by cases lent <;> rfl

theorem start_live (lent : Option (List Nat)) (s : State) : Live (start lent s) ↔ Live s := by
  cases lent <;> rfl

end Sys2Proof.Machine
end

