-- ==== Sys2Proof/Laws/History.lean ====
section
/-! SUPPORT. Two runs of one body from states that differ only in what is left of earlier operations stay so:
same events, same value, same answers used. One lemma per piece. -/

namespace Sys2Proof.Machine

open Sys2Proof

/-- The states differ at most in trace, response buffer and refusal mark; both have emitted the same events, from
traces `b1` and `b2`; and, where `e` holds, their buffers are equal. -/
structure Sim (e : Prop) (b1 b2 : List Event) (s1 s2 : State) : Prop where
  eq : s1 = { s2 with trace := s1.trace, response := s1.response, refused := s1.refused }
  events : ∃ evs, s1.trace = b1 ++ evs ∧ s2.trace = b2 ++ evs
  response : e → s1.response = s2.response

/-- The same of two pieces. -/
def Flow.Sim {α : Type} (e : Prop) (b1 b2 : List Event) (x y : Flow α) : Prop :=
  match x, y with
  | .done a s, .done b t => a = b ∧ Machine.Sim e b1 b2 s t
  | .stuck s, .stuck t => Machine.Sim e b1 b2 s t
  | .done _ _, .stuck _ => False
  | .stuck _, .done _ _ => False

section

variable {e : Prop} {b1 b2 : List Event} {s1 s2 : State}

theorem Flow.Sim.bind {α β : Type} {x y : Flow α} {f g : α → State → Flow β} (h : x.Sim e b1 b2 y)
    (k : ∀ a t u, Machine.Sim e b1 b2 t u → (f a t).Sim e b1 b2 (g a u)) :
    (x.bind f).Sim e b1 b2 (y.bind g) := by
  cases x <;> cases y
  · obtain ⟨rfl, h⟩ := h; exact k _ _ _ h
  · exact h.elim
  · exact h.elim
  · exact h

theorem Flow.Sim.onOk {x y : Flow Result} {f g : State → Flow Result} (h : x.Sim e b1 b2 y)
    (k : ∀ t u, Machine.Sim e b1 b2 t u → (f t).Sim e b1 b2 (g u)) : (x.onOk f).Sim e b1 b2 (y.onOk g) := by
  refine h.bind fun a t u hs => ?_
  split
  · exact k t u hs
  · exact ⟨rfl, hs⟩

theorem Sim.elim (h : Sim e b1 b2 s1 s2) : ∃ tr re rf evs,
    s1 = { s2 with trace := tr, response := re, refused := rf } ∧ tr = b1 ++ evs ∧ s2.trace = b2 ++ evs ∧
    (e → re = s2.response) :=
  ⟨s1.trace, s1.response, s1.refused, h.events.choose, h.eq, h.events.choose_spec.1, h.events.choose_spec.2,
    h.response⟩

theorem Sim.cfg (h : Sim e b1 b2 s1 s2) : s1.cfg = s2.cfg := by rw [h.eq]

/-- One more event of both, whatever the access did to the answers left. -/
theorem Sim.log (h : Sim e b1 b2 s1 s2) (ev : Event) (rd : List Word) (st : Option Nat) (n : Nat) :
    Sim e b1 b2 (({ s1 with reads := rd, stallAfter := st, draws := n } : State).log ev)
      (({ s2 with reads := rd, stallAfter := st, draws := n } : State).log ev) := by
  obtain ⟨tr, re, rf, evs, rfl, h1, h2, h3⟩ := h.elim
  refine ⟨rfl, ⟨evs ++ [ev], ?_, ?_⟩, h3⟩
  · show tr ++ _ = _; rw [h1, List.append_assoc]
  · show s2.trace ++ _ = _; rw [h2, List.append_assoc]

theorem regRead_sim (off : Nat) (h : Sim e b1 b2 s1 s2) : (regRead off s1).Sim e b1 b2 (regRead off s2) := by
  have hl := h.log
  obtain ⟨tr, re, rf, evs, rfl, -, -, -⟩ := h.elim
  obtain ⟨cfg, ini, bu, fa, ref, res, tr2, resp, port, reads, st, tx, rx, dr⟩ := s2
  cases st with
  | none => cases reads <;> exact ⟨rfl, hl _ _ _ _⟩
  | some n =>
    cases n with
    | zero => exact h
    | succ n => cases reads <;> exact ⟨rfl, hl _ _ _ _⟩

theorem regWrite_sim (off : Nat) (v : Word) (h : Sim e b1 b2 s1 s2) :
    (regWrite off v s1).Sim e b1 b2 (regWrite off v s2) := by
  have hl := h.log (.wr off v)
  obtain ⟨tr, re, rf, evs, rfl, -, -, -⟩ := h.elim
  obtain ⟨cfg, ini, bu, fa, ref, res, tr2, resp, port, reads, st, tx, rx, dr⟩ := s2
  cases st with
  | none => exact ⟨rfl, hl reads none dr⟩
  | some n =>
    cases n with
    | zero => exact h
    | succ n => exact ⟨rfl, hl reads (some n) dr⟩

theorem sleep_sim (us : Nat) (h : Sim e b1 b2 s1 s2) : (sleep us s1).Sim e b1 b2 (sleep us s2) := by
  have hl := h.log (.slp us)
  obtain ⟨tr, re, rf, evs, rfl, -, -, -⟩ := h.elim
  obtain ⟨cfg, ini, bu, fa, ref, res, tr2, resp, port, reads, st, tx, rx, dr⟩ := s2
  cases st with
  | none => exact ⟨rfl, hl reads none dr⟩
  | some n =>
    cases n with
    | zero => exact h
    | succ n => exact ⟨rfl, hl reads (some n) dr⟩

theorem poll_sim (off us : Nat) (hit : Word → Bool) (tag : TimeoutTag) :
    ∀ (n : Nat) {s1 s2 : State}, Sim e b1 b2 s1 s2 →
      (poll off us hit tag n s1).Sim e b1 b2 (poll off us hit tag n s2)
  | 0, _, _, h => ⟨rfl, h⟩
  | n + 1, s1, s2, h => by
    unfold poll
    refine (regRead_sim off h).bind fun v t u h => ?_
    by_cases hv : hit v = true
    · simp only [hv, if_true]; exact ⟨rfl, h⟩
    · simp only [hv, if_false, Bool.false_eq_true]
      by_cases hn : n = 0
      · simp only [hn, if_true]; exact ⟨rfl, h⟩
      · simp only [hn, if_false]
        exact (sleep_sim us h).bind fun _ _ _ h => poll_sim off us hit tag n h

theorem waitFor_sim (w : WaitName) (h : Sim e b1 b2 s1 s2) : (waitFor w s1).Sim e b1 b2 (waitFor w s2) := by
  unfold waitFor waitForBit
  rw [h.cfg]
  exact poll_sim _ _ _ _ _ h

theorem hdrWrite_sim (x : Word) (h : Sim e b1 b2 s1 s2) : (hdrWrite x s1).Sim e b1 b2 (hdrWrite x s2) := by
  unfold hdrWrite
  refine (waitFor_sim _ h).onOk fun t u h => ?_
  rw [h.cfg]
  exact (regWrite_sim _ _ h).bind fun _ _ _ h => ⟨rfl, h⟩

theorem inlineByte_sim (p : PayloadArg) (k : Nat) (h : Sim e b1 b2 s1 s2) :
    (inlineByte p k s1).1 = (inlineByte p k s2).1 ∧ Sim e b1 b2 (inlineByte p k s1).2 (inlineByte p k s2).2 := by
  obtain ⟨tr, re, rf, evs, rfl, h1, h2, h3⟩ := h.elim
  unfold inlineByte
  simp only
  split
  · exact ⟨rfl, h⟩
  · split
    · exact ⟨rfl, rfl, ⟨evs, h1, h2⟩, h3⟩
    · exact ⟨rfl, h⟩

theorem payloadWord_sim (p : PayloadArg) (i : Nat) (h : Sim e b1 b2 s1 s2) :
    (payloadWord p i s1).1 = (payloadWord p i s2).1 ∧
      Sim e b1 b2 (payloadWord p i s1).2 (payloadWord p i s2).2 := by
  obtain ⟨tr, re, rf, evs, rfl, h1, h2, h3⟩ := h.elim
  unfold payloadWord wordChanged
  simp only
  split
  · exact ⟨rfl, rfl, ⟨evs, h1, h2⟩, h3⟩
  · exact ⟨rfl, h⟩

theorem inlineHdr_sim (d : Descriptor) (h : Sim e b1 b2 s1 s2) :
    (inlineHdr d s1).1 = (inlineHdr d s2).1 ∧ Sim e b1 b2 (inlineHdr d s1).2 (inlineHdr d s2).2 := by
  unfold inlineHdr
  obtain ⟨h1, h2⟩ := inlineByte_sim d.payload 0 h
  obtain ⟨h3, h4⟩ := inlineByte_sim d.payload 1 h2
  simp only [h1, h.cfg]
  exact ⟨by simp only [h3], h4⟩

theorem pldWrite_sim {word : State → Word × State}
    (hw : ∀ t u, Sim e b1 b2 t u → (word t).1 = (word u).1 ∧ Sim e b1 b2 (word t).2 (word u).2)
    (h : Sim e b1 b2 s1 s2) : (pldWrite word s1).Sim e b1 b2 (pldWrite word s2) := by
  unfold pldWrite
  refine (waitFor_sim _ h).onOk fun t u h => ?_
  obtain ⟨h1, h2⟩ := hw _ _ h
  rw [h.cfg, h1]
  exact (regWrite_sim _ _ h2).bind fun _ _ _ h => ⟨rfl, h⟩

theorem writePayload_sim (p : PayloadArg) : ∀ (n i : Nat) {s1 s2 : State}, Sim e b1 b2 s1 s2 →
    (writePayload p n i s1).Sim e b1 b2 (writePayload p n i s2)
  | 0, _, _, _, h => ⟨rfl, h⟩
  | n + 1, i, _, _, h => by
    unfold writePayload
    exact (pldWrite_sim (fun _ _ h => payloadWord_sim p i h) h).onOk fun _ _ h => writePayload_sim p n (i + 1) h

theorem readModifyWrite_sim (off : Nat) (f : Word → Word) (h : Sim e b1 b2 s1 s2) :
    (readModifyWrite off f s1).Sim e b1 b2 (readModifyWrite off f s2) :=
  (regRead_sim off h).bind fun _ _ _ h => regWrite_sim _ _ h

theorem setBta_sim (b : Bool) (h : Sim e b1 b2 s1 s2) : (setBta b s1).Sim e b1 b2 (setBta b s2) := by
  unfold setBta
  rw [h.cfg]
  refine (readModifyWrite_sim _ _ h).bind fun _ t u h => ?_
  rw [h.cfg]
  exact readModifyWrite_sim _ _ h

theorem waitForAck_sim (h : Sim e b1 b2 s1 s2) : (waitForAck s1).Sim e b1 b2 (waitForAck s2) := by
  unfold waitForAck
  rw [h.cfg]
  refine (poll_sim _ _ _ _ _ h).onOk fun t u h => ?_
  rw [h.cfg]
  exact poll_sim _ _ _ _ _ h

theorem storeWord_sim (i n : Nat) (w : Word) (h : Sim e b1 b2 s1 s2) :
    Sim e b1 b2 (storeWord i n w s1) (storeWord i n w s2) := by
  obtain ⟨tr, re, rf, evs, rfl, h1, h2, h3⟩ := h.elim
  unfold storeWord wordTouched
  simp only
  split
  · exact ⟨rfl, ⟨evs, h1, h2⟩, fun he => by simp only; rw [h3 he]⟩
  · exact ⟨rfl, ⟨evs, h1, h2⟩, fun he => by simp only; rw [h3 he]⟩

theorem readWords_sim (r : Nat) : ∀ (n i : Nat) {s1 s2 : State}, Sim e b1 b2 s1 s2 →
    (readWords r n i s1).Sim e b1 b2 (readWords r n i s2)
  | 0, _, _, _, h => ⟨rfl, h⟩
  | n + 1, i, _, _, h => by
    unfold readWords
    refine (waitFor_sim _ h).onOk fun t u h => ?_
    rw [h.cfg]
    exact (regRead_sim _ h).bind fun w _ _ h => readWords_sim r n (i + 1) (storeWord_sim _ _ _ h)

/-! ### The bodies -/

theorem gswBody_sim (d : Descriptor) (h : Sim e b1 b2 s1 s2) : (gswBody d s1).Sim e b1 b2 (gswBody d s2) := by
  unfold gswBody
  obtain ⟨h1, h2⟩ := inlineHdr_sim d h
  rw [h1]
  exact hdrWrite_sim _ h2

theorem dswBody_sim (d : Descriptor) (h : Sim e b1 b2 s1 s2) : (dswBody d s1).Sim e b1 b2 (dswBody d s2) := by
  unfold dswBody
  obtain ⟨h1, h2⟩ := inlineByte_sim d.payload 0 h
  simp only [h1, h.cfg]
  exact hdrWrite_sim _ h2

theorem lwBody_sim (d : Descriptor) (h : Sim e b1 b2 s1 s2) : (lwBody d s1).Sim e b1 b2 (lwBody d s2) := by
  unfold lwBody
  refine (writePayload_sim _ _ _ h).onOk fun t u h => ?_
  rw [h.cfg]
  exact hdrWrite_sim _ h

theorem grdBody_sim (d : Descriptor) (h : Sim e b1 b2 s1 s2) : (grdBody d s1).Sim e b1 b2 (grdBody d s2) := by
  unfold grdBody
  refine Flow.Sim.bind ?_ fun a t u h => (setBta_sim _ h).bind fun _ _ _ h => ⟨rfl, h⟩
  unfold grdSeq
  refine Flow.Sim.onOk ?_ fun t u h => Flow.Sim.onOk ?_ fun t u h =>
    (waitForAck_sim h).onOk fun t u h => readWords_sim _ _ _ h
  · unfold maxSizeHdr
    split
    · rw [h.cfg]; exact hdrWrite_sim _ h
    · exact ⟨rfl, h⟩
  · unfold readRequest
    obtain ⟨h1, h2⟩ := inlineHdr_sim d h
    simp only [h1, h.cfg]
    split
    · exact (setBta_sim _ h2).bind fun _ _ _ h => hdrWrite_sim _ h
    · exact (hdrWrite_sim _ h2).onOk fun _ _ h => (setBta_sim _ h).bind fun _ _ _ h => ⟨rfl, h⟩

/-- Every body. -/
theorem opBody_sim (i : Instr) (c : Config) (h : Sim e b1 b2 s1 s2) :
    (opBody c i s1).Sim e b1 b2 (opBody c i s2) := by
  cases i with
  | init => exact ⟨rfl, h⟩
  | reservedOp => exact ⟨rfl, h⟩
  | send tx rx dcs =>
    show (sendBody tx rx dcs s1).Sim _ _ _ (sendBody tx rx dcs s2)
    unfold sendBody
    rw [h.cfg]
    split
    · exact ⟨rfl, h⟩
    · rename_i p d _
      cases p
      · exact gswBody_sim d h
      · exact dswBody_sim d h
      · exact lwBody_sim d h
      · exact grdBody_sim d h
  | gsw d => exact gswBody_sim d h
  | dsw d => exact dswBody_sim d h
  | lw d => exact lwBody_sim d h
  | grd d => exact grdBody_sim d h
  | btaen => exact (setBta_sim _ h).bind fun _ _ _ h => ⟨rfl, h⟩
  | btadis => exact (setBta_sim _ h).bind fun _ _ _ h => ⟨rfl, h⟩
  | btawait => exact waitForAck_sim h
  | pldWord b0 b1 b2 b3 => exact pldWrite_sim (fun _ _ h => ⟨rfl, h⟩) h
  | wait | waitPldWNotFull | waitPldWEmpty | waitPldRFull | waitPldRNotEmpty | waitCmdNotFull | waitCmdEmpty =>
    exact waitFor_sim _ h
  | _ => exact hdrWrite_sim _ h

theorem reply_sim (lent : Option (List Nat)) (r : Result) (h : Sim e b1 b2 s1 s2) :
    Sim e b1 b2 (reply lent r s1) (reply lent r s2) := by
  obtain ⟨tr, re, rf, evs, rfl, h1, h2, h3⟩ := h.elim
  unfold reply
  split
  · exact ⟨rfl, ⟨evs, h1, h2⟩, h3⟩
  · split
    · exact ⟨rfl, ⟨evs, h1, h2⟩, h3⟩
    · exact ⟨rfl, ⟨evs, h1, h2⟩, fun _ => rfl⟩

end

/-! ### A present buffer of length 0 -/

/-- A body that keeps the buffer and does not look at it runs alike whatever the buffer holds. -/
theorem body_anyResponse {body : State → Flow Result} {n : Nat} (m : Memory) (s : State)
    (hsim : ∀ {t u : State}, Sim False s.trace s.trace t u → (body t).Sim False s.trace s.trace (body u))
    (hsafe : ∀ t : State, t.cfg = s.cfg → (body t).Safe Ended n none t) :
    body { s with response := m } =
      match body s with
      | .done r t => .done r { t with response := m }
      | .stuck t => .stuck { t with response := m } := by
  have hs := hsim (t := { s with response := m }) (u := s) ⟨rfl, ⟨[], by simp, by simp⟩, False.elim⟩
  have h1 := hsafe { s with response := m } rfl
  have h2 := hsafe s rfl
  have key : ∀ {t u : State} {a b : List Event}, Sim False s.trace s.trace t u →
      Ran { s with response := m } t a → Kept none { s with response := m } t → Ran s u b →
      t = { u with response := m } := by
    intro t u a b h ht hk hu
    obtain ⟨tr, re, rf, evs, rfl, e1, e2, -⟩ := h.elim
    have hrf : rf = u.refused := ht.refused.trans hu.refused.symm
    have hre : re = m := hk
    rw [hrf, hre, e1, ← e2]
  revert hs h1 h2
  cases body { s with response := m } <;> cases body s
  · rintro ⟨rfl, h⟩ ⟨a, ht, -, -, hk, -⟩ ⟨b, hu, -⟩; rw [key h ht hk hu]
  · exact fun h => h.elim
  · exact fun h => h.elim
  · rintro h ⟨a, ht, -, -, -, hk⟩ ⟨b, hu, -⟩; rw [key h ht hk hu]

/-- Such a body run with an empty buffer lent, beside the same run with none: the buffer it was lent is empty, and
nothing else differs. -/
theorem operation_lendEmpty {accepted : Bool} {verdict : Verdict} {body : State → Flow Result} {n : Nat}
    {s t : State}
    (hsim : ∀ {t u : State}, Sim False s.trace s.trace t u → (body t).Sim False s.trace s.trace (body u))
    (hsafe : ∀ t : State, t.cfg = s.cfg → (body t).Safe Ended n none t) (ha : accepted = true)
    (h : operation accepted none verdict body s = .next t) :
    operation accepted (some []) verdict body s =
      .next (if t.fault = none then { t with response := [] } else t) := by
  obtain ⟨hf, ⟨h', -⟩ | ⟨-, hb, rfl⟩ | ⟨-, hb, hi, rfl⟩ | ⟨-, hr, h⟩⟩ := operation_cases h
  · rw [ha] at h'; cases h'
  · rw [operation_overlap hf ha hb]; simp [raiseFault]
  · rw [operation_gate hf ha hb hi]; simp [reply_err, scrambleResponse, freeBytes, Memory.ofBytes, hf]
  · rcases h with ⟨hv, rfl⟩ | ⟨f, hv, rfl⟩ | ⟨hv, rfl⟩
    · rw [operation_invalid hr ha hv]; simp [reply_err, scrambleResponse, freeBytes, Memory.ofBytes, hf]
    · rw [operation_fault hr ha hv]; simp [raiseFault]
    · rw [operation_run hr ha hv]
      have hk := body_anyResponse (body := body) [] (start none s) hsim hsafe
      have h1 := hsafe (start none s) rfl
      rw [show start (some []) s = { start none s with response := [] } from rfl, hk]
      revert h1
      cases body (start none s) with
      | stuck u =>
        rintro ⟨a, hu, -⟩
        have : u.fault = none := hu.fault.trans hf
        simp [finish, this]
      | done r u =>
        rintro ⟨a, hu, -⟩
        have hu : u.fault = none := hu.fault.trans hf
        by_cases hok : r = .ok
        · subst hok; simp [finish, hu]
        · simp [finish, reply_err hok, scrambleResponse, freeBytes, Memory.ofBytes, hu]

end Sys2Proof.Machine
end

