-- ==== Sys2Proof/Laws/Parts.lean ====
section
/-! SUPPORT. The pieces of the read path as parts that run in order (`Course`): which events each emits and which
result it gives, whatever the environment answers. They compose by `Flow.Takes.onOk`. -/

namespace Sys2Proof.Machine

open Sys2Proof

theorem Course.append {c : Config} {qs : List Part} {b : List Event} {r : Result} (hq : Course c qs b r) :
    ∀ {ps : List Part} {a : List Event}, Course c ps a .ok → Course c (ps ++ qs) (a ++ b) r
  | [], a, h => by obtain ⟨rfl, -⟩ := h; exact hq
  | .wait off hit tag :: ps, a, h => by
    rcases h with ⟨vs, more, hm, rfl, h⟩ | ⟨-, -, -, h⟩
    · exact .inl ⟨vs, more ++ b, hm, List.append_assoc _ _ _, Course.append hq h⟩
    · cases h
  | .access good :: ps, a, h => by
    obtain ⟨x, more, hx, rfl, h⟩ := h
    exact ⟨x, more ++ b, hx, List.append_assoc _ _ _, Course.append hq h⟩

/-- A missed poll ends the operation whatever parts were to follow. -/
theorem Course.stop {c : Config} {qs : List Part} {r : Result} (hr : r ≠ .ok) :
    ∀ {ps : List Part} {a : List Event}, Course c ps a r → Course c (ps ++ qs) a r
  | [], _, h => absurd h.2 hr
  | .wait off hit tag :: ps, a, h => by
    rcases h with ⟨vs, more, hm, rfl, h⟩ | h
    · exact .inl ⟨vs, more, hm, rfl, Course.stop hr h⟩
    · exact .inr h
  | .access good :: ps, a, h => by
    obtain ⟨x, more, hx, rfl, h⟩ := h
    exact ⟨x, more, hx, rfl, Course.stop hr h⟩

/-- A piece run from `s` takes the course of the given parts, or hangs. -/
abbrev Flow.Takes (ps : List Part) (s : State) (x : Flow Result) : Prop :=
  x.Spec s (fun r evs _ => Course s.cfg ps evs r) (fun _ _ => True)

theorem Flow.Takes.done (s : State) : (Flow.done Result.ok s).Takes [] s := Flow.Spec.done ⟨rfl, rfl⟩

theorem Flow.Takes.onOk {ps qs : List Part} {s : State} {x : Flow Result} {f : State → Flow Result}
    (hx : x.Takes ps s) (hf : ∀ evs t, Ran s t evs → (f t).Takes qs t) : (x.onOk f).Takes (ps ++ qs) s := by
  refine Flow.Spec.onOk hx (fun _ _ _ => trivial) (fun r evs t hne h => Course.stop hne h) ?_
  intro evs t hr h
  refine (hf evs t hr).mono ?_ (fun _ _ _ _ => trivial)
  intro r more u _ h'
  rw [hr.cfg] at h'
  exact Course.append h' h

/-- A piece that only accesses, and then a piece that takes a course. -/
theorem Flow.Takes.bind {α : Type} {good : List Event → Prop} {qs : List Part} {s : State} {x : Flow α}
    {f : α → State → Flow Result} (hx : x.Spec s (fun _ evs _ => good evs) (fun _ _ => True))
    (hf : ∀ a evs t, Ran s t evs → (f a t).Takes qs t) : (x.bind f).Takes (.access good :: qs) s := by
  refine Flow.Spec.bind hx (fun _ _ _ => trivial) ?_
  intro a evs t hr h
  refine (hf a evs t hr).mono ?_ (fun _ _ _ _ => trivial)
  intro r more u _ h'
  rw [hr.cfg] at h'
  exact ⟨evs, more, h, rfl, h'⟩

theorem poll_takes (off : Nat) (hit : Word → Bool) (tag : TimeoutTag) (s : State) :
    (poll off s.cfg.pollIntervalUs hit tag s.cfg.retryMax s).Takes [.wait off hit tag] s := by
  refine (poll_spec _ _ _ _ _ s).mono ?_ (fun _ _ _ _ => trivial)
  rintro r evs t - ⟨⟨vs, rfl, ⟨rfl, h⟩ | ⟨rfl, h⟩⟩, -⟩
  · exact .inl ⟨vs, [], h, by simp, rfl, rfl⟩
  · exact .inr ⟨vs, h, rfl, rfl⟩

theorem waitFor_takes (w : WaitName) (s : State) :
    (waitFor w s).Takes [.wait s.cfg.offCmdPktStatus (waitHit s.cfg w) (waitTag w)] s := poll_takes _ _ _ s

/-- A header write behind its gate (R125). -/
theorem hdrWrite_takes (h : Word) (s : State) :
    (hdrWrite h s).Takes [.wait s.cfg.offCmdPktStatus (waitHit s.cfg .cmdNotFull) .cmdFifo,
      .access fun evs => evs = [.wr s.cfg.offGenHdr h]] s := by
  refine (waitFor_takes .cmdNotFull s).onOk (qs := [.access fun evs => evs = [.wr s.cfg.offGenHdr h]]) ?_
  intro evs t hr
  rw [← hr.cfg]
  exact Flow.Takes.bind ((regWrite_spec _ h t).mono (fun _ _ _ _ h => h.1) (fun _ _ _ _ => trivial))
    fun _ _ u _ => .done u

/-- The four events of `enable_bta` or `disable_bta`, and then what follows (R160, R161). -/
theorem setBta_takes (b : Bool) {qs : List Part} {s : State} {f : Unit → State → Flow Result}
    (hf : ∀ a evs t, Ran s t evs → (f a t).Takes qs t) :
    ((setBta b s).bind f).Takes ((.access fun evs => ∃ v w,
      evs = btaTrace s.cfg v (withAckRqstEn s.cfg b v) w (withBtaEn s.cfg b w)) :: qs) s :=
  Flow.Takes.bind ((setBta_spec b s).mono (fun _ _ _ _ ⟨v, w, h, _⟩ => ⟨v, w, h⟩) (fun _ _ _ _ => trivial)) hf

/-- The two phases (R164). -/
theorem waitForAck_takes (s : State) :
    (waitForAck s).Takes [.wait s.cfg.offPhyStatus (leftTx s.cfg) .btaPhase1,
      .wait s.cfg.offPhyStatus (leftRx s.cfg) .btaPhase2] s := by
  refine (poll_takes _ _ _ s).onOk (qs := [.wait s.cfg.offPhyStatus (leftRx s.cfg) .btaPhase2]) ?_
  intro evs t hr
  rw [← hr.cfg]
  exact poll_takes _ _ _ t

/-- The parts of one response word (R191). -/
def wordParts (c : Config) : List Part :=
  [.wait c.offCmdPktStatus (waitHit c .pldRNotEmpty) .pldFifoRead,
   .access fun evs => ∃ w, evs = [.rd c.offGenPldData w]]

theorem pldRead_takes (i n : Nat) (s : State) : (pldRead i n s).Takes (wordParts s.cfg) s := by
  refine (waitFor_takes .pldRNotEmpty s).onOk
    (qs := [.access fun evs => ∃ w, evs = [.rd s.cfg.offGenPldData w]]) ?_
  intro evs t hr
  rw [← hr.cfg]
  refine Flow.Spec.bind (regRead_spec _ t) (fun _ _ _ => trivial) ?_
  rintro w evs u - ⟨rfl, -⟩
  exact ⟨[], storeWord_ran i n w u, [.rd _ w], [], ⟨w, rfl⟩, rfl, rfl, rfl⟩

theorem readWords_takes (r : Nat) : ∀ (n i : Nat) (s : State),
    (readWords r n i s).Takes (List.replicate n (wordParts s.cfg)).flatten s
  | 0, _, s => .done s
  | n + 1, i, s => by
    rw [readWords_succ]
    refine (pldRead_takes i _ s).onOk (qs := (List.replicate n (wordParts s.cfg)).flatten) ?_
    intro evs t hr
    rw [← hr.cfg]
    exact readWords_takes r n (i + 1) t

end Sys2Proof.Machine
end

