-- ==== Sys2Proof/Laws/PerInstr.lean ====
section
/-! SUPPORT. Statements about every instruction as syntax, one lemma per constructor. `TableBits`: the word the
encoder gives an instruction has the format and the fixed bits its row of the opcode table has. -/

namespace Sys2Proof.Laws.TableBits

open Sys2Proof

/-- The four formats of the opcode table. -/
inductive Format where
  | hostOp
  | hostOpWait
  | genHeader
  | payloadWord
deriving DecidableEq, Repr

/-- The format, mask and match of a row of spec/opcode_table.json. -/
structure Row where
  format : Format
  mask : Nat
  value : Nat
deriving DecidableEq, Repr

/-- The rows of the table, in its order. -/
def rowOf : Instr → Row
  | .init => ⟨.hostOp, 0xF, 0x0⟩
  | .send _ _ _ => ⟨.hostOp, 0xF, 0x1⟩
  | .gsw _ => ⟨.hostOp, 0xF, 0x2⟩
  | .dsw _ => ⟨.hostOp, 0xF, 0x3⟩
  | .lw _ => ⟨.hostOp, 0xF, 0x4⟩
  | .grd _ => ⟨.hostOp, 0xF, 0x5⟩
  | .wait _ => ⟨.hostOp, 0xF, 0x6⟩
  | .btaen => ⟨.hostOp, 0xF, 0x7⟩
  | .btadis => ⟨.hostOp, 0xF, 0x8⟩
  | .btawait => ⟨.hostOp, 0xF, 0x9⟩
  | .reservedOp k => ⟨.hostOp, 0xF, 0xA + k.val⟩
  | .waitPldWNotFull => ⟨.hostOpWait, 0x7F, 0x30⟩
  | .waitPldWEmpty => ⟨.hostOpWait, 0x7F, 0x31⟩
  | .waitPldRFull => ⟨.hostOpWait, 0x7F, 0x32⟩
  | .waitPldRNotEmpty => ⟨.hostOpWait, 0x7F, 0x33⟩
  | .waitCmdNotFull => ⟨.hostOpWait, 0x7F, 0x34⟩
  | .waitCmdEmpty => ⟨.hostOpWait, 0x7F, 0x35⟩
  | .hdrGenSw0 _ _ _ => ⟨.genHeader, 0xFF00003F, 0x03⟩
  | .hdrGenSw1 _ _ _ => ⟨.genHeader, 0xFF00003F, 0x13⟩
  | .hdrGenSw2 _ _ _ => ⟨.genHeader, 0xFF00003F, 0x23⟩
  | .hdrGenSr0 _ _ _ => ⟨.genHeader, 0xFF00003F, 0x04⟩
  | .hdrGenSr1 _ _ _ => ⟨.genHeader, 0xFF00003F, 0x14⟩
  | .hdrGenSr2 _ _ _ => ⟨.genHeader, 0xFF00003F, 0x24⟩
  | .hdrDcsSw0 _ _ _ => ⟨.genHeader, 0xFF00003F, 0x05⟩
  | .hdrDcsSw1 _ _ _ => ⟨.genHeader, 0xFF00003F, 0x15⟩
  | .hdrDcsRead _ _ _ => ⟨.genHeader, 0xFF00003F, 0x06⟩
  | .hdrSetMaxRet _ _ _ => ⟨.genHeader, 0xFF00003F, 0x37⟩
  | .hdrGenLw _ _ _ => ⟨.genHeader, 0xFF00003F, 0x29⟩
  | .hdrDcsLw _ _ _ => ⟨.genHeader, 0xFF00003F, 0x39⟩
  | .pldWord _ _ _ _ => ⟨.payloadWord, 0x00000000, 0x00000000⟩

/-- A presentation has a row's format and fixed bits. -/
def Row.Matches (r : Row) : Presented → Prop
  | .hostOp op _ => r.format = .hostOp ∧ op &&& BitVec.ofNat 4 r.mask = BitVec.ofNat 4 r.value
  | .hostWait w => r.format = .hostOpWait ∧ w &&& BitVec.ofNat 7 r.mask = BitVec.ofNat 7 r.value
  | .header w => r.format = .genHeader ∧ w &&& BitVec.ofNat 32 r.mask = BitVec.ofNat 32 r.value
  | .payload w => r.format = .payloadWord ∧ w &&& BitVec.ofNat 32 r.mask = BitVec.ofNat 32 r.value

/-- The encoder's word is the row's. -/
def Statement (i : Instr) : Prop := (rowOf i).Matches (encode i)

/-- The fixed bits of a header word are its data type, and eight zeros (R70). -/
theorem header_fixed (dt : BitVec 6) (vc : BitVec 2) (lo hi : Byte) :
    Header.word dt vc lo hi &&& 0xFF00003F#32 = dt.setWidth 32 := by
  have low : ∀ n, n < 6 → (0xFF00003F#32).getLsbD n = true := by decide
  have mid : ∀ n, n < 24 → 6 ≤ n → (0xFF00003F#32).getLsbD n = false := by decide
  apply BitVec.eq_of_getLsbD_eq
  intro n hn
  simp only [Header.word, BitVec.getLsbD_and, BitVec.getLsbD_append, BitVec.getLsbD_setWidth]
  by_cases h : n < 6
  · simp [h, low n h, hn]
  · rw [BitVec.getLsbD_of_ge dt n (by omega)]
    by_cases h' : n < 24
    · simp [mid n h' (by omega)]
    · have h1 : ¬ n - 6 < 2 := by omega
      have h2 : ¬ n - 6 - 2 < 8 := by omega
      have h3 : ¬ n - 6 - 2 - 8 < 8 := by omega
      simp [h, h1, h2, h3]

theorem op_fixed : ∀ op : BitVec 4, op &&& 0xF#4 = op := by decide

theorem init : Statement .init := ⟨rfl, rfl⟩
theorem send (tx : PayloadArg) (rx : ResponseArg) (dcs : Bool) : Statement (.send tx rx dcs) :=
  ⟨rfl, op_fixed 0x1#4⟩
theorem gsw (d : Descriptor) : Statement (.gsw d) :=
  ⟨rfl, op_fixed 0x2#4⟩
theorem dsw (d : Descriptor) : Statement (.dsw d) :=
  ⟨rfl, op_fixed 0x3#4⟩
theorem lw (d : Descriptor) : Statement (.lw d) :=
  ⟨rfl, op_fixed 0x4#4⟩
theorem grd (d : Descriptor) : Statement (.grd d) :=
  ⟨rfl, op_fixed 0x5#4⟩
theorem wait (sel : BitVec 3) : Statement (.wait sel) :=
  ⟨rfl, op_fixed 0x6#4⟩
theorem btaen : Statement .btaen := ⟨rfl, rfl⟩
theorem btadis : Statement .btadis := ⟨rfl, rfl⟩
theorem btawait : Statement .btawait := ⟨rfl, rfl⟩

theorem reservedOp (k : Fin 6) : Statement (.reservedOp k) := by
  refine ⟨rfl, ?_⟩
  revert k
  decide

theorem waitPldWNotFull : Statement .waitPldWNotFull := ⟨rfl, rfl⟩
theorem waitPldWEmpty : Statement .waitPldWEmpty := ⟨rfl, rfl⟩
theorem waitPldRFull : Statement .waitPldRFull := ⟨rfl, rfl⟩
theorem waitPldRNotEmpty : Statement .waitPldRNotEmpty := ⟨rfl, rfl⟩
theorem waitCmdNotFull : Statement .waitCmdNotFull := ⟨rfl, rfl⟩
theorem waitCmdEmpty : Statement .waitCmdEmpty := ⟨rfl, rfl⟩

theorem hdrGenSw0 (vc : BitVec 2) (lo hi : Byte) : Statement (.hdrGenSw0 vc lo hi) :=
  ⟨rfl, header_fixed 0x03 vc lo hi⟩
theorem hdrGenSw1 (vc : BitVec 2) (lo hi : Byte) : Statement (.hdrGenSw1 vc lo hi) :=
  ⟨rfl, header_fixed 0x13 vc lo hi⟩
theorem hdrGenSw2 (vc : BitVec 2) (lo hi : Byte) : Statement (.hdrGenSw2 vc lo hi) :=
  ⟨rfl, header_fixed 0x23 vc lo hi⟩
theorem hdrGenSr0 (vc : BitVec 2) (lo hi : Byte) : Statement (.hdrGenSr0 vc lo hi) :=
  ⟨rfl, header_fixed 0x04 vc lo hi⟩
theorem hdrGenSr1 (vc : BitVec 2) (lo hi : Byte) : Statement (.hdrGenSr1 vc lo hi) :=
  ⟨rfl, header_fixed 0x14 vc lo hi⟩
theorem hdrGenSr2 (vc : BitVec 2) (lo hi : Byte) : Statement (.hdrGenSr2 vc lo hi) :=
  ⟨rfl, header_fixed 0x24 vc lo hi⟩
theorem hdrDcsSw0 (vc : BitVec 2) (lo hi : Byte) : Statement (.hdrDcsSw0 vc lo hi) :=
  ⟨rfl, header_fixed 0x05 vc lo hi⟩
theorem hdrDcsSw1 (vc : BitVec 2) (lo hi : Byte) : Statement (.hdrDcsSw1 vc lo hi) :=
  ⟨rfl, header_fixed 0x15 vc lo hi⟩
theorem hdrDcsRead (vc : BitVec 2) (lo hi : Byte) : Statement (.hdrDcsRead vc lo hi) :=
  ⟨rfl, header_fixed 0x06 vc lo hi⟩
theorem hdrSetMaxRet (vc : BitVec 2) (lo hi : Byte) : Statement (.hdrSetMaxRet vc lo hi) :=
  ⟨rfl, header_fixed 0x37 vc lo hi⟩
theorem hdrGenLw (vc : BitVec 2) (lo hi : Byte) : Statement (.hdrGenLw vc lo hi) :=
  ⟨rfl, header_fixed 0x29 vc lo hi⟩
theorem hdrDcsLw (vc : BitVec 2) (lo hi : Byte) : Statement (.hdrDcsLw vc lo hi) :=
  ⟨rfl, header_fixed 0x39 vc lo hi⟩

theorem pldWord (b0 b1 b2 b3 : Byte) : Statement (.pldWord b0 b1 b2 b3) :=
  ⟨rfl, BitVec.and_zero⟩

end Sys2Proof.Laws.TableBits
end

