-- ==== Sys2Proof/Laws/Traces.lean ====
section
/-! SUPPORT. What the long write writes and what the read path reads, as lists of words taken from the events. -/

namespace Sys2Proof.Machine

open Sys2Proof

/-! ### Writes and reads of a trace -/

theorem writes_append (a b : List Event) : writes (a ++ b) = writes a ++ writes b := by
  induction a with
  | nil => rfl
  | cons e a ih => cases e <;> simp [writes, ih]

theorem writes_pollTrace (off us : Nat) : ∀ vs, writes (pollTrace off us vs) = []
  | [] => rfl
  | [_] => rfl
  | v :: w :: rest => by simp [pollTrace, writes, writes_pollTrace off us (w :: rest)]

theorem readsAt_append (off : Nat) (a b : List Event) :
    readsAt off (a ++ b) = readsAt off a ++ readsAt off b := by
  induction a with
  | nil => rfl
  | cons e a ih =>
    cases e <;> simp only [List.cons_append, readsAt, ih]
    split <;> simp

theorem readsAt_poll {o off us : Nat} (h : off ≠ o) :
    ∀ {evs : List Event}, PollEvents off us evs → readsAt o evs = []
  | [], _ => rfl
  | e :: evs, hp => by
    have ht := readsAt_poll h (evs := evs) (fun e he => hp e (List.mem_cons_of_mem _ he))
    rcases hp e List.mem_cons_self with rfl | ⟨v, rfl⟩
    · simp [readsAt, ht]
    · simp [readsAt, ht, h]

/-- The last writes of a turn-around sequence are its own two. -/
theorem lastWrite_btaTrace (c : Config) (tr : List Event) (a a' b b' : Word) :
    lastWrite c.offCmdModeCfg (tr ++ btaTrace c a a' b b') = some a' ∧
    lastWrite c.offPckhdlCfg (tr ++ btaTrace c a a' b b') = some b' := by
  have h := (cfg_apart c).2.2.2.2.2.2.2.2
  constructor
  · simp [lastWrite, writes_append, btaTrace, writes, Ne.symm h]
  · simp [lastWrite, writes_append, btaTrace, writes, h]

/-! ### The long write -/

/-- The payload writes of words i, i+1, …, m of them. -/
def payloadWrites (c : Config) (p : PayloadArg) (i m : Nat) : List (Nat × Word) :=
  (List.range m).map fun j => (c.offGenPldData, pword (payloadBytes p) (i + j))

theorem payloadWrites_succ (c : Config) (p : PayloadArg) (i m : Nat) :
    payloadWrites c p i (m + 1) = (c.offGenPldData, pword (payloadBytes p) i) :: payloadWrites c p (i + 1) m := by
  simp [payloadWrites, List.range_succ_eq_map, Nat.add_comm, Nat.add_left_comm]

/-- All the words in order, or, at a timeout, the first so many of them (R130, R132). -/
theorem writePayload_spec (p : PayloadArg) : ∀ (n i : Nat) (s : State), s.txChanged = [] →
    (writePayload p n i s).Spec s
      (fun r evs _ => (r = .ok ∧ writes evs = payloadWrites s.cfg p i n) ∨
        (r = .timeout .pldFifoWrite ∧ ∃ m, m < n ∧ writes evs = payloadWrites s.cfg p i m))
      (fun _ _ => True)
  | 0, _, _, _ => Flow.Spec.done (.inl ⟨rfl, rfl⟩)
  | n + 1, i, s, hs => by
    rw [writePayload]
    refine (pldWrite_spec (payloadWord_source p i) s).onOk (fun _ _ _ => trivial) ?_ ?_
    · rintro r evs t hne ⟨-, ⟨rfl, -⟩ | ⟨rfl, vs, rfl⟩⟩
      · exact absurd rfl hne
      · exact .inr ⟨rfl, 0, by omega, writes_pollTrace _ _ _⟩
    · rintro evs t hr ⟨-, ⟨-, ms, v, u, rfl, hu, -, -⟩ | ⟨h, -⟩⟩
      · have hw : (payloadWord p i u).1 = pword (payloadBytes p) i := by rw [payloadWord_stable (hu.trans hs)]
        refine (writePayload_spec p n (i + 1) t (hr.txChanged.trans hs)).mono ?_ (fun _ _ _ _ => trivial)
        rintro r more w - (⟨rfl, h⟩ | ⟨rfl, m, hm, h⟩)
        · refine .inl ⟨rfl, ?_⟩
          rw [writes_append, writes_append, statusPoll, writes_pollTrace, h, hw, hr.cfg, payloadWrites_succ]
          rfl
        · refine .inr ⟨rfl, m + 1, by omega, ?_⟩
          rw [writes_append, writes_append, statusPoll, writes_pollTrace, h, hw, hr.cfg, payloadWrites_succ]
          rfl
      · cases h

/-! ### The response words -/

/-- On `Ok` the words read, as many as asked for, are the bytes now in the buffer (R73, R191). -/
theorem readWords_spec (r : Nat) : ∀ (n i : Nat) (s : State), s.rxTouched = [] →
    (readWords r n i s).Spec s
      (fun res evs t => res = .ok → ∃ ws, readsAt s.cfg.offGenPldData evs = ws ∧ ws.length = n ∧
        ∀ k, t.response.read k = if 4 * i ≤ k ∧ k < 4 * (i + n) ∧ k < r then
          some (wordByte (ws[k / 4 - i]?.getD 0#32) (k % 4)) else s.response.read k)
      (fun _ _ => True)
  | 0, _, _, _ => Flow.Spec.done (fun _ => ⟨[], rfl, rfl, fun k => by rw [if_neg (by omega)]⟩)
  | n + 1, i, s, hs => by
    rw [readWords_succ, pldRead]
    have hne := (cfg_apart s.cfg).2.1
    refine (gated_spec (w := .pldRNotEmpty) (s := s)
      (fun t _ => pldRead_access i (min 4 (r - 4 * i)) t)).onOk (fun _ _ _ => trivial)
      (fun _ _ _ hne _ h => absurd h hne) ?_
    rintro evs t hr (⟨-, ms, v, e, u, rfl, -, -, hresp, hc, -, hrx, w, y, rfl, rfl, hk, hrt⟩ | ⟨h, -⟩)
    · refine (readWords_spec r n (i + 1) _ (hr.rxTouched.trans hs)).mono ?_ (fun _ _ _ _ => trivial)
      rintro res more x - h hok
      obtain ⟨ws, hws, hlen, hread⟩ := h hok
      refine ⟨w :: ws, ?_, by simp [hlen], fun k => ?_⟩
      · rw [readsAt_append, readsAt_append, statusPoll, readsAt_poll hne (pollTrace_events _ _ _), hc]
        rw [hr.cfg] at hws
        rw [hws]
        simp [readsAt]
      · rw [hread]
        by_cases h1 : 4 * (i + 1) ≤ k ∧ k < 4 * (i + 1 + n) ∧ k < r
        · rw [if_pos h1, if_pos (by omega), show k / 4 - i = k / 4 - (i + 1) + 1 from by omega,
            List.getElem?_cons_succ]
        · rw [if_neg h1, storeWord_stable (hrt.trans (hrx.trans hs))]
          show (writeWordBytes _ _ _ _).read k = _
          rw [read_writeWordBytes, hk, hresp]
          by_cases h2 : 4 * i ≤ k ∧ k < 4 * i + min 4 (r - 4 * i)
          · rw [if_pos h2, if_pos (by omega), show k / 4 - i = 0 from by omega]
            simp only [List.getElem?_cons_zero, Option.getD_some]
            congr 2; omega
          · rw [if_neg h2, if_neg (by omega)]
    · cases h

/-- A piece of the read path that reads no response word and stores none. -/
def Quiet (s t : State) (evs : List Event) : Prop :=
  readsAt s.cfg.offGenPldData evs = [] ∧ t.response = s.response

theorem Quiet.trans {s t u : State} {a b : List Event} (h : Quiet s t a) (hr : Ran s t a) (k : Quiet t u b) :
    Quiet s u (a ++ b) :=
  ⟨by rw [readsAt_append, h.1, ← hr.cfg, k.1]; rfl, k.2.trans h.2⟩

theorem hdrWrite_quiet (h : Word) (s : State) :
    (hdrWrite h s).Spec s (fun _ evs t => Quiet s t evs) (fun _ _ => True) := by
  refine (hdrWrite_spec h s).mono ?_ (fun _ _ _ _ => trivial)
  have hne := (cfg_apart s.cfg).2.1
  rintro r evs t - ⟨hk, ⟨-, ms, v, rfl, -⟩ | ⟨-, vs, rfl⟩⟩
  · refine ⟨?_, hk⟩
    rw [readsAt_append, statusPoll, readsAt_poll hne (pollTrace_events _ _ _)]; rfl
  · exact ⟨readsAt_poll hne (pollTrace_events _ _ _), hk⟩

theorem setBta_quiet (b : Bool) (s : State) :
    (setBta b s).Spec s (fun _ evs t => Quiet s t evs) (fun _ _ => True) := by
  refine (setBta_spec b s).mono ?_ (fun _ _ _ _ => trivial)
  obtain ⟨-, -, -, -, -, h2, -, h4, -⟩ := cfg_apart s.cfg
  rintro r evs t - ⟨a, c, rfl, hk⟩
  exact ⟨by simp [btaTrace, readsAt, h2, h4], hk⟩

theorem quiet_onOk {s : State} {x : Flow Result} {f : State → Flow Result}
    (hx : x.Spec s (fun _ evs t => Quiet s t evs) (fun _ _ => True))
    (hf : ∀ t, (f t).Spec t (fun _ evs u => Quiet t u evs) (fun _ _ => True)) :
    (x.onOk f).Spec s (fun _ evs t => Quiet s t evs) (fun _ _ => True) :=
  hx.onOk (fun _ _ _ => trivial) (fun _ _ _ _ h => h) fun _ t hr h =>
    (hf t).mono (fun _ _ _ _ k => h.trans hr k) (fun _ _ _ _ => trivial)

theorem phyPoll_quiet (hit : Word → Bool) (tag : TimeoutTag) (s : State) :
    (poll s.cfg.offPhyStatus s.cfg.pollIntervalUs hit tag s.cfg.retryMax s).Spec s
      (fun _ evs t => Quiet s t evs) (fun _ _ => True) := by
  refine (poll_spec _ _ _ _ _ s).mono ?_ (fun _ _ _ _ => trivial)
  rintro r evs t - ⟨he, hk⟩
  exact ⟨readsAt_poll (cfg_apart s.cfg).2.2.2.1 (pollEnds_events he).1, hk⟩

theorem waitForAck_quiet (s : State) :
    (waitForAck s).Spec s (fun _ evs t => Quiet s t evs) (fun _ _ => True) :=
  quiet_onOk (phyPoll_quiet _ _ s) fun t => phyPoll_quiet _ _ t

theorem readRequest_quiet (d : Descriptor) (s : State) :
    (readRequest d s).Spec s (fun _ evs t => Quiet s t evs) (fun _ _ => True) := by
  obtain ⟨n, hn⟩ := inlineHdr_draws d s
  simp only [readRequest]
  rw [hn]
  refine Flow.Spec.draws (n := n) ?_
  split
  · exact (setBta_quiet true { s with draws := n }).bind (fun _ _ _ => trivial) fun _ _ t hr h =>
      (hdrWrite_quiet _ t).mono (fun _ _ _ _ k => Quiet.trans (s := { s with draws := n }) h hr k)
        (fun _ _ _ _ => trivial)
  · exact quiet_onOk (hdrWrite_quiet _ { s with draws := n }) fun t =>
      (setBta_quiet true t).bind (fun _ _ _ => trivial) fun _ _ u hr h =>
        Flow.Spec.done (by simpa [Quiet] using h)

end Sys2Proof.Machine
end

