-- ==== Sys2Proof/Tests/Slice0.lean ====
section
/-! SUPPORT. The model's own tests: an ill-formed operand for each check of 30_encoding R86, words written out
from the spec's encodings, and one or two vectors of 95_test_vectors per instruction. Every expected value is
the spec's. -/

namespace Sys2Proof.Tests

open Sys2Proof Sys2Proof.Machine

/-! ### Configuration T (95_test_vectors, section 0) -/

def paramsT (retryMax depth : Nat) : Params where
  retryMax := retryMax
  pollIntervalUs := 10
  pldFifoDepth := depth
  vc := 0
  offCmdPktStatus := 0x74
  offGenHdr := 0x6C
  offGenPldData := 0x70
  offCmdModeCfg := 0x68
  offPckhdlCfg := 0x2C
  offPhyStatus := 0xB0
  bitCmdEmpty := 0
  bitCmdFull := 1
  bitPldWEmpty := 2
  bitPldWFull := 3
  bitPldREmpty := 4
  bitPldRFull := 5
  bitAckRqstEn := 1
  bitBtaEn := 2
  phyDirPos := 1
  phyDirWidth := 2
  dirTx := 0
  dirRx := 1
  hdrDtPos := 0
  hdrVcPos := 6
  hdrWclPos := 8
  hdrWcmPos := 16
  dt := DataTypes.standard
  btaBeforeReadHdr := false

def configT : Config := ⟨paramsT 2 64, by decide⟩

/-- Configuration T, one `INIT` done, the given answers laid down. -/
def stateT (reads : List Word) : State :=
  { State.reset with cfg := configT, initialized := true, reads := reads }

/-- What an operation shows: its trace, its result and the response bytes. -/
def seen : Host.Outcome State Fault Refusal → Option (List Event × Option Result × Memory)
  | .next t => some (t.trace, t.result, t.response)
  | .fault _ => none
  | .refused _ => none

/-- The marks and the `busy` flag after an operation. -/
def marks : Host.Outcome State Fault Refusal → Option (Bool × Option Fault × Bool × Bool)
  | .next t => some (t.initialized, t.fault, t.refused, t.busy)
  | .fault _ => none
  | .refused _ => none

/-- A present payload. -/
def pld (bs : List Nat) : PayloadArg := ⟨bs.length, some bs⟩

/-- A present response buffer of `n` bytes. -/
def rsp (n : Nat) : ResponseArg := ⟨n, some (List.replicate n 0)⟩

def noRsp : ResponseArg := ⟨0, none⟩

def desc (vc dt : Nat) (p : PayloadArg) : Descriptor := ⟨vc, dt, p, noRsp, 0⟩

/-- `H(x)`, the gated header write, with `CMD_PKT_STATUS` reading 0. -/
def evH (x : Word) : List Event := [.rd 0x74 0, .wr 0x6C x]

/-- `P(x)`, the gated payload write. -/
def evP (x : Word) : List Event := [.rd 0x74 0, .wr 0x70 x]

/-- `D(x)`, the gated response read. -/
def evD (x : Word) : List Event := [.rd 0x74 0, .rd 0x70 x]

/-- `EN`. -/
def evEn : List Event := [.rd 0x68 0, .wr 0x68 2, .rd 0x2C 0, .wr 0x2C 4]

/-- `DIS`. -/
def evDis : List Event := [.rd 0x68 2, .wr 0x68 0, .rd 0x2C 4, .wr 0x2C 0]

/-- `A`. -/
def evA : List Event := [.rd 0xB0 2, .rd 0xB0 0]

/-! ### Configurations (R8) and operands (R86) -/

theorem test_config_default_checked : Config.check (paramsT 2 64) = some configT := by decide
theorem test_config_no_retry : Config.check (paramsT 0 64) = none := by decide
theorem test_config_depth_zero : Config.check (paramsT 2 0) = none := by decide
theorem test_config_depth_too_big : Config.check (paramsT 2 65536) = none := by decide
theorem test_config_misaligned : Config.check { paramsT 2 64 with offGenHdr := 0x6E } = none := by decide
theorem test_config_same_offset : Config.check { paramsT 2 64 with offGenHdr := 0x70 } = none := by decide
theorem test_config_field_out_of_word : Config.check { paramsT 2 64 with phyDirPos := 31 } = none := by decide
theorem test_config_overlapping_fields : Config.check { paramsT 2 64 with hdrVcPos := 5 } = none := by decide
theorem test_config_directions_equal : Config.check { paramsT 2 64 with dirRx := 0 } = none := by decide
theorem test_config_direction_too_wide : Config.check { paramsT 2 64 with dirTx := 4 } = none := by decide
theorem test_config_channel_too_big : Config.check { paramsT 2 64 with vc := 4 } = none := by decide

theorem test_wf_channel : (Instr.gsw (desc 4 0x03 (pld []))).wf = false := by decide
theorem test_wf_data_type : (Instr.grd (desc 0 0x40 (pld []))).wf = false := by decide
theorem test_wf_byte : (Instr.lw (desc 0 0x29 (pld [256]))).wf = false := by decide
theorem test_wf_response_len : (Instr.send (pld []) ⟨65536, none⟩ false).wf = false := by decide
theorem test_wf_payload_len : (Instr.dsw (desc 0 0x05 ⟨2, some [1]⟩)).wf = false := by decide
theorem test_wf_response_buffer : (Instr.send (pld []) ⟨2, some [0]⟩ false).wf = false := by decide
theorem test_wf_sel : (Instr.wait 6).wf = false := by decide
theorem test_wf_reserved : (Instr.reservedOp 0).wf = false := by decide
theorem test_wf_accepts : (Instr.grd ⟨3, 63, pld [255], rsp 2, 3⟩).wf = true := by decide

/-! ### Decoding, by words written out from R70, R76, R100 and the opcode table -/

theorem test_decode_init : decodeTableWord 8 0b0000 = some .init := by decide
theorem test_decode_send : decodeTableWord 8 0b0001 = some (.send ⟨0, none⟩ ⟨0, none⟩ false) := by decide
theorem test_decode_gsw : decodeTableWord 8 0b0010 = some (.gsw ⟨0, 0, ⟨0, none⟩, ⟨0, none⟩, 0⟩) := by decide
theorem test_decode_dsw : decodeTableWord 8 0b0011 = some (.dsw ⟨0, 0, ⟨0, none⟩, ⟨0, none⟩, 0⟩) := by decide
theorem test_decode_lw : decodeTableWord 8 0b0100 = some (.lw ⟨0, 0, ⟨0, none⟩, ⟨0, none⟩, 0⟩) := by decide
theorem test_decode_grd : decodeTableWord 8 0b0101 = some (.grd ⟨0, 0, ⟨0, none⟩, ⟨0, none⟩, 0⟩) := by decide
theorem test_decode_wait : decodeTableWord 8 0b0110 = some (.wait 0) := by decide
theorem test_decode_btaen : decodeTableWord 8 0b0111 = some .btaen := by decide
theorem test_decode_btadis : decodeTableWord 8 0b1000 = some .btadis := by decide
theorem test_decode_btawait : decodeTableWord 8 0b1001 = some .btawait := by decide
theorem test_decode_reserved_first : decodeTableWord 8 0b1010 = some (.reservedOp 0) := by decide
theorem test_decode_reserved_last : decodeTableWord 8 0b1111 = some (.reservedOp 5) := by decide
theorem test_decode_wait_w_not_full : decodeTableWord 8 0b0110000 = some .waitPldWNotFull := by decide
theorem test_decode_wait_w_empty : decodeTableWord 8 0b0110001 = some .waitPldWEmpty := by decide
theorem test_decode_wait_r_full : decodeTableWord 8 0b0110010 = some .waitPldRFull := by decide
theorem test_decode_wait_r_not_empty : decodeTableWord 8 0b0110011 = some .waitPldRNotEmpty := by decide
theorem test_decode_wait_c_not_full : decodeTableWord 8 0b0110100 = some .waitCmdNotFull := by decide
theorem test_decode_wait_c_empty : decodeTableWord 8 0b0110101 = some .waitCmdEmpty := by decide
theorem test_decode_wait_illegal_sel : decodeTableWord 8 0b0110110 = some (.wait 6) := by decide
theorem test_decode_not_a_wait : decode (.hostWait 0b0101000#7) = .error .notAWaitWord := by decide
theorem test_decode_gen_sw0 :
    decodeTableWord 32 0b00000000000000000000000000000011 = some (.hdrGenSw0 0 0 0) := by decide
theorem test_decode_gen_sw1 :
    decodeTableWord 32 0b00000000000000000011011000010011 = some (.hdrGenSw1 0 0x36 0) := by decide
theorem test_decode_gen_sw2 :
    decodeTableWord 32 0b00000000111111111111111111100011 = some (.hdrGenSw2 3 0xFF 0xFF) := by decide
theorem test_decode_gen_sr0 :
    decodeTableWord 32 0b00000000000000000000000000000100 = some (.hdrGenSr0 0 0 0) := by decide
theorem test_decode_gen_sr1 :
    decodeTableWord 32 0b00000000000000000000101000010100 = some (.hdrGenSr1 0 0x0A 0) := by decide
theorem test_decode_gen_sr2 :
    decodeTableWord 32 0b00000000000000100000000100100100 = some (.hdrGenSr2 0 0x01 0x02) := by decide
theorem test_decode_dcs_sw0 :
    decodeTableWord 32 0b00000000000000000010100001000101 = some (.hdrDcsSw0 1 0x28 0) := by decide
theorem test_decode_dcs_sw1 :
    decodeTableWord 32 0b00000000000000000001000100010101 = some (.hdrDcsSw1 0 0x11 0) := by decide
theorem test_decode_dcs_read :
    decodeTableWord 32 0b00000000000000000000000000000110 = some (.hdrDcsRead 0 0 0) := by decide
theorem test_decode_set_max_ret :
    decodeTableWord 32 0b00000000000000010000000000110111 = some (.hdrSetMaxRet 0 0 1) := by decide
theorem test_decode_gen_lw :
    decodeTableWord 32 0b00000000000000010010110000101001 = some (.hdrGenLw 0 0x2C 0x01) := by decide
theorem test_decode_dcs_lw :
    decodeTableWord 32 0b00000000000000000000001100111001 = some (.hdrDcsLw 0 3 0) := by decide
theorem test_decode_pld_word :
    decodeTableWord 32 0xDDCCBBAA = some (.pldWord 0xAA 0xBB 0xCC 0xDD) := by decide
theorem test_decode_unlisted_header : decode (.header 0x01000003) = .error .unlistedHeader := by decide

/-! ### One step each, the vectors of 95_test_vectors -/

/-- V-INIT-1. -/
theorem test_init : (step (State.reset.withFetchWord 8 0x0)) =
    .next { State.reset with initialized := true, result := some .ok } := by rfl

/-- V-INIT-4: an operation before `INIT`. -/
theorem test_not_initialized : seen (step (State.reset.withFetchWord 8 0x8)) =
    some ([], some .notInitialized, []) := by decide

/-- V-WAIT-10: a match on the last permitted read. -/
theorem test_wait_last_read : seen (exec (.wait 4) (stateT [2, 0])) =
    some ([.rd 0x74 2, .slp 10, .rd 0x74 0], some .ok, []) := by decide

/-- V-WAIT-15: `sel` 6 is refused. -/
theorem test_wait_refused : marks (exec (.wait 6) (stateT [])) = some (true, none, true, false) := by decide

/-- V-WAIT-1. -/
theorem test_wait_w_not_full : seen (exec .waitPldWNotFull (stateT [0])) =
    some ([.rd 0x74 0], some .ok, []) := by decide

/-- V-WAIT-8. -/
theorem test_wait_w_empty_timeout : seen (exec .waitPldWEmpty (stateT [0, 0])) =
    some ([.rd 0x74 0, .slp 10, .rd 0x74 0], some (.timeout .pldFifoWrite), []) := by decide

/-- V-WAIT-2. -/
theorem test_wait_w_empty : seen (exec .waitPldWEmpty (stateT [4])) =
    some ([.rd 0x74 4], some .ok, []) := by decide

/-- V-WAIT-3. -/
theorem test_wait_r_full : seen (exec .waitPldRFull (stateT [0x20])) =
    some ([.rd 0x74 0x20], some .ok, []) := by decide

/-- V-WAIT-9. -/
theorem test_wait_r_full_timeout : seen (exec .waitPldRFull (stateT [0, 0])) =
    some ([.rd 0x74 0, .slp 10, .rd 0x74 0], some (.timeout .pldFifoRead), []) := by decide

/-- V-WAIT-4. -/
theorem test_wait_r_not_empty : seen (exec .waitPldRNotEmpty (stateT [0])) =
    some ([.rd 0x74 0], some .ok, []) := by decide

/-- V-WAIT-12, with a budget of one read: no sleep. -/
theorem test_wait_r_not_empty_timeout :
    seen (exec .waitPldRNotEmpty { stateT [0x10] with cfg := ⟨paramsT 1 64, by decide⟩ }) =
    some ([.rd 0x74 0x10], some (.timeout .pldFifoRead), []) := by decide

/-- V-WAIT-11: bits outside the field are ignored. -/
theorem test_wait_c_not_full : seen (exec .waitCmdNotFull (stateT [0xFFFFFFFD])) =
    some ([.rd 0x74 0xFFFFFFFD], some .ok, []) := by decide

/-- V-WAIT-6. -/
theorem test_wait_c_empty : seen (exec .waitCmdEmpty (stateT [1])) =
    some ([.rd 0x74 1], some .ok, []) := by decide

/-- V-WAIT-7. -/
theorem test_wait_c_empty_timeout : seen (exec .waitCmdEmpty (stateT [0, 0])) =
    some ([.rd 0x74 0, .slp 10, .rd 0x74 0], some (.timeout .cmdFifo), []) := by decide

/-- V-GSW-3. -/
theorem test_gsw : seen (exec (.gsw (desc 0 0x23 (pld [0x11, 0x22]))) (stateT [0])) =
    some (evH 0x00221123, some .ok, []) := by decide

/-- V-GSW-4: one past the generic limit. -/
theorem test_gsw_too_long : seen (exec (.gsw (desc 0 0x23 (pld [0x11, 0x22, 0x33]))) (stateT [0])) =
    some ([], some .invalidArgument, []) := by decide

/-- V-DSW-6. -/
theorem test_dsw : seen (exec (.dsw (desc 1 0x05 (pld [0x28]))) (stateT [0])) =
    some (evH 0x00002845, some .ok, []) := by decide

/-- V-DSW-8: the command FIFO stays full. -/
theorem test_dsw_timeout : seen (exec (.dsw (desc 0 0x05 (pld [0x29]))) (stateT [2, 2])) =
    some ([.rd 0x74 2, .slp 10, .rd 0x74 2], some (.timeout .cmdFifo), []) := by decide

/-- V-LW-4. -/
theorem test_lw : seen (exec (.lw (desc 0 0x29 (pld [0xAA, 0xBB, 0xCC, 0xDD, 0xEE]))) (stateT [0, 0, 0])) =
    some (evP 0xDDCCBBAA ++ evP 0x000000EE ++ evH 0x00000529, some .ok, []) := by decide

/-- V-LW-8: longer than the FIFO depth. -/
theorem test_lw_depth : marks (exec (.lw (desc 0 0x29 (pld (List.replicate 65 1)))) (stateT [])) =
    some (true, some .payloadExceedsFifoDepth, false, false) := by decide

/-- V-GRD-5: a partial last word. -/
theorem test_grd : seen (exec (.grd ⟨0, 0x04, pld [], rsp 5, 0b10⟩)
      (stateT [0, 0, 0, 0, 2, 0, 0, 0x44332211, 0, 0x77665555, 2, 4])) =
    some (evH 0x00000537 ++ evH 0x00000004 ++ evEn ++ evA ++ evD 0x44332211 ++ evD 0x77665555 ++ evDis,
      some .ok, [(0, 0x11), (1, 0x22), (2, 0x33), (3, 0x44), (4, 0x55)]) := by decide

/-- V-GRD-9: a phase 2 timeout still disables BTA. -/
theorem test_grd_phase2 : seen (exec (.grd ⟨0, 0x04, pld [], rsp 0, 0⟩) (stateT [0, 0, 0, 2, 2, 2, 2, 4])) =
    some (evH 0x00000004 ++ evEn ++ [.rd 0xB0 2, .rd 0xB0 2, .slp 10, .rd 0xB0 2] ++ evDis,
      some (.timeout .btaPhase2), []) := by decide

/-- V-BTA-1: a bit already set is written unchanged. -/
theorem test_btaen : seen (exec .btaen (stateT [0, 0x1C])) =
    some ([.rd 0x68 0, .wr 0x68 2, .rd 0x2C 0x1C, .wr 0x2C 0x1C], some .ok, []) := by decide

/-- V-BTA-4: other bits preserved. -/
theorem test_btadis : seen (exec .btadis (stateT [0xFFFFFFFF, 0xFFFFFFFF])) =
    some ([.rd 0x68 0xFFFFFFFF, .wr 0x68 0xFFFFFFFD, .rd 0x2C 0xFFFFFFFF, .wr 0x2C 0xFFFFFFFB],
      some .ok, []) := by decide

/-- V-BTA-5: no sleep between the phases. -/
theorem test_btawait : seen (exec .btawait (stateT [0, 2, 0])) =
    some ([.rd 0xB0 0, .slp 10, .rd 0xB0 2, .rd 0xB0 0], some .ok, []) := by decide

/-- V-BTA-9: direction values 3 and 2 end both phases. -/
theorem test_btawait_other : seen (exec .btawait (stateT [6, 4])) =
    some ([.rd 0xB0 6, .rd 0xB0 4], some .ok, []) := by decide

/-- L1-1, the source's read scenario. -/
theorem test_send_read : seen (exec (.send ⟨0, none⟩ (rsp 4) false)
      (stateT [0, 0, 0, 0, 2, 0, 0, 0x44332211, 2, 4])) =
    some (evH 0x00000437 ++ evH 0x00000004 ++ evEn ++ evA ++ evD 0x44332211 ++ evDis,
      some .ok, [(0, 0x11), (1, 0x22), (2, 0x33), (3, 0x44)]) := by decide

/-- V-SEND-10: a DCS write of two bytes. -/
theorem test_send_rejected : seen (exec (.send (pld [0x11, 0x22]) ⟨0, none⟩ true) (stateT [])) =
    some ([], some .invalidArgument, []) := by decide

/-- V-X-1. -/
theorem test_reserved : marks (exec (.reservedOp 0) (stateT [])) = some (true, none, true, false) := by decide

/-- V-X-4: the platform hangs in a `send`, and a second one overlaps it. -/
theorem test_overlap : marks ((core.run 2 { stateT [] with
      port := [.present (encode (.send ⟨0, none⟩ ⟨0, none⟩ false)) [] [],
               .present (encode (.send ⟨0, none⟩ ⟨0, none⟩ false)) [] []],
      stallAfter := some 0 })) = some (true, some .overlappingCommand, false, true) := by decide

/-- R250: reset clears the marks and emits nothing. -/
theorem test_reset : step { stateT [] with
      busy := true, fault := some .overlappingCommand, refused := true, port := [.reset] } =
    .next { stateT [] with initialized := false } := by rfl

/-- The words of R70's default layout, each issued alone. -/
theorem test_hdr_gen_sw0 : seen (exec (.hdrGenSw0 0 0 0) (stateT [0])) =
    some (evH 0x00000003, some .ok, []) := by decide
theorem test_hdr_gen_sw1 : seen (exec (.hdrGenSw1 0 0x36 0) (stateT [0])) =
    some (evH 0x00003613, some .ok, []) := by decide
theorem test_hdr_gen_sw2 : seen (exec (.hdrGenSw2 3 0xFF 0xFF) (stateT [0])) =
    some (evH 0x00FFFFE3, some .ok, []) := by decide
theorem test_hdr_gen_sr0 : seen (exec (.hdrGenSr0 0 0 0) (stateT [0])) =
    some (evH 0x00000004, some .ok, []) := by decide
theorem test_hdr_gen_sr1 : seen (exec (.hdrGenSr1 0 0x0A 0) (stateT [0])) =
    some (evH 0x00000A14, some .ok, []) := by decide
theorem test_hdr_gen_sr2 : seen (exec (.hdrGenSr2 0 1 2) (stateT [0])) =
    some (evH 0x00020124, some .ok, []) := by decide
theorem test_hdr_dcs_sw0 : seen (exec (.hdrDcsSw0 0 0x29 0) (stateT [0])) =
    some (evH 0x00002905, some .ok, []) := by decide
theorem test_hdr_dcs_sw1 : seen (exec (.hdrDcsSw1 0 0x11 0) (stateT [0])) =
    some (evH 0x00001115, some .ok, []) := by decide
theorem test_hdr_dcs_read : seen (exec (.hdrDcsRead 0 0 0) (stateT [0])) =
    some (evH 0x00000006, some .ok, []) := by decide
theorem test_hdr_set_max_ret : seen (exec (.hdrSetMaxRet 0 4 0) (stateT [0])) =
    some (evH 0x00000437, some .ok, []) := by decide
theorem test_hdr_gen_lw : seen (exec (.hdrGenLw 0 0x2C 0x01) (stateT [0])) =
    some (evH 0x00012C29, some .ok, []) := by decide
theorem test_hdr_dcs_lw : seen (exec (.hdrDcsLw 0 3 0) (stateT [0])) =
    some (evH 0x00000339, some .ok, []) := by decide
theorem test_pld_word : seen (exec (.pldWord 0xAA 0xBB 0xCC 0xDD) (stateT [0])) =
    some (evP 0xDDCCBBAA, some .ok, []) := by decide

end Sys2Proof.Tests
end

