-- ==== Sys2Proof/Tests/Witnesses.lean ====
section
/-! SUPPORT. For every obligation with hypotheses, concrete states and operands that meet them all, and one for
each clause at a boundary of its range. Configuration T throughout (two reads a poll, depth 64). -/

namespace Sys2Proof.Tests

open Sys2Proof Sys2Proof.Machine Sys2Proof.Claims

/-! ### Shapes used below -/

/-- Ready, live and stable. -/
theorem stateT_ready (l : List Word) : Ready (stateT l) ∧ Live (stateT l) ∧ Stable (stateT l) :=
  ⟨⟨rfl, rfl, rfl⟩, rfl, rfl, rfl⟩

/-- A long write of five bytes. -/
def lw5 : Descriptor := desc 0 0x29 (pld [0xAA, 0xBB, 0xCC, 0xDD, 0xEE])

/-- A read of five bytes with SET_MAX. -/
def grd5 : Descriptor := ⟨0, 0x04, pld [], rsp 5, 0b10⟩

/-- The answers to it. -/
def answers5 : ReadAnswers := ⟨0, 0, 0, 0, 2, 0, [(0, 0x44332211), (0, 0x77665555)], 2, 4⟩

/-- One `BTAEN` on the port. -/
def portT : State := { stateT [] with port := [.present (.hostOp 0x7#4 {}) [] []] }

/-! ### Encoding -/

theorem witness_HeaderOutsideFieldsZero :
    (¬ (configT.hdrDtPos ≤ 24 ∧ 24 < configT.hdrDtPos + 6) ∧ ¬ (configT.hdrVcPos ≤ 24 ∧ 24 < configT.hdrVcPos + 2) ∧
      ¬ (configT.hdrWclPos ≤ 24 ∧ 24 < configT.hdrWclPos + 8) ∧
      ¬ (configT.hdrWcmPos ≤ 24 ∧ 24 < configT.hdrWcmPos + 8)) ∧
    (configT.hdrDtPos = 0 ∧ configT.hdrVcPos = 6 ∧ configT.hdrWclPos = 8 ∧ configT.hdrWcmPos = 16) := by decide

theorem witness_PayloadWordLittleEndian :
    (3 < 4 ∧ 4 * 0 + 3 < [1#8, 2#8, 3#8, 4#8, 5#8].length) ∧
    (1 < 4 ∧ ¬ 4 * 1 + 1 < [1#8, 2#8, 3#8, 4#8, 5#8].length) := by decide

theorem witness_ByteCountSplitExact : ∃ n, n ≤ 65535 ∧ n % 256 = 255 ∧ n / 256 = 255 := ⟨65535, by decide⟩

/-! ### The checks before the first event -/

theorem witness_RefusalSetsOnlyItsMark :
    (stateT []).fault = none ∧ (Instr.reservedOp 5).wf = false ∧ (Instr.wait 6).wf = false ∧
    (Instr.gsw (desc 4 0x03 (pld []))).wf = false := by decide

theorem witness_OverlapFaults : ({ stateT [] with busy := true } : State).fault = none ∧
    Instr.init.wf = true ∧ (Instr.lw lw5).wf = true ∧ ({ stateT [] with busy := true } : State).busy = true := by
  decide

theorem witness_GateBeforeInit : State.reset.fault = none ∧ State.reset.busy = false ∧
    State.reset.initialized = false ∧ (Instr.grd grd5).wf = true ∧ Instr.grd grd5 ≠ .init := by
  refine ⟨rfl, rfl, rfl, rfl, by simp⟩

theorem witness_InvalidArgumentCauses_gsw : Ready (stateT []) ∧
    (Instr.gsw (desc 0 0x23 (pld [1, 2, 3]))).wf = true ∧
    InvalidCause configT (.gsw (desc 0 0x23 (pld [1, 2, 3]))) :=
  ⟨(stateT_ready []).1, rfl, fun h => absurd h.1 (by decide)⟩

theorem witness_InvalidArgumentCauses_dsw : Ready (stateT []) ∧
    (Instr.dsw (desc 0 0x05 (pld [1, 2]))).wf = true ∧ InvalidCause configT (.dsw (desc 0 0x05 (pld [1, 2]))) :=
  ⟨(stateT_ready []).1, rfl, fun h => absurd h.1 (by decide)⟩

theorem witness_InvalidArgumentCauses_lw : Ready (stateT []) ∧ (Instr.lw (desc 0 0x29 ⟨1, none⟩)).wf = true ∧
    InvalidCause configT (.lw (desc 0 0x29 ⟨1, none⟩)) :=
  ⟨(stateT_ready []).1, rfl, fun h => h.elim (by decide) (fun h => h rfl)⟩

theorem witness_InvalidArgumentCauses_grd : Ready (stateT []) ∧ (Instr.grd (desc 0 0x04 (pld []))).wf = true ∧
    InvalidCause configT (.grd (desc 0 0x04 (pld []))) :=
  ⟨(stateT_ready []).1, rfl, fun h => h.2.2 rfl⟩

theorem witness_InvalidArgumentCauses_send : Ready (stateT []) ∧
    (Instr.send ⟨1, none⟩ noRsp false).wf = true ∧ InvalidCause configT (.send ⟨1, none⟩ noRsp false) ∧
    (Instr.send ⟨0, none⟩ ⟨1, none⟩ false).wf = true ∧ InvalidCause configT (.send ⟨0, none⟩ ⟨1, none⟩ false) ∧
    (Instr.send (pld [1, 2]) noRsp true).wf = true ∧ InvalidCause configT (.send (pld [1, 2]) noRsp true) ∧
    (Instr.send (pld [1, 2, 3]) (rsp 1) false).wf = true ∧
    InvalidCause configT (.send (pld [1, 2, 3]) (rsp 1) false) := by
  refine ⟨(stateT_ready []).1, rfl, .inl ?_, rfl, .inr (.inl ⟨by decide, rfl⟩), rfl,
    .inr (.inr (.inr (.inl ⟨rfl, rfl⟩))), rfl, .inr (.inr (.inr (.inr ⟨by decide, by decide⟩)))⟩
  exact fun h => h.elim (by decide) (fun h => h rfl)

theorem witness_InvalidArgumentOnlyForCause : Ready (stateT []) ∧
    (Instr.send (pld [1]) (rsp 1) true).wf = true ∧
    ∃ t, exec (.send (pld [1]) (rsp 1) true) (stateT []) = .next t ∧ t.result = some .invalidArgument :=
  ⟨(stateT_ready []).1, rfl, _, rfl, rfl⟩

theorem witness_LongWriteChecksInOrder_null : Ready (stateT []) ∧ (desc 0 0x29 ⟨65, none⟩).wf = true ∧
    ¬ Given (desc 0 0x29 ⟨65, none⟩).payload :=
  ⟨(stateT_ready []).1, rfl, fun h => h.elim (by decide) (fun h => h rfl)⟩

/-- One byte past the depth: `LW`, and a long-write row of `SEND` with no buffer and with an empty one. -/
theorem witness_LongWriteChecksInOrder_depth : Ready (stateT []) ∧
    (let p := pld (List.replicate 65 1)
     LongWriteAsked (stateT []).cfg (.lw (desc 0 0x29 p)) (desc 0 0x29 p) ∧
     LongWriteAsked (stateT []).cfg (.send p noRsp false) (descriptorFor configT 0x29 p noRsp 0b00) ∧
     LongWriteAsked (stateT []).cfg (.send p (rsp 0) true) (descriptorFor configT 0x39 p (rsp 0) 0b00) ∧
     (stateT []).cfg.pldFifoDepth < p.len) :=
  ⟨(stateT_ready []).1, .inl ⟨rfl, by decide, .inr (by simp [desc, pld])⟩,
    .inr ⟨_, _, false, 0x29, rfl, by decide, rfl, .inr (by simp [pld]), rfl, by decide, by decide, rfl⟩,
    .inr ⟨_, _, true, 0x39, rfl, by decide, rfl, .inr (by simp [pld]), rfl, by decide, by decide, rfl⟩, by decide⟩

theorem witness_EveryOperationEnds : (State.reset.fault = none ∧ State.reset.busy = false ∧ Live State.reset) ∧
    (stateT []).fault = none ∧ (stateT []).busy = false ∧ Live (stateT []) ∧ (Instr.grd grd5).wf = true :=
  ⟨⟨rfl, rfl, rfl⟩, rfl, rfl, rfl, rfl⟩

theorem witness_NoPartialDispatch :
    (∃ t, exec (.send (pld [1, 2]) noRsp true) (stateT []) = .next t ∧ t.result = some .invalidArgument) ∧
    (∃ t, exec (.send (pld [1]) noRsp true) State.reset = .next t ∧ t.result = some .notInitialized) ∧
    (∃ t, exec (.send (pld (List.replicate 65 1)) noRsp true) (stateT []) = .next t ∧ t.fault ≠ none) :=
  ⟨⟨_, rfl, rfl⟩, ⟨_, rfl, rfl⟩, _, rfl, by decide⟩

theorem witness_FaultedBlockRunsNothing :
    ({ stateT [] with fault := some .payloadExceedsFifoDepth } : State).fault = some .payloadExceedsFifoDepth := rfl

theorem witness_InitMakesReady : State.reset.fault = none ∧ State.reset.busy = false := by decide

theorem witness_InitIsIdempotent : (stateT []).fault = none ∧ (stateT []).busy = false := by decide

/-! ### The poller -/

theorem witness_NamedWaitReturnsOk : Ready (stateT [2, 0]) ∧ Live (stateT [2, 0]) ∧
    (⟨4, .waitCmdNotFull, 1, 0, .cmdFifo⟩ : WaitRow) ∈ waitRows (stateT [2, 0]).cfg ∧
    1 < (stateT [2, 0]).cfg.retryMax ∧ (stateT [2, 0]).FirstHit (fieldIs 1 1 0) 0 1 :=
  ⟨(stateT_ready _).1, rfl, by simp [waitRows, stateT, configT, paramsT], by decide, by decide, by decide⟩

theorem witness_NamedWaitTimesOut : Ready (stateT [0, 0]) ∧ Live (stateT [0, 0]) ∧
    (⟨1, .waitPldWEmpty, 2, 1, .pldFifoWrite⟩ : WaitRow) ∈ waitRows (stateT [0, 0]).cfg ∧
    (stateT [0, 0]).AllMiss (fieldIs 2 1 1) 0 (stateT [0, 0]).cfg.retryMax := by
  refine ⟨(stateT_ready _).1, rfl, by simp [waitRows, stateT, configT, paramsT], ?_⟩
  unfold State.AllMiss
  decide

theorem witness_PollHasNoSideEffects : Ready (stateT [0x20]) ∧
    (⟨2, .waitPldRFull, 5, 1, .pldFifoRead⟩ : WaitRow) ∈ waitRows (stateT [0x20]).cfg ∧
    ∃ t, exec (.wait 2) (stateT [0x20]) = .next t :=
  ⟨(stateT_ready _).1, by simp [waitRows, stateT, configT, paramsT], _, rfl⟩

/-! ### The packet encoder -/

theorem witness_GswWritesItsHeader : Ready (stateT [2, 0]) ∧ Live (stateT [2, 0]) ∧ Stable (stateT [2, 0]) ∧
    (desc 3 0x23 (pld [0x11, 0xFF])).wf = true ∧ GswValid (stateT [2, 0]).cfg (desc 3 0x23 (pld [0x11, 0xFF])) ∧
    1 < (stateT [2, 0]).cfg.retryMax ∧ (stateT [2, 0]).FirstHit (cmdFree (stateT [2, 0]).cfg) 0 1 :=
  ⟨(stateT_ready _).1, rfl, ⟨rfl, rfl⟩, by decide, ⟨by decide, .inr (by simp [desc, pld]), by decide⟩, by decide,
    by decide, by decide⟩

theorem witness_DswWritesItsHeader : Ready (stateT [0]) ∧ Live (stateT [0]) ∧ Stable (stateT [0]) ∧
    (desc 1 0x15 (pld [0x28])).wf = true ∧ DswValid (stateT [0]).cfg (desc 1 0x15 (pld [0x28])) ∧
    0 < (stateT [0]).cfg.retryMax ∧ (stateT [0]).FirstHit (cmdFree (stateT [0]).cfg) 0 0 :=
  ⟨(stateT_ready _).1, rfl, ⟨rfl, rfl⟩, by decide, ⟨by decide, .inr (by simp [desc, pld]), by decide⟩, by decide,
    by decide, by decide⟩

theorem full_allMiss : (stateT [2, 2]).AllMiss (cmdFree (stateT [2, 2]).cfg) 0 (stateT [2, 2]).cfg.retryMax := by
  unfold State.AllMiss
  decide

theorem witness_ShortWriteTimesOut : Ready (stateT [2, 2]) ∧ Live (stateT [2, 2]) ∧ Stable (stateT [2, 2]) ∧
    (desc 0 0x03 (pld [])).wf = true ∧ GswValid (stateT [2, 2]).cfg (desc 0 0x03 (pld [])) ∧
    (desc 0 0x05 (pld [])).wf = true ∧ DswValid (stateT [2, 2]).cfg (desc 0 0x05 (pld [])) ∧
    (stateT [2, 2]).AllMiss (cmdFree (stateT [2, 2]).cfg) 0 (stateT [2, 2]).cfg.retryMax :=
  ⟨(stateT_ready _).1, rfl, ⟨rfl, rfl⟩, by decide, ⟨by decide, .inl rfl, by decide⟩, by decide,
    ⟨by decide, .inl rfl, by decide⟩, full_allMiss⟩

theorem witness_HeaderWordIsGatedWrite :
    (Ready (stateT [2, 0]) ∧ Live (stateT [2, 0]) ∧
      (Instr.hdrDcsLw, 0x39#6) ∈ headerRows (stateT [2, 0]).cfg ∧ 1 < (stateT [2, 0]).cfg.retryMax ∧
      (stateT [2, 0]).FirstHit (cmdFree (stateT [2, 0]).cfg) 0 1) ∧
    (Ready (stateT [2, 2]) ∧ Live (stateT [2, 2]) ∧
      (Instr.hdrGenSw0, 0x03#6) ∈ headerRows (stateT [2, 2]).cfg ∧
      (stateT [2, 2]).AllMiss (cmdFree (stateT [2, 2]).cfg) 0 (stateT [2, 2]).cfg.retryMax) :=
  ⟨⟨(stateT_ready _).1, rfl, by simp [headerRows, stateT, configT, paramsT, DataTypes.standard], by decide,
      by decide, by decide⟩,
    (stateT_ready _).1, rfl, by simp [headerRows, stateT, configT, paramsT, DataTypes.standard], full_allMiss⟩

theorem witness_PayloadWordIsGatedWrite :
    (Ready (stateT [8, 0]) ∧ Live (stateT [8, 0]) ∧ 1 < (stateT [8, 0]).cfg.retryMax ∧
      (stateT [8, 0]).FirstHit (pldWFree (stateT [8, 0]).cfg) 0 1) ∧
    (Ready (stateT [8, 8]) ∧ Live (stateT [8, 8]) ∧
      (stateT [8, 8]).AllMiss (pldWFree (stateT [8, 8]).cfg) 0 (stateT [8, 8]).cfg.retryMax) := by
  refine ⟨⟨(stateT_ready _).1, rfl, by decide, by decide, by decide⟩, (stateT_ready _).1, rfl, ?_⟩
  unfold State.AllMiss
  decide

theorem lw5_runs (l : List Word) : LongWriteRuns (stateT l).cfg (.lw lw5) lw5 :=
  ⟨by show 5 ≤ 64; decide, .inl ⟨rfl, rfl, .inr (by simp [lw5, desc, pld])⟩⟩

/-- A long-write row of `SEND`, at the shortest long length, with no buffer. -/
theorem send3_runs (l : List Word) : LongWriteRuns (stateT l).cfg (.send (pld [1, 2, 3]) noRsp true)
    (descriptorFor (stateT l).cfg 0x39 (pld [1, 2, 3]) noRsp 0b00) :=
  ⟨by show 3 ≤ 64; decide, .inr ⟨_, _, _, 0x39, rfl, rfl, rfl, .inr (by simp [pld]), rfl, by decide,
    by simp [longRows, stateT, configT, paramsT, DataTypes.standard], rfl⟩⟩

/-- The same with a present buffer of length 0. -/
theorem send3_empty_runs (l : List Word) : LongWriteRuns (stateT l).cfg (.send (pld [1, 2, 3]) (rsp 0) true)
    (descriptorFor (stateT l).cfg 0x39 (pld [1, 2, 3]) (rsp 0) 0b00) :=
  ⟨by show 3 ≤ 64; decide, .inr ⟨_, _, _, 0x39, rfl, rfl, rfl, .inr (by simp [pld]), rfl, by decide,
    by simp [longRows, stateT, configT, paramsT, DataTypes.standard], rfl⟩⟩

theorem witness_LongWriteEventByEvent : Ready (stateT [0, 0, 0]) ∧ Live (stateT [0, 0, 0]) ∧
    Stable (stateT [0, 0, 0]) ∧ LongWriteRuns (stateT [0, 0, 0]).cfg (.lw lw5) lw5 ∧
    LongWriteRuns (stateT [0, 0, 0]).cfg (.send (pld [1, 2, 3]) (rsp 0) true)
      (descriptorFor (stateT [0, 0, 0]).cfg 0x39 (pld [1, 2, 3]) (rsp 0) 0b00) ∧
    (∀ j, j < (lw5.payload.len + 3) / 4 →
      pldWFree (stateT [0, 0, 0]).cfg ((stateT [0, 0, 0]).peek j) = true) ∧
    cmdFree (stateT [0, 0, 0]).cfg ((stateT [0, 0, 0]).peek ((lw5.payload.len + 3) / 4)) = true :=
  ⟨(stateT_ready _).1, rfl, ⟨rfl, rfl⟩, lw5_runs _, send3_empty_runs _, by decide, by decide⟩

theorem witness_LongWriteCourse : Ready (stateT [8, 8]) ∧ Live (stateT [8, 8]) ∧ Stable (stateT [8, 8]) ∧
    LongWriteRuns (stateT [8, 8]).cfg (.lw lw5) lw5 ∧
    LongWriteRuns (stateT [8, 8]).cfg (.send (pld [1, 2, 3]) noRsp true)
      (descriptorFor (stateT [8, 8]).cfg 0x39 (pld [1, 2, 3]) noRsp 0b00) ∧
    LongWriteRuns (stateT [8, 8]).cfg (.send (pld [1, 2, 3]) (rsp 0) true)
      (descriptorFor (stateT [8, 8]).cfg 0x39 (pld [1, 2, 3]) (rsp 0) 0b00) :=
  ⟨(stateT_ready _).1, rfl, ⟨rfl, rfl⟩, lw5_runs _, send3_runs _, send3_empty_runs _⟩

theorem witness_LongWriteRoundTrip : Ready (stateT [0, 0, 0]) ∧ Stable (stateT [0, 0, 0]) ∧
    LongWriteRuns (stateT [0, 0, 0]).cfg (.lw lw5) lw5 ∧
    ∃ t, exec (.lw lw5) (stateT [0, 0, 0]) = .next t ∧ t.result = some .ok ∧
      t.trace = (stateT [0, 0, 0]).trace ++ (evP 0xDDCCBBAA ++ evP 0x000000EE ++ evH 0x00000529) ∧
      writes (evP 0xDDCCBBAA ++ evP 0x000000EE ++ evH 0x00000529) =
        [0xDDCCBBAA, 0x000000EE].map (fun w => ((stateT [0, 0, 0]).cfg.offGenPldData, w)) ++
          [((stateT [0, 0, 0]).cfg.offGenHdr, 0x00000529)] :=
  ⟨(stateT_ready _).1, ⟨rfl, rfl⟩, lw5_runs _, _, rfl, by decide, by decide, by decide⟩

theorem witness_OkWriteEndsWithHeader : Ready (stateT [0, 0]) ∧
    (∃ t, exec (.gsw (desc 0 0x03 (pld []))) (stateT [0, 0]) = .next t ∧ t.result = some .ok) ∧
    (∃ t, exec (.dsw (desc 0 0x05 (pld []))) (stateT [0, 0]) = .next t ∧ t.result = some .ok) ∧
    (∃ t, exec (.lw (desc 0 0x29 (pld []))) (stateT [0, 0]) = .next t ∧ t.result = some .ok) ∧
    (∃ t, exec (.send (pld [1, 2, 3]) noRsp true) (stateT [0, 0]) = .next t ∧ t.result = some .ok) ∧
    noRsp.len = 0 :=
  ⟨(stateT_ready _).1, ⟨_, rfl, by decide⟩, ⟨_, rfl, by decide⟩, ⟨_, rfl, by decide⟩, ⟨_, rfl, by decide⟩, rfl⟩

/-! ### Bus turn-around -/

theorem witness_BtaenSetsBothBits : Ready (stateT [0, 0x1C]) ∧ Live (stateT [0, 0x1C]) :=
  ⟨(stateT_ready _).1, rfl⟩

theorem witness_BtadisClearsBothBits : Ready (stateT [2, 4]) ∧ Live (stateT [2, 4]) := ⟨(stateT_ready _).1, rfl⟩

theorem witness_FieldWriteKeepsOtherBits : 31 < 32 ∧ (0x80000000#32).getLsbD 31 = true := by decide

theorem witness_BtaStateFollowsOwnWrites : Ready (stateT []) ∧ Live (stateT []) := ⟨(stateT_ready _).1, rfl⟩

theorem witness_BtawaitReturnsOk :
    (let s := stateT [0, 2, 2, 0]
     Ready s ∧ Live s ∧ 1 < s.cfg.retryMax ∧
     (∀ m, m < 1 → ShowsDir s.cfg (s.peek m) s.cfg.dirTx) ∧ ¬ ShowsDir s.cfg (s.peek 1) s.cfg.dirTx ∧
     (∀ m, m < 1 → ShowsDir s.cfg (s.peek (1 + 1 + m)) s.cfg.dirRx) ∧
     ¬ ShowsDir s.cfg (s.peek (1 + 1 + 1)) s.cfg.dirRx) := by
  refine ⟨(stateT_ready _).1, rfl, ?_⟩
  unfold ShowsDir
  decide

theorem witness_BtawaitTimesOut :
    (let s := stateT [0, 0]
     Ready s ∧ Live s ∧ ∀ m, m < s.cfg.retryMax → ShowsDir s.cfg (s.peek m) s.cfg.dirTx) ∧
    (let s := stateT [0, 2, 2, 2]
     Ready s ∧ Live s ∧ 1 < s.cfg.retryMax ∧
     (∀ m, m < 1 → ShowsDir s.cfg (s.peek m) s.cfg.dirTx) ∧ ¬ ShowsDir s.cfg (s.peek 1) s.cfg.dirTx ∧
     ∀ m, m < s.cfg.retryMax → ShowsDir s.cfg (s.peek (1 + 1 + m)) s.cfg.dirRx) := by
  refine ⟨⟨(stateT_ready _).1, rfl, ?_⟩, (stateT_ready _).1, rfl, ?_⟩
  · unfold ShowsDir
    decide
  · unfold ShowsDir
    decide

/-! ### The dispatcher and the read path -/

theorem witness_ClassificationRows : 3 ≤ 3 := Nat.le_refl 3

/-- A read row, each short-write row's component, a long-write row. -/
theorem witness_SendRunsItsComponent :
    ((pld [1, 2]).wf = true ∧ (rsp 4).wf = true ∧ Given (pld [1, 2]) ∧
      ((pld [1, 2]).len, false, 0x24#6) ∈ readRows (stateT []).cfg ∧ 0 < (rsp 4).len ∧ (rsp 4).buffer ≠ none) ∧
    ((pld [1]).wf = true ∧ noRsp.wf = true ∧ (rsp 0).wf = true ∧ Given (pld [1]) ∧ noRsp.len = 0 ∧
      (rsp 0).len = 0 ∧
      ((pld [1]).len, false, 0x13#6) ∈ shortWriteRows (stateT []).cfg ∧
      ((pld [1]).len, true, 0x05#6) ∈ shortWriteRows (stateT []).cfg) ∧
    ((pld [1, 2, 3]).wf = true ∧ Given (pld [1, 2, 3]) ∧ 3 ≤ (pld [1, 2, 3]).len ∧
      (false, 0x29#6) ∈ longRows (stateT []).cfg) := by
  refine ⟨⟨rfl, rfl, .inr (by simp [pld]), by decide, by decide, by simp [rsp]⟩,
    ⟨rfl, rfl, rfl, .inr (by simp [pld]), rfl, rfl, by decide, by decide⟩,
    rfl, .inr (by simp [pld]), by decide, by decide⟩

theorem witness_SendShortWriteRows : Ready (stateT [2, 0]) ∧ Live (stateT [2, 0]) ∧ Stable (stateT [2, 0]) ∧
    (pld [1, 2]).wf = true ∧ noRsp.wf = true ∧ (rsp 0).wf = true ∧ Given (pld [1, 2]) ∧ noRsp.len = 0 ∧
    (rsp 0).len = 0 ∧ ((pld [1, 2]).len, false, 0x23#6) ∈ shortWriteRows (stateT [2, 0]).cfg ∧
    1 < (stateT [2, 0]).cfg.retryMax ∧ (stateT [2, 0]).FirstHit (cmdFree (stateT [2, 0]).cfg) 0 1 :=
  ⟨(stateT_ready _).1, rfl, ⟨rfl, rfl⟩, rfl, rfl, rfl, .inr (by simp [pld]), rfl, rfl, by decide, by decide,
    by decide, by decide⟩

theorem grd5_runs (l : List Word) : ReadRuns (stateT l).cfg (.grd grd5) grd5 :=
  .inl ⟨rfl, rfl, by decide, .inl rfl, by simp [grd5, rsp]⟩

/-- A read row of `SEND`, at the largest inline payload. -/
theorem send_read_runs (l : List Word) : ReadRuns (stateT l).cfg (.send (pld [1, 2]) (rsp 1) false)
    (descriptorFor (stateT l).cfg 0x24 (pld [1, 2]) (rsp 1) 0b11) :=
  .inr ⟨_, _, _, 0x24, rfl, rfl, rfl, .inr (by simp [pld]), by decide, by simp [rsp],
    by simp [readRows, stateT, configT, paramsT, DataTypes.standard, pld], rfl⟩

theorem witness_ReadEventByEvent :
    Ready (stateT (answers5.inOrder configT grd5)) ∧ Live (stateT (answers5.inOrder configT grd5)) ∧
    Stable (stateT (answers5.inOrder configT grd5)) ∧ ReadRuns configT (.grd grd5) grd5 ∧
    answers5.words.length = (grd5.response.len + 3) / 4 ∧ answers5.AllHit configT ∧
    (stateT (answers5.inOrder configT grd5)).reads = answers5.inOrder configT grd5 ++ [] :=
  ⟨(stateT_ready _).1, rfl, ⟨rfl, rfl⟩, grd5_runs [], rfl,
    ⟨by decide, by decide, by decide, by decide, by
      intro w hw
      simp only [answers5, List.mem_cons, List.not_mem_nil, or_false] at hw
      rcases hw with rfl | rfl <;> decide⟩, by simp [stateT]⟩

theorem witness_ReadAlwaysDisablesBta : Ready (stateT [2, 2]) ∧ Live (stateT [2, 2]) ∧
    ReadRuns (stateT [2, 2]).cfg (.grd grd5) grd5 ∧
    ReadRuns (stateT [2, 2]).cfg (.send (pld [1, 2]) (rsp 1) false)
      (descriptorFor (stateT [2, 2]).cfg 0x24 (pld [1, 2]) (rsp 1) 0b11) ∧
    (desc 0 0x04 (pld [1, 2, 3])).wf = true ∧ ¬ GrdValid (desc 0 0x04 (pld [1, 2, 3])) :=
  ⟨(stateT_ready _).1, rfl, grd5_runs _, send_read_runs _, rfl, fun h => absurd h.1 (by decide)⟩

theorem witness_ReadUnpacksResponse :
    Ready (stateT [0, 0, 0, 0, 2, 0, 0, 0x44332211, 0, 0x77665555, 2, 4]) ∧
    Stable (stateT [0, 0, 0, 0, 2, 0, 0, 0x44332211, 0, 0x77665555, 2, 4]) ∧
    ReadRuns (stateT [0, 0, 0, 0, 2, 0, 0, 0x44332211, 0, 0x77665555, 2, 4]).cfg (.grd grd5) grd5 ∧
    ∃ t, exec (.grd grd5) (stateT [0, 0, 0, 0, 2, 0, 0, 0x44332211, 0, 0x77665555, 2, 4]) = .next t ∧
      t.result = some .ok ∧
      t.trace = (stateT [0, 0, 0, 0, 2, 0, 0, 0x44332211, 0, 0x77665555, 2, 4]).trace ++ t.trace :=
  ⟨(stateT_ready _).1, ⟨rfl, rfl⟩, grd5_runs _, _, rfl, by decide, rfl⟩

/-! ### Frames and bounds -/

theorem witness_FrameOfWritingOperations :
    lendsNothing .init = true ∧ (∃ t, exec .init State.reset = .next t) ∧
    (∃ t, exec .init { stateT [] with busy := true } = .next t) ∧
    lendsNothing (.lw lw5) = true ∧ (∃ t, exec (.lw lw5) (stateT [0, 0, 0]) = .next t) ∧
    (Instr.reservedOp 0).wf = false ∧ (∃ t, exec (.reservedOp 0) { stateT [] with busy := true } = .next t) :=
  ⟨rfl, ⟨_, rfl⟩, ⟨_, rfl⟩, rfl, ⟨_, rfl⟩, rfl, ⟨_, rfl⟩⟩

theorem witness_FrameOfReadingOperations :
    lendsNothing (.grd grd5) = false ∧ (∃ t, exec (.grd grd5) (stateT [2, 2]) = .next t) ∧
    lentBy (.grd grd5) = some [0, 0, 0, 0, 0] ∧
    lendsNothing (.send (pld [1]) noRsp false) = false ∧
    (∃ t, exec (.send (pld [1]) noRsp false) (stateT [0]) = .next t) ∧
    lentBy (.send (pld [1]) noRsp false) = none :=
  ⟨rfl, ⟨_, rfl⟩, rfl, rfl, ⟨_, rfl⟩, rfl⟩

/-- A wait whose two reads miss emits exactly its bound. -/
theorem witness_EventsAreBounded : ∃ t, exec .waitCmdEmpty (stateT [0, 0]) = .next t ∧
    t.trace.length = (stateT [0, 0]).trace.length + eventBound (stateT [0, 0]).cfg .waitCmdEmpty :=
  ⟨_, rfl, by decide⟩

/-- A ready block after an earlier operation, and the same block with no history. -/
def afterEarlier : State :=
  { stateT [2, 2, 2, 4] with trace := [.slp 10], refused := true, response := [(0, 7)] }

theorem witness_HistoryHasNoInfluence :
    SameButHistory afterEarlier (stateT [2, 2, 2, 4]) ∧ lentBy (.grd grd5) ≠ none ∧ Ready afterEarlier ∧
    (Instr.grd grd5).wf = true ∧ ∃ t, exec (.grd grd5) afterEarlier = .next t ∧ t.fault = none :=
  ⟨rfl, by simp [lentBy, grd5, rsp], ⟨rfl, rfl, rfl⟩, rfl, _, rfl, by decide⟩

/-! ### Steps and invariants -/

theorem witness_StepRunsThePresentedOperation :
    (portT.port = .present (.hostOp 0x7#4 {}) [] [] :: [] ∧ decode (.hostOp 0x7#4 {}) = .ok .btaen) ∧
    (({ stateT [] with port := [.present (.header 0) [1] [2]] } : State).port =
      .present (.header 0) [1] [2] :: [] ∧ decode (.header 0) = .error .unlistedHeader) ∧
    (stateT []).port = [] := by
  refine ⟨⟨rfl, rfl⟩, ⟨rfl, by decide⟩, rfl⟩

theorem witness_ResetClearsTheBlock : ({ stateT [] with port := [.reset] } : State).port = .reset :: [] := rfl

theorem witness_OnlyResetDeinitializes : (∃ t, step portT = .next t) ∧ portT.initialized = true ∧
    portT.port.head? ≠ some .reset :=
  ⟨⟨_, rfl⟩, rfl, by decide⟩

theorem witness_OnlyResetClearsMarks :
    (∃ t, step { stateT [] with fault := some .overlappingCommand } = .next t) ∧
    ({ stateT [] with fault := some .overlappingCommand } : State).port.head? ≠ some .reset ∧
    (∃ t, step { portT with refused := true } = .next t) ∧
    ({ portT with refused := true } : State).port.head? ≠ some .reset :=
  ⟨⟨_, rfl⟩, by decide, ⟨_, rfl⟩, by decide⟩

theorem witness_ConfigurationIsFixed : ∃ t, step portT = .next t := ⟨_, rfl⟩

/-- A read of a hung block's buffer, and one that fills a buffer anew. -/
theorem witness_StepKeepsBufferCanonical :
    BufferCanonical { stateT [0, 0, 0, 0, 2, 0, 2, 4] with
      response := [(0, 1), (3, 2)], port := [.present (encode (.grd grd5)) [] []] } ∧
    ∃ t, step { stateT [0, 0, 0, 0, 2, 0, 2, 4] with
      response := [(0, 1), (3, 2)], port := [.present (encode (.grd grd5)) [] []] } = .next t :=
  ⟨by simp [BufferCanonical, Memory.wf], _, rfl⟩

theorem witness_StepKeepsTraceLegal :
    TraceLegal { portT with trace := [.rd 0x74 0, .wr 0x6C 3, .slp 10] } ∧
    ∃ t, step { portT with trace := [.rd 0x74 0, .wr 0x6C 3, .slp 10] } = .next t :=
  ⟨by simp [TraceLegal, eventLegal, portT, stateT, configT, paramsT], _, rfl⟩

theorem witness_StepKeepsTraceGated :
    TraceGated { portT with trace := [.rd 0x74 0, .wr 0x6C 3, .rd 0x74 0, .rd 0x70 5] } ∧
    ∃ t, step { portT with trace := [.rd 0x74 0, .wr 0x6C 3, .rd 0x74 0, .rd 0x70 5] } = .next t :=
  ⟨by unfold TraceGated; decide, _, rfl⟩

theorem witness_StepKeepsBusyOnlyWhileHung :
    BusyOnlyWhileHung { portT with busy := true, stallAfter := some 0 } ∧
    ({ portT with busy := true, stallAfter := some 0 } : State).busy = true ∧
    ∃ t, step { portT with busy := true, stallAfter := some 0 } = .next t :=
  ⟨fun _ => ⟨rfl, rfl⟩, rfl, _, rfl⟩

theorem witness_StepKeepsFaultMarkSound :
    FaultMarkSound { stateT [] with busy := true, fault := some .overlappingCommand, port := [.reset] } ∧
    ∃ t, step { stateT [] with busy := true, fault := some .overlappingCommand, port := [.reset] } = .next t :=
  ⟨⟨fun _ => rfl, fun _ => rfl⟩, _, rfl⟩

theorem witness_LegalOffsetsAreAligned :
    TraceLegal { stateT [] with trace := [.rd 0x2C 0, .wr 0x2C 4] } ∧
    Event.rd 0x2C 0 ∈ ({ stateT [] with trace := [.rd 0x2C 0, .wr 0x2C 4] } : State).trace ∧
    Event.wr 0x2C 4 ∈ ({ stateT [] with trace := [.rd 0x2C 0, .wr 0x2C 4] } : State).trace :=
  ⟨by simp [TraceLegal, eventLegal, stateT, configT, paramsT], by simp, by simp⟩

end Sys2Proof.Tests
end

section
/-! PROOFS. 00_scope: the configuration is an argument of the model (R7), which no step changes. -/

namespace Sys2Proof.Machine

open Sys2Proof Sys2Proof.Claims

/-- Frame of a step for the configuration (R7). -/
theorem step_cfg {s t : State} (h : step s = .next t) : t.cfg = s.cfg := by
  obtain ⟨-, rfl⟩ | ⟨rest, -, rfl⟩ | ⟨op, txChanged, rxTouched, rest, i, -, hexec⟩ := step_cases h
  · rfl
  · exact resetBlock_cfg _
  · obtain ⟨-, evs, did⟩ := exec_did hexec
    calc t.cfg
      _ = (s.taken rest txChanged rxTouched).cfg := did.cfg
      _ = s.cfg := taken_cfg s rest txChanged rxTouched

/-- Settles O52: by the three things a step can do (`step_cases`), the presented operation by what every
operation keeps (`exec_did`). -/
theorem configurationIsFixed : Obligations.ConfigurationIsFixed := fun _ _ => step_cfg

end Sys2Proof.Machine
end

section
/-! PROOFS. 10_state: what a step keeps of the block's outputs (R40, R41), what an operation leaves of the state
(R37, R197, R228, R229), that nothing else of the past is state (R35), and the state after reset (R39). -/

namespace Sys2Proof.Machine

open Sys2Proof Sys2Proof.Claims

/-! ### Steps (R23) -/

theorem step_waiting {s : State} (hport : s.port = []) : step s = .next s := by
  simp [step, hport]

theorem step_presented {s : State} {p : Presented} {tx rx : List Nat} {rest : List HostInput} {i : Instr}
    (hport : s.port = .present p tx rx :: rest) (hdec : decode p = .ok i) :
    step s = exec i (s.taken rest tx rx) := by
  simp [step, hport, hdec]

theorem step_undecodable {s : State} {p : Presented} {tx rx : List Nat} {rest : List HostInput}
    {e : DecodeError} (hport : s.port = .present p tx rx :: rest) (hdec : decode p = .error e) :
    step s = .refused (.undecodable e) := by
  simp [step, hport, hdec]

/-- Settles O48: one clause for each outcome of the decoder, and one for an empty port. -/
theorem stepRunsThePresentedOperation : Obligations.StepRunsThePresentedOperation := fun _ _ _ _ _ =>
  ⟨fun _ hport hdec => step_presented hport hdec, fun _ hport hdec => step_undecodable hport hdec, step_waiting⟩

/-- The induction step of every invariant: what taking the port item, a reset and every operation keep, a step
keeps. -/
theorem step_keeps {I : State → Prop} (htaken : ∀ s rest tx rx, I s → I (s.taken rest tx rx))
    (hreset : ∀ s rest, I s → I (resetBlock { s with port := rest }))
    (hexec : ∀ i s t, I s → exec i s = .next t → I t) {s t : State} (hs : I s) (h : step s = .next t) : I t := by
  obtain ⟨-, rfl⟩ | ⟨rest, -, rfl⟩ | ⟨op, tx, rx, rest, i, -, h⟩ := step_cases h
  · exact hs
  · exact hreset s rest hs
  · exact hexec i _ t (htaken s rest tx rx hs) h

/-! ### Invariants of the outputs -/

theorem exec_bufferCanonical {i : Instr} {s t : State} (hs : BufferCanonical s) (h : exec i s = .next t) :
    BufferCanonical t := by
  obtain ⟨-, evs, did⟩ := exec_did h
  exact did.wf hs

/-- Settles O53: neither the port nor a reset touches the buffer, and every operation keeps its form. -/
theorem stepKeepsBufferCanonical : Obligations.StepKeepsBufferCanonical := fun _ _ =>
  step_keeps (fun _ _ _ _ hs => hs) (fun _ _ hs => hs) fun _ _ _ => exec_bufferCanonical

/-- An operation adds only legal events (`Good`) to a legal trace, under the configuration it leaves alone. -/
theorem exec_traceLegal {i : Instr} {s t : State} (hs : TraceLegal s) (h : exec i s = .next t) : TraceLegal t := by
  obtain ⟨-, evs, did⟩ := exec_did h
  intro e he
  rw [did.cfg]
  rw [did.trace] at he
  rcases List.mem_append.1 he with he | he
  · exact hs e he
  · exact did.good.1 e he

/-- Settles O54: neither the port nor a reset emits an event, and every operation emits legal ones. -/
theorem stepKeepsTraceLegal : Obligations.StepKeepsTraceLegal := fun _ _ =>
  step_keeps (fun _ _ _ _ hs => hs) (fun _ _ hs => hs) fun _ _ _ => exec_traceLegal

/-! ### Reset (R39, R250) -/

/-- Settles O59: the trace and the buffer are empty at reset, and nothing is marked or in progress. -/
theorem resetMeetsTheInvariants : Obligations.ResetMeetsTheInvariants := by
  have hbuffer : BufferCanonical State.reset := List.Pairwise.nil
  have hlegal : TraceLegal State.reset := fun _ he => absurd he List.not_mem_nil
  have hgated : TraceGated State.reset := rfl
  have hbusy : BusyOnlyWhileHung State.reset := (nomatch ·)
  have hmark : FaultMarkSound State.reset := ⟨(nomatch ·), fun _ => rfl⟩
  exact ⟨rfl, rfl, rfl, rfl, hbuffer, hlegal, hgated, hbusy, hmark⟩

/-! ### One-bit fields (R11, R37) -/

/-- Settles O33: the width-1 case of `setf_bit`; past bit 31 both words read as 0. -/
theorem fieldWriteKeepsOtherBits : Obligations.FieldWriteKeepsOtherBits := by
  intro v x pos n hpos
  rw [setf_bit v x pos n (by decide)]
  by_cases hn : n = pos
  · subst hn
    simp [hpos]
  · have hout : ¬ (pos ≤ n ∧ n < pos + 1) := by omega
    rw [if_neg hout, if_neg hn]
    by_cases h32 : n < 32
    · simp [h32]
    · simp [h32, BitVec.getLsbD_of_ge v n (by omega)]

/-! ### Frames (R40, R41, R197, R228, R229) -/

theorem lentBy_eq_opLent (i : Instr) : lentBy i = opLent i := by cases i <;> rfl

theorem opLent_of_lendsNothing {i : Instr} (h : lendsNothing i = true) : opLent i = none := by
  cases i with
  | send | grd => cases h
  | _ => rfl

theorem Did.outsideKept {i : Instr} {s t : State} {evs : List Event} (did : Did i s t evs) : OutsideKept s t :=
  ⟨did.cfg, did.port, did.txChanged, did.rxTouched, evs, did.trace⟩

/-! Of the component checks only that of the long write faults, and only on the depth (R129, R188). -/

theorem gswVerdict_ne_fault (c : Config) (d : Descriptor) (f : Fault) : gswVerdict c d ≠ .fault f := by
  unfold gswVerdict; split <;> simp

theorem dswVerdict_ne_fault (c : Config) (d : Descriptor) (f : Fault) : dswVerdict c d ≠ .fault f := by
  unfold dswVerdict; split <;> simp

theorem grdVerdict_ne_fault (d : Descriptor) (f : Fault) : grdVerdict d ≠ .fault f := by
  unfold grdVerdict; split <;> simp

theorem depth_of_lwVerdict_fault {c : Config} {d : Descriptor} {f : Fault} (h : lwVerdict c d = .fault f) :
    c.pldFifoDepth < d.payload.len := by
  unfold lwVerdict at h
  split at h
  · cases h
  · split at h
    · assumption
    · cases h

theorem sendVerdict_fault {c : Config} {tx : PayloadArg} {rx : ResponseArg} {dcs : Bool} {f : Fault}
    (h : sendVerdict c tx rx dcs = .fault f) : 2 < tx.len ∧ rx.len = 0 ∧ c.pldFifoDepth < tx.len := by
  unfold sendVerdict at h
  split at h
  · cases h
  · split at h
    · cases h
    · rename_i path d hplan
      obtain ⟨rfl, rfl, hpath⟩ := sendPlan_cases hplan
      rcases hpath with ⟨rfl, -⟩ | ⟨rfl, hrx, htx⟩ | ⟨rfl | rfl, -⟩
      · exact absurd h (grdVerdict_ne_fault d f)
      · exact ⟨htx, hrx, depth_of_lwVerdict_fault h⟩
      · exact absurd h (gswVerdict_ne_fault c d f)
      · exact absurd h (dswVerdict_ne_fault c d f)

/-- A check faults for an overlong `LW`, or for an overlong `SEND` with no response requested. -/
theorem opVerdict_fault_cases {c : Config} {i : Instr} {f : Fault} (h : opVerdict c i = .fault f) :
    (∃ d, i = .lw d ∧ c.pldFifoDepth < d.payload.len) ∨
    ∃ tx rx dcs, i = .send tx rx dcs ∧ 2 < tx.len ∧ rx.len = 0 ∧ c.pldFifoDepth < tx.len := by
  cases i with
  | lw d => exact .inl ⟨d, rfl, depth_of_lwVerdict_fault h⟩
  | send tx rx dcs => exact .inr ⟨tx, rx, dcs, rfl, sendVerdict_fault h⟩
  | gsw d => exact absurd h (gswVerdict_ne_fault c d f)
  | dsw d => exact absurd h (dswVerdict_ne_fault c d f)
  | grd d => exact absurd h (grdVerdict_ne_fault d f)
  | _ => cases h

/-- Settles O44: the frame is `Did`'s; the depth fault of an operation that lends nothing is that of `LW`. -/
theorem frameOfWritingOperations : Obligations.FrameOfWritingOperations := by
  intro i s t hl h
  obtain ⟨-, evs, did⟩ := exec_did h
  refine ⟨did.outsideKept, did.unlent (opLent_of_lendsNothing hl), did.initialized, did.refused, did.overlaps, ?_⟩
  intro hidle
  obtain hnone | ⟨hdepth, hverdict, -⟩ := did.faults hidle
  · exact .inl hnone
  · refine .inr ⟨hdepth, ?_⟩
    obtain hlw | ⟨tx, rx, dcs, rfl, -⟩ := opVerdict_fault_cases hverdict
    · exact hlw
    · cases hl

/-- Settles O45: the frame is `Did`'s; the depth fault of an operation that may lend a buffer is that of `SEND`. -/
theorem frameOfReadingOperations : Obligations.FrameOfReadingOperations := by
  intro i s t hl h
  obtain ⟨-, evs, did⟩ := exec_did h
  have hinit : i ≠ .init := by rintro rfl; cases hl
  rw [lentBy_eq_opLent]
  refine ⟨did.outsideKept, by simp [did.initialized, hinit], did.refused, did.overlaps, ?_, did.unlent, did.lent⟩
  intro hidle
  obtain hnone | ⟨hdepth, hverdict, -⟩ := did.faults hidle
  · exact .inl hnone
  · refine .inr ⟨hdepth, ?_⟩
    obtain ⟨d, rfl, -⟩ | hsend := opVerdict_fault_cases hverdict
    · cases hl
    · exact hsend

/-! ### No influence of the past (R35, R40)

`Sim` is the relation that every piece of an operation keeps. It holds the results equal, which two states with
different histories need not have: it begins where an operation has set the result anew. -/

section

variable {s₁ s₂ t₁ : State}

theorem sameButHistory_elim (h : SameButHistory s₁ s₂) :
    ∃ tr res resp ref, s₁ = { s₂ with trace := tr, result := res, response := resp, refused := ref } :=
  ⟨_, _, _, _, h⟩

/-- The states agree in everything the shared course checks (R225). -/
theorem sameButHistory_checks (h : SameButHistory s₁ s₂) :
    s₂.fault = s₁.fault ∧ s₂.busy = s₁.busy ∧ s₂.initialized = s₁.initialized ∧ s₂.cfg = s₁.cfg := by
  obtain ⟨tr, res, resp, ref, rfl⟩ := sameButHistory_elim h
  exact ⟨rfl, rfl, rfl, rfl⟩

theorem Sim.mono {e e' : Prop} {b₁ b₂ : List Event} (he : e' → e) (h : Sim e b₁ b₂ s₁ s₂) : Sim e' b₁ b₂ s₁ s₂ :=
  ⟨h.eq, h.events, fun k => h.response (he k)⟩

theorem Sim.result {e : Prop} {b₁ b₂ : List Event} (h : Sim e b₁ b₂ s₁ s₂) : s₁.result = s₂.result := by
  rw [h.eq]

theorem Sim.sameButHistory {e : Prop} {b₁ b₂ : List Event} (h : Sim e b₁ b₂ s₁ s₂) : SameButHistory s₁ s₂ := by
  unfold SameButHistory
  rw [h.result]
  exact h.eq

theorem refuse_sim (h : SameButHistory s₁ s₂) : Sim False s₁.trace s₂.trace (refuse s₁) (refuse s₂) := by
  obtain ⟨tr, res, resp, ref, rfl⟩ := sameButHistory_elim h
  exact ⟨rfl, ⟨[], by simp⟩, False.elim⟩

theorem raiseFault_sim (f : Fault) (h : SameButHistory s₁ s₂) :
    Sim False s₁.trace s₂.trace (raiseFault f s₁) (raiseFault f s₂) := by
  obtain ⟨tr, res, resp, ref, rfl⟩ := sameButHistory_elim h
  exact ⟨rfl, ⟨[], by simp⟩, False.elim⟩

/-- A lent buffer holds the host's bytes alone (R57). -/
theorem start_sim (lent : Option (List Nat)) (h : SameButHistory s₁ s₂) :
    Sim (lent ≠ none) s₁.trace s₂.trace (start lent s₁) (start lent s₂) := by
  obtain ⟨tr, res, resp, ref, rfl⟩ := sameButHistory_elim h
  cases lent with
  | none => exact ⟨rfl, ⟨[], by simp⟩, absurd rfl⟩
  | some b => exact ⟨rfl, ⟨[], by simp⟩, fun _ => rfl⟩

/-- An error before the body leaves what it would after a start: the lent bytes are unspecified in both (R41). -/
theorem reply_start {r : Result} (hr : r ≠ .ok) (lent : Option (List Nat)) (s : State) :
    reply lent r (start lent s) = reply lent r s := by
  cases lent with
  | none => simp
  | some b => simp [reply_err hr, scrambleResponse]

theorem reply_err_sim {r : Result} (hr : r ≠ .ok) (lent : Option (List Nat)) (h : SameButHistory s₁ s₂) :
    Sim (lent ≠ none) s₁.trace s₂.trace (reply lent r s₁) (reply lent r s₂) := by
  rw [← reply_start hr lent s₁, ← reply_start hr lent s₂]
  exact reply_sim lent r (start_sim lent h)

theorem finish_sim {e : Prop} {b₁ b₂ : List Event} (lent : Option (List Nat)) {x y : Flow Result}
    (h : x.Sim e b₁ b₂ y) : Sim e b₁ b₂ (finish lent x) (finish lent y) := by
  cases x <;> cases y
  case done.done =>
    obtain ⟨rfl, h⟩ := h
    exact reply_sim lent _ h
  case stuck.stuck => exact h
  all_goals exact h.elim

/-- Where the buffers come out equal: one was lent, and a ready block took the operation without a fault. -/
structure BufferRenewed (lent : Option (List Nat)) (accepted : Bool) (s t : State) : Prop where
  lent : lent ≠ none
  ready : Ready s
  accepted : accepted = true
  unfaulted : t.fault = none

/-- The shared course takes the same way from both states, and so does the body. -/
theorem operation_sim {accepted : Bool} {lent : Option (List Nat)} {verdict : Verdict} {body : State → Flow Result}
    (hbody : ∀ {e : Prop} {b₁ b₂ : List Event} {u₁ u₂ : State}, Sim e b₁ b₂ u₁ u₂ →
      (body u₁).Sim e b₁ b₂ (body u₂))
    (hs : SameButHistory s₁ s₂) (h : operation accepted lent verdict body s₁ = .next t₁) :
    ∃ t₂, operation accepted lent verdict body s₂ = .next t₂ ∧
      Sim (BufferRenewed lent accepted s₁ t₁) s₁.trace s₂.trace t₁ t₂ := by
  obtain ⟨hfault, hbusy, hinit, -⟩ := sameButHistory_checks hs
  obtain ⟨hf, ⟨ha, rfl⟩ | ⟨ha, hb, rfl⟩ | ⟨ha, hb, hi, rfl⟩ | ⟨ha, hr, h⟩⟩ := operation_cases h
  · exact ⟨_, operation_refused (hfault.trans hf) ha,
      (refuse_sim hs).mono fun k => absurd k.accepted (by simp [ha])⟩
  · exact ⟨_, operation_overlap (hfault.trans hf) ha (hbusy.trans hb),
      (raiseFault_sim _ hs).mono fun k => nomatch k.unfaulted⟩
  · exact ⟨_, operation_gate (hfault.trans hf) ha (hbusy.trans hb) (hinit.trans hi),
      (reply_err_sim (by simp) lent hs).mono BufferRenewed.lent⟩
  · have hr₂ : Ready s₂ := by rwa [Ready, hfault, hbusy, hinit]
    obtain ⟨hv, rfl⟩ | ⟨f, hv, rfl⟩ | ⟨hv, rfl⟩ := h
    · exact ⟨_, operation_invalid hr₂ ha hv, (reply_err_sim (by simp) lent hs).mono BufferRenewed.lent⟩
    · exact ⟨_, operation_fault hr₂ ha hv, (raiseFault_sim f hs).mono fun k => nomatch k.unfaulted⟩
    · exact ⟨_, operation_run hr₂ ha hv, (finish_sim lent (hbody (start_sim lent hs))).mono BufferRenewed.lent⟩

theorem execInit_sim (hs : SameButHistory s₁ s₂) (h : execInit s₁ = .next t₁) :
    ∃ t₂, execInit s₂ = .next t₂ ∧ Sim False s₁.trace s₂.trace t₁ t₂ := by
  obtain ⟨hfault, hbusy, -⟩ := sameButHistory_checks hs
  obtain ⟨hf, ⟨hb, rfl⟩ | ⟨hb, rfl⟩⟩ := execInit_next h
  · exact ⟨raiseFault .overlappingCommand s₂, by simp [execInit, hfault, hf, hbusy, hb], raiseFault_sim _ hs⟩
  · refine ⟨{ s₂ with initialized := true, busy := false, result := some .ok },
      by simp [execInit, hfault, hf, hbusy, hb], ?_⟩
    obtain ⟨tr, res, resp, ref, rfl⟩ := sameButHistory_elim hs
    exact ⟨rfl, ⟨[], by simp⟩, False.elim⟩

theorem exec_sim {i : Instr} (hs : SameButHistory s₁ s₂) (h : exec i s₁ = .next t₁) :
    ∃ t₂, exec i s₂ = .next t₂ ∧ Sim (BufferRenewed (lentBy i) i.wf s₁ t₁) s₁.trace s₂.trace t₁ t₂ := by
  by_cases hi : i = .init
  · subst hi
    obtain ⟨t₂, ht, hsim⟩ := execInit_sim hs h
    exact ⟨t₂, ht, hsim.mono fun k => k.lent rfl⟩
  · obtain ⟨-, -, -, hcfg⟩ := sameButHistory_checks hs
    rw [exec_operation hi] at h
    rw [exec_operation hi, lentBy_eq_opLent, hcfg]
    exact operation_sim (opBody_sim i s₁.cfg) hs h

end

/-- Settles O47: from two such states an operation comes to two states in `Sim`, which says every clause. -/
theorem historyHasNoInfluence : Obligations.HistoryHasNoInfluence := by
  intro i s₁ s₂ t₁ hs h
  obtain ⟨t₂, ht, hsim⟩ := exec_sim hs h
  obtain ⟨evs, htrace₁, htrace₂⟩ := hsim.events
  exact ⟨t₂, evs, ht, htrace₁, htrace₂, hsim.result, hsim.sameButHistory,
    fun hlent hready hwf hfault => hsim.response ⟨hlent, hready, hwf, hfault⟩⟩

end Sys2Proof.Machine
end

section
/-! PROOFS. 20_memory: the registers a legal trace accesses, and their alignment (R26, R54). -/

namespace Sys2Proof.Machine

open Sys2Proof Sys2Proof.Claims

theorem mem_offsets_of_legal_rd {c : Config} {off : Nat} {v : Word} (h : eventLegal c (.rd off v)) :
    off ∈ c.offsets := by
  obtain rfl | rfl | rfl | rfl | rfl := h <;> simp [Params.offsets]

theorem mem_offsets_of_legal_wr {c : Config} {off : Nat} {v : Word} (h : eventLegal c (.wr off v)) :
    off ∈ c.offsets := by
  obtain rfl | rfl | rfl | rfl := h <;> simp [Params.offsets]

/-- Settles O58: a legal access is to one of the configuration's six registers, all aligned by R8's check
(`cfg_offsets`). -/
theorem legalOffsetsAreAligned : Obligations.LegalOffsetsAreAligned := by
  intro s off v hlegal haccess
  have hmem : off ∈ s.cfg.offsets := by
    obtain hrd | hwr := haccess
    · exact mem_offsets_of_legal_rd (hlegal _ hrd)
    · exact mem_offsets_of_legal_wr (hlegal _ hwr)
  exact (cfg_offsets s.cfg).2 off hmem

end Sys2Proof.Machine
end

section
/-! PROOFS. 30_encoding: the decoder and the encoder agree (R70, R72, R76, R100), the fields of a header word (R71,
R80, R83), payload words on the way out (R72) and response words on the way in (R73), the result numbers (R78), and
the refusal of what has no representation (R86). -/

namespace Sys2Proof

/-! ### The fields of a header word at the default layout (R70) -/

section

variable (dt : BitVec 6) (vc : BitVec 2) (lo hi : Byte)

@[simp] theorem header_dt_word : Header.dt (Header.word dt vc lo hi) = dt := by
  unfold Header.dt Header.word
  rw [BitVec.extractLsb'_append_eq_of_add_le (by decide), BitVec.extractLsb'_eq_self]

@[simp] theorem header_vc_word : Header.vc (Header.word dt vc lo hi) = vc := by
  unfold Header.vc Header.word
  rw [BitVec.extractLsb'_append_eq_of_le (by decide), BitVec.extractLsb'_append_eq_of_add_le (by decide),
    BitVec.extractLsb'_eq_self]

@[simp] theorem header_lo_word : Header.lo (Header.word dt vc lo hi) = lo := by
  unfold Header.lo Header.word
  iterate 2 rw [BitVec.extractLsb'_append_eq_of_le (by decide)]
  rw [BitVec.extractLsb'_append_eq_of_add_le (by decide), BitVec.extractLsb'_eq_self]

@[simp] theorem header_hi_word : Header.hi (Header.word dt vc lo hi) = hi := by
  unfold Header.hi Header.word
  iterate 3 rw [BitVec.extractLsb'_append_eq_of_le (by decide)]
  rw [BitVec.extractLsb'_append_eq_of_add_le (by decide), BitVec.extractLsb'_eq_self]

@[simp] theorem header_unused_word : Header.unused (Header.word dt vc lo hi) = 0#8 := by
  unfold Header.unused Header.word
  iterate 4 rw [BitVec.extractLsb'_append_eq_of_le (by decide)]
  rw [BitVec.extractLsb'_eq_self]

end

/-! ### The bytes of a payload word (R72) -/

section

variable (b0 b1 b2 b3 : Byte)

@[simp] theorem payload_byte0_word : Payload.byte (Payload.word b0 b1 b2 b3) 0 = b0 := by
  unfold Payload.byte Payload.word
  rw [BitVec.extractLsb'_append_eq_of_add_le (by decide), BitVec.extractLsb'_eq_self]

@[simp] theorem payload_byte1_word : Payload.byte (Payload.word b0 b1 b2 b3) 1 = b1 := by
  unfold Payload.byte Payload.word
  rw [BitVec.extractLsb'_append_eq_of_le (by decide), BitVec.extractLsb'_append_eq_of_add_le (by decide),
    BitVec.extractLsb'_eq_self]

@[simp] theorem payload_byte2_word : Payload.byte (Payload.word b0 b1 b2 b3) 2 = b2 := by
  unfold Payload.byte Payload.word
  iterate 2 rw [BitVec.extractLsb'_append_eq_of_le (by decide)]
  rw [BitVec.extractLsb'_append_eq_of_add_le (by decide), BitVec.extractLsb'_eq_self]

@[simp] theorem payload_byte3_word : Payload.byte (Payload.word b0 b1 b2 b3) 3 = b3 := by
  unfold Payload.byte Payload.word
  iterate 3 rw [BitVec.extractLsb'_append_eq_of_le (by decide)]
  rw [BitVec.extractLsb'_eq_self]

end

/-! ### The decoder reads the encoder back -/

theorem decode_encode (i : Instr) : decode (encode i) = .ok i := by
  cases i with
  | reservedOp k => revert k; decide
  | hdrGenSw0 | hdrGenSw1 | hdrGenSw2 | hdrGenSr0 | hdrGenSr1 | hdrGenSr2 | hdrDcsSw0 | hdrDcsSw1 | hdrDcsRead
  | hdrSetMaxRet | hdrGenLw | hdrDcsLw => simp [encode, decode, decodeHeader]
  | pldWord => simp [encode, decode]
  | _ => rfl

/-- Settles O1: by the rows. The host operations and the waits compute; a header word and a payload word give back
each of their fields. -/
theorem decodeInvertsEncode : Obligations.DecodeInvertsEncode := decode_encode

/-- Settles O2: six closed words, each decoded by evaluation. -/
theorem tableWordsDecode : Obligations.TableWordsDecode :=
  ⟨by decide, by decide, by decide, by decide, by decide, by decide⟩

end Sys2Proof

namespace Sys2Proof.Machine

open Sys2Proof Sys2Proof.Claims

/-! ### Header words at the configured layout (R71, R80, R83) -/

/-- A value shifted to its place, bit by bit: 0 below and above it. -/
theorem shiftedField_bit {width : Nat} (x : BitVec width) (pos : Nat) {n : Nat} (hn : n < 32) :
    (x.setWidth 32 <<< pos).getLsbD n = if pos ≤ n ∧ n < pos + width then x.getLsbD (n - pos) else false := by
  rw [BitVec.getLsbD_shiftLeft, BitVec.getLsbD_setWidth]
  by_cases hlow : pos ≤ n
  · have hshift : n - pos < 32 := by omega
    by_cases hhigh : n < pos + width
    · simp [hn, hlow, hhigh, hshift]
    · simp [hhigh, BitVec.getLsbD_of_ge x (n - pos) (by omega)]
  · simp [hlow, Nat.not_le.1 hlow]

/-- A field whose bits are those of `x` reads back as `x`. -/
theorem getf_eq_setWidth {v : Word} {pos width : Nat} {x : BitVec width} (hw : width < 32)
    (h : ∀ n, n < width → v.getLsbD (pos + n) = x.getLsbD n) : getf v pos width = x.setWidth 32 := by
  apply BitVec.eq_of_getLsbD_eq
  intro n hn
  rw [getf_bit v pos n hw, BitVec.getLsbD_setWidth]
  by_cases hin : n < width
  · simp [hin, hn, h n hin]
  · simp [hin, BitVec.getLsbD_of_ge x n (by omega)]

/-- R70's non-overlap, each pair of fields in one order or the other. -/
theorem cfg_fields_disjoint (c : Config) :
    (c.hdrDtPos + 6 ≤ c.hdrVcPos ∨ c.hdrVcPos + 2 ≤ c.hdrDtPos) ∧
    (c.hdrDtPos + 6 ≤ c.hdrWclPos ∨ c.hdrWclPos + 8 ≤ c.hdrDtPos) ∧
    (c.hdrDtPos + 6 ≤ c.hdrWcmPos ∨ c.hdrWcmPos + 8 ≤ c.hdrDtPos) ∧
    (c.hdrVcPos + 2 ≤ c.hdrWclPos ∨ c.hdrWclPos + 8 ≤ c.hdrVcPos) ∧
    (c.hdrVcPos + 2 ≤ c.hdrWcmPos ∨ c.hdrWcmPos + 8 ≤ c.hdrVcPos) ∧
    (c.hdrWclPos + 8 ≤ c.hdrWcmPos ∨ c.hdrWcmPos + 8 ≤ c.hdrWclPos) := by
  have h := (cfg_header c).1
  simpa [Params.headerApart, apart, and_assoc] using h

section

variable (c : Config) (dt : BitVec 6) (vc : BitVec 2) (lo hi : Byte)

theorem getf_hdr_wcm : getf (hdr c dt vc lo hi) c.hdrWcmPos 8 = hi.setWidth 32 := by
  obtain ⟨-, -, -, -, hfit⟩ := cfg_header c
  refine getf_eq_setWidth (by decide) fun n hn => ?_
  rw [hdr_bit, if_pos (by omega), Nat.add_sub_cancel_left, decide_eq_true (by omega), Bool.true_and]

theorem getf_hdr_wcl : getf (hdr c dt vc lo hi) c.hdrWclPos 8 = lo.setWidth 32 := by
  obtain ⟨-, -, -, hfit, -⟩ := cfg_header c
  obtain ⟨-, -, -, -, -, hwcm⟩ := cfg_fields_disjoint c
  refine getf_eq_setWidth (by decide) fun n hn => ?_
  rw [hdr_bit, if_neg (by omega), if_pos (by omega), Nat.add_sub_cancel_left, decide_eq_true (by omega),
    Bool.true_and]

theorem getf_hdr_vc : getf (hdr c dt vc lo hi) c.hdrVcPos 2 = vc.setWidth 32 := by
  obtain ⟨-, -, hfit, -, -⟩ := cfg_header c
  obtain ⟨-, -, -, hwcl, hwcm, -⟩ := cfg_fields_disjoint c
  refine getf_eq_setWidth (by decide) fun n hn => ?_
  rw [hdr_bit, if_neg (by omega), if_neg (by omega), if_pos (by omega), Nat.add_sub_cancel_left,
    decide_eq_true (by omega), Bool.true_and]

theorem getf_hdr_dt : getf (hdr c dt vc lo hi) c.hdrDtPos 6 = dt.setWidth 32 := by
  obtain ⟨-, hfit, -, -, -⟩ := cfg_header c
  obtain ⟨hvc, hwcl, hwcm, -, -, -⟩ := cfg_fields_disjoint c
  refine getf_eq_setWidth (by decide) fun n hn => ?_
  rw [hdr_bit, if_neg (by omega), if_neg (by omega), if_neg (by omega), if_pos (by omega),
    Nat.add_sub_cancel_left, decide_eq_true (by omega), Bool.true_and]

end

/-- Settles O3: one read-back lemma per field. -/
theorem headerFieldsReadBack : Obligations.HeaderFieldsReadBack := fun c dt vc lo hi =>
  ⟨getf_hdr_dt c dt vc lo hi, getf_hdr_vc c dt vc lo hi, getf_hdr_wcl c dt vc lo hi, getf_hdr_wcm c dt vc lo hi⟩

/-- Under every well-formed layout a header is the OR of its shifted fields: no bit is in two of them. -/
theorem hdr_eq_or (c : Config) (dt : BitVec 6) (vc : BitVec 2) (lo hi : Byte) :
    hdr c dt vc lo hi = (hi.setWidth 32 <<< c.hdrWcmPos) ||| (lo.setWidth 32 <<< c.hdrWclPos) |||
      (vc.setWidth 32 <<< c.hdrVcPos) ||| (dt.setWidth 32 <<< c.hdrDtPos) := by
  obtain ⟨h1, h2, h3, h4, h5, h6⟩ := cfg_fields_disjoint c
  apply BitVec.eq_of_getLsbD_eq
  intro n hn
  simp only [hdr_bit, BitVec.getLsbD_or, shiftedField_bit _ _ hn, hn, decide_true, Bool.true_and]
  by_cases hwcm : c.hdrWcmPos ≤ n ∧ n < c.hdrWcmPos + 8
  · simp (disch := omega) only [if_pos, if_neg, Bool.or_false]
  · by_cases hwcl : c.hdrWclPos ≤ n ∧ n < c.hdrWclPos + 8
    · simp (disch := omega) only [if_pos, if_neg, Bool.or_false, Bool.false_or]
    · by_cases hvc : c.hdrVcPos ≤ n ∧ n < c.hdrVcPos + 2
      · simp (disch := omega) only [if_pos, if_neg, Bool.or_false, Bool.false_or]
      · simp only [if_neg hwcm, if_neg hwcl, if_neg hvc, Bool.false_or]

theorem hdr_default_layout {c : Config} (hdt : c.hdrDtPos = 0) (hvc : c.hdrVcPos = 6) (hwcl : c.hdrWclPos = 8)
    (hwcm : c.hdrWcmPos = 16) (dt : BitVec 6) (vc : BitVec 2) (lo hi : Byte) :
    hdr c dt vc lo hi = (hi.setWidth 32 <<< 16) ||| (lo.setWidth 32 <<< 8) ||| (vc.setWidth 32 <<< 6) |||
      dt.setWidth 32 := by
  rw [hdr_eq_or, hdt, hvc, hwcl, hwcm, BitVec.shiftLeft_zero]

/-- Settles O4: outside the fields `hdr_bit` has no field left; the default layout is a case of `hdr_eq_or`. -/
theorem headerOutsideFieldsZero : Obligations.HeaderOutsideFieldsZero := by
  intro c dt vc lo hi
  refine ⟨fun n hdt hvc hwcl hwcm => ?_, fun hdt hvc hwcl hwcm => hdr_default_layout hdt hvc hwcl hwcm dt vc lo hi⟩
  rw [hdr_bit, if_neg hwcm, if_neg hwcl, if_neg hvc, if_neg hdt, Bool.and_false]

/-- Settles O6: the count fields read back as the two bytes of the count. -/
theorem byteCountSplitExact : Obligations.ByteCountSplitExact := by
  intro c dt d n hn
  have hlo : (getf (countHeader c dt d n) c.hdrWclPos 8).toNat = n % 256 := by
    rw [countHeader, getf_hdr_wcl, BitVec.toNat_setWidth, BitVec.toNat_ofNat]
    omega
  have hhi : (getf (countHeader c dt d n) c.hdrWcmPos 8).toNat = n / 256 := by
    rw [countHeader, getf_hdr_wcm, BitVec.toNat_setWidth, BitVec.toNat_ofNat]
    omega
  exact ⟨hlo, hhi, by omega⟩

/-! ### Payload words (R72) -/

/-- The source's OR of shifted bytes is the word of the four bytes: no bit is in two of them. -/
theorem pword_eq_word (p : List Byte) (i : Nat) :
    pword p i = Payload.word (byteOrZero p (4 * i)) (byteOrZero p (4 * i + 1)) (byteOrZero p (4 * i + 2))
      (byteOrZero p (4 * i + 3)) := by
  apply BitVec.eq_of_getLsbD_eq
  intro n hn
  have h0 : ∀ x : Byte, x.setWidth 32 = x.setWidth 32 <<< 0 := by simp
  rw [pword, Payload.word, h0 (byteOrZero p (4 * i))]
  simp only [BitVec.getLsbD_or, shiftedField_bit _ _ hn, BitVec.getLsbD_append, Nat.sub_sub]
  by_cases h8 : n < 8
  · simp (disch := omega) only [if_pos, if_neg, Bool.or_false]; rfl
  · by_cases h16 : n < 16
    · simp (disch := omega) only [if_pos, if_neg, Bool.or_false, Bool.false_or]
    · by_cases h24 : n < 24
      · simp (disch := omega) only [if_pos, if_neg, Bool.or_false, Bool.false_or]
      · simp (disch := omega) only [if_pos, if_neg, Bool.false_or]

/-- Byte j of a payload word is byte 4i+j of the payload. -/
theorem payload_byte_pword (p : List Byte) (i : Nat) {j : Nat} (hj : j < 4) :
    Payload.byte (pword p i) j = byteOrZero p (4 * i + j) := by
  rw [pword_eq_word]
  match j, hj with
  | 0, _ => rw [payload_byte0_word, Nat.add_zero]
  | 1, _ => exact payload_byte1_word _ _ _ _
  | 2, _ => exact payload_byte2_word _ _ _ _
  | 3, _ => exact payload_byte3_word _ _ _ _

theorem byteOrZero_eq (p : List Byte) (k : Nat) : byteOrZero p k = if h : k < p.length then p[k] else 0#8 := by
  unfold byteOrZero
  split
  next h => simp [h]
  next h => simp [h]

/-- Settles O5: a byte lane holds its byte of the payload, or zero past the end. -/
theorem payloadWordLittleEndian : Obligations.PayloadWordLittleEndian := fun p i _ hj =>
  (payload_byte_pword p i hj).trans (byteOrZero_eq p _)

/-! ### Reads that pass validation (R184, R187, R190, R191) -/

theorem payloadGiven_iff (p : PayloadArg) : payloadGiven p = true ↔ Given p := by
  simp [payloadGiven, PayloadArg.present, Given, Option.isSome_iff_ne_none]

theorem grdVerdict_run {d : Descriptor} (h : GrdValid d) : grdVerdict d = .run := by
  obtain ⟨hlen, hgiven, hlent⟩ := h
  have hpresent : d.response.present = true := Option.isSome_iff_ne_none.2 hlent
  simp [grdVerdict, grdValid, hlen, (payloadGiven_iff _).2 hgiven, hpresent]

theorem rowPath_readRow {c : Config} {len : Nat} {dcs : Bool} {dt : BitVec 6} (h : (len, dcs, dt) ∈ readRows c) :
    len ≤ 2 ∧ rowPath c (classify len true dcs) = some (.read, dt) := by
  simp only [readRows, List.mem_cons, List.not_mem_nil, or_false, Prod.mk.injEq] at h
  obtain ⟨rfl, rfl, rfl⟩ | ⟨rfl, rfl, rfl⟩ | ⟨rfl, rfl, rfl⟩ | ⟨rfl, rfl, rfl⟩ := h <;> exact ⟨by decide, rfl⟩

theorem sendPlan_readRow {c : Config} {tx : PayloadArg} {rx : ResponseArg} {dcs : Bool} {dt : BitVec 6}
    (hrx : 0 < rx.len) (hrow : (tx.len, dcs, dt) ∈ readRows c) :
    sendPlan c tx rx dcs = some (.read, descriptorFor c dt tx rx 0b11) := by
  simp only [sendPlan, decide_eq_true hrx, (rowPath_readRow hrow).2]
  rfl

theorem not_sendNull {tx : PayloadArg} {rx : ResponseArg} (htx : Given tx) (hrx : rx.buffer ≠ none) :
    sendNull tx rx = false := by
  have hpresent : rx.present = true := Option.isSome_iff_ne_none.2 hrx
  obtain hlen | hbytes := htx
  · simp [sendNull, hlen, hpresent]
  · simp [sendNull, hpresent, PayloadArg.present, Option.isSome_iff_ne_none.2 hbytes]

/-- A read that passes validation lends its response buffer, of the response length, and runs `grd_body`. -/
theorem exec_readRuns {i : Instr} {d : Descriptor} {s : State} (hready : Ready s) (h : ReadRuns s.cfg i d) :
    ∃ b, b.length = d.response.len ∧ exec i s = .next (finish (some b) (grdBody d (start (some b) s))) := by
  obtain ⟨rfl, hwf, hvalid⟩ | ⟨tx, rx, dcs, dt, rfl, htx, hrx, hgiven, hpos, hlent, hrow, rfl⟩ := h
  · obtain ⟨b, hb⟩ := Option.ne_none_iff_exists'.1 hvalid.2.2
    simp only [Descriptor.wf, Bool.and_eq_true] at hwf
    refine ⟨b, response_length hwf.2 hb, ?_⟩
    rw [← hb]
    exact operation_run hready (by simp [Descriptor.wf, hwf]) (grdVerdict_run hvalid)
  · obtain ⟨b, hb⟩ := Option.ne_none_iff_exists'.1 hlent
    have hplan := sendPlan_readRow hpos hrow
    have hvalid : GrdValid (descriptorFor s.cfg dt tx rx 0b11) := ⟨(rowPath_readRow hrow).1, hgiven, hlent⟩
    have hverdict : sendVerdict s.cfg tx rx dcs = .run := by
      rw [sendVerdict, not_sendNull hgiven hlent, if_neg Bool.false_ne_true, hplan]
      exact grdVerdict_run hvalid
    have hbody : sendBody tx rx dcs (start rx.buffer s) =
        grdBody (descriptorFor s.cfg dt tx rx 0b11) (start rx.buffer s) := by
      simp [sendBody, start_cfg, hplan, pathBody]
    refine ⟨b, response_length hrx hb, ?_⟩
    rw [← hb, ← hbody]
    exact operation_run hready (by simp [htx, hrx]) hverdict

/-- An operation that ran and returned `Ok`: its body ended with `Ok`, and the reply changed nothing else. -/
theorem finish_ok {lent : Option (List Nat)} {s : State} {x : Flow Result}
    {P : Result → List Event → State → Prop} {Q : List Event → State → Prop} (hx : x.Spec (start lent s) P Q)
    (h : (finish lent x).result = some .ok) :
    ∃ u evs, finish lent x = { u with busy := false, result := some .ok } ∧ Ran (start lent s) u evs ∧
      P .ok evs u := by
  cases x with
  | done r u =>
    obtain ⟨evs, hran, hp⟩ := hx
    obtain rfl : r = .ok := Option.some.inj ((reply_result lent r u).symm.trans h)
    exact ⟨u, evs, reply_ok lent u, hran, hp⟩
  | stuck u =>
    obtain ⟨evs, hran, -, -⟩ := hx
    have hnone : u.result = none := hran.result.trans (start_result lent s)
    exact absurd (hnone.symm.trans h) (by simp)

/-! ### Response words (R73, R191, R198) -/

/-- A piece that reads every response word of R bytes, once and in order, and puts their bytes in the buffer. -/
def Unpacks (r : Nat) (s t : State) (evs : List Event) : Prop :=
  (readsAt s.cfg.offGenPldData evs).length = wordCount r ∧
  ∀ k, t.response.read k = if k < r then
    some (wordByte ((readsAt s.cfg.offGenPldData evs)[k / 4]?.getD 0#32) (k % 4)) else s.response.read k

section

variable {r : Nat} {s t u : State} {a b : List Event}

theorem Quiet.unpacks (h : Quiet s t a) (hran : Ran s t a) (k : Unpacks r t u b) : Unpacks r s u (a ++ b) := by
  obtain ⟨hreads, hresponse⟩ := h
  unfold Unpacks at k ⊢
  rwa [readsAt_append, hreads, List.nil_append, ← hran.cfg, ← hresponse]

theorem Unpacks.quiet (h : Unpacks r s t a) (hran : Ran s t a) (k : Quiet t u b) : Unpacks r s u (a ++ b) := by
  obtain ⟨hreads, hresponse⟩ := k
  rw [hran.cfg] at hreads
  unfold Unpacks at h ⊢
  rwa [readsAt_append, hreads, List.append_nil, hresponse]

end

/-- A piece that unpacks the response if it ends with `Ok`. -/
abbrev Flow.UnpacksOnOk (r : Nat) (s : State) (x : Flow Result) : Prop :=
  x.Spec s (fun res evs t => res = .ok → Unpacks r s t evs) (fun _ _ => True)

theorem Flow.UnpacksOnOk.after {r : Nat} {s : State} {x : Flow Result} {f : State → Flow Result}
    (hx : x.Spec s (fun _ evs t => Quiet s t evs) (fun _ _ => True)) (hs : s.rxTouched = [])
    (hf : ∀ t, t.rxTouched = [] → (f t).UnpacksOnOk r t) : (x.onOk f).UnpacksOnOk r s :=
  hx.onOk (fun _ _ _ => trivial) (fun _ _ _ hne _ hok => absurd hok hne) fun _ t hran h =>
    (hf t (hran.rxTouched.trans hs)).mono (fun _ _ _ _ k hok => h.unpacks hran (k hok)) (fun _ _ _ _ => trivial)

/-- All the words of the response: (R+3)/4 of them hold byte k for every k below R. -/
theorem readWords_unpacks (r : Nat) (s : State) (hs : s.rxTouched = []) :
    (readWords r (wordCount r) 0 s).UnpacksOnOk r s := by
  refine (readWords_spec r (wordCount r) 0 s hs).mono (fun _ evs t _ h hok => ?_) (fun _ _ _ _ => trivial)
  obtain ⟨ws, rfl, hlen, hread⟩ := h hok
  refine ⟨hlen, fun k => ?_⟩
  have hin : (4 * 0 ≤ k ∧ k < 4 * (0 + wordCount r) ∧ k < r) ↔ k < r := by unfold wordCount; omega
  simp only [hread k, hin, Nat.sub_zero]

theorem maxSizeHdr_quiet (d : Descriptor) (s : State) :
    (maxSizeHdr d s).Spec s (fun _ evs t => Quiet s t evs) (fun _ _ => True) := by
  unfold maxSizeHdr
  split
  · exact hdrWrite_quiet _ s
  · exact Flow.Spec.done ⟨rfl, rfl⟩

theorem grdSeq_unpacks (d : Descriptor) (s : State) (hs : s.rxTouched = []) :
    (grdSeq d s).UnpacksOnOk d.response.len s :=
  .after (maxSizeHdr_quiet d s) hs fun t ht =>
    .after (readRequest_quiet d t) ht fun u hu =>
      .after (waitForAck_quiet u) hu fun v hv => readWords_unpacks d.response.len v hv

theorem grdBody_unpacks (d : Descriptor) (s : State) (hs : s.rxTouched = []) :
    (grdBody d s).UnpacksOnOk d.response.len s :=
  (grdSeq_unpacks d s hs).bind (fun _ _ _ => trivial) fun r evs t hran h =>
    (setBta_quiet false t).bind (fun _ _ _ => trivial) fun _ more u _ hquiet =>
      Flow.Spec.done fun hok => by simpa using (h hok).quiet hran hquiet

/-- Settles O42: only the last part of `grd_seq` reads response words, and it unpacks them all into the lent buffer,
which holds no byte from R on. -/
theorem readUnpacksResponse : Obligations.ReadUnpacksResponse := by
  intro i d s t evs hready hstable hruns hexec hok htrace
  obtain ⟨b, hlen, hfinish⟩ := exec_readRuns hready hruns
  obtain rfl : finish (some b) (grdBody d (start (some b) s)) = t := by
    rw [hexec] at hfinish; cases hfinish; rfl
  obtain ⟨u, evs', hreply, hran, hunpacks⟩ := finish_ok (grdBody_unpacks d (start (some b) s) hstable.2) hok
  rw [hreply] at htrace ⊢
  obtain rfl : evs' = evs := List.append_cancel_left (hran.trace.symm.trans htrace)
  obtain ⟨hwords, hbytes⟩ := hunpacks rfl
  refine ⟨hwords, fun k hk => (hbytes k).trans (if_pos hk), fun k hk => ?_⟩
  calc u.response.read k
    _ = (start (some b) s).response.read k := (hbytes k).trans (if_neg (by omega))
    _ = (b.map (BitVec.ofNat 8))[k]? := by rw [start_some, read_ofBytes, if_neg (Nat.not_lt_zero k), Nat.sub_zero]
    _ = none := by simp [hlen, hk]

/-! ### Result numbers (R78) -/

/-- Settles O7: each number is the definition's own row. -/
theorem resultNumbers : Obligations.ResultNumbers :=
  ⟨rfl, rfl, fun _ => rfl, rfl, rfl, rfl, rfl, rfl, rfl, rfl, rfl, rfl⟩

/-! ### Refusal (R86, R229) -/

/-- Settles O8: `INIT` fails no check, and every other operation takes the shared course, which refuses first. -/
theorem refusalSetsOnlyItsMark : Obligations.RefusalSetsOnlyItsMark := by
  intro i s hf hw
  have hne : i ≠ .init := by rintro rfl; cases hw
  rw [exec_operation hne]
  exact operation_refused hf hw

end Sys2Proof.Machine
end

section
/-! PROOFS. 40_poller: the two forms of each named wait (R100, R104), the read that ends it (R101, R102), and that it
touches nothing but the status register (R103). -/

namespace Sys2Proof.Machine

open Sys2Proof Sys2Proof.Claims

/-- Every row of R100 is one named wait, which both its forms run (R104). -/
theorem exec_waitRow {c : Config} {row : WaitRow} {i : Instr} (hrow : row ∈ waitRows c)
    (hi : i = .wait row.sel ∨ i = row.form) :
    ∃ w, fieldIs row.bit 1 row.target = waitHit c w ∧ row.tag = waitTag w ∧
      ∀ s, exec i s = waitOperation true w s := by
  have both {w : WaitName} (hsel : ∀ s, exec (.wait row.sel) s = waitOperation true w s)
      (hform : ∀ s, exec row.form s = waitOperation true w s) : ∀ s, exec i s = waitOperation true w s := by
    obtain rfl | rfl := hi
    · exact hsel
    · exact hform
  simp only [waitRows, List.mem_cons, List.not_mem_nil, or_false] at hrow
  obtain rfl | rfl | rfl | rfl | rfl | rfl := hrow
  · exact ⟨.pldWNotFull, rfl, rfl, both (fun _ => rfl) fun _ => rfl⟩
  · exact ⟨.pldWEmpty, rfl, rfl, both (fun _ => rfl) fun _ => rfl⟩
  · exact ⟨.pldRFull, rfl, rfl, both (fun _ => rfl) fun _ => rfl⟩
  · exact ⟨.pldRNotEmpty, rfl, rfl, both (fun _ => rfl) fun _ => rfl⟩
  · exact ⟨.cmdNotFull, rfl, rfl, both (fun _ => rfl) fun _ => rfl⟩
  · exact ⟨.cmdEmpty, rfl, rfl, both (fun _ => rfl) fun _ => rfl⟩

/-! ### The read that ends a wait (R101, R102) -/

/-- An operation that lends no buffer, and whose body only uses answers and emits events, does nothing else: the
block was idle before it and is idle again. -/
theorem operation_returned {verdict : Verdict} {body : State → Flow Result} {s : State} {n : Nat}
    {evs : List Event} {r : Result} (hready : Ready s) (hv : verdict = .run)
    (hbody : body (start none s) = .done r (((start none s).afterReads n).emits evs)) :
    operation true none verdict body s = .next (returned s n evs r) := by
  have hidle : s.busy = false := hready.2.1
  rw [operation_done hready hv hbody, reply_none]
  simp [returned, State.emits, State.afterReads, hidle]

/-- Settles O19: the body is the poll, which ends at its first hit (`waitFor_hit`). -/
theorem namedWaitReturnsOk : Obligations.NamedWaitReturnsOk := by
  intro s row k i hready hlive hrow hi hk hfirst
  obtain ⟨w, hhit, -, hexec⟩ := exec_waitRow hrow hi
  rw [hhit] at hfirst
  rw [hexec]
  exact operation_returned hready rfl (waitFor_hit (s := start none s) hlive hk hfirst)

/-- Settles O20: the body is the poll, which misses its whole budget (`waitFor_miss`). -/
theorem namedWaitTimesOut : Obligations.NamedWaitTimesOut := by
  intro s row i hready hlive hrow hi hmiss
  obtain ⟨w, hhit, htag, hexec⟩ := exec_waitRow hrow hi
  rw [hhit] at hmiss
  rw [hexec, htag]
  exact operation_returned hready rfl (waitFor_miss (s := start none s) hlive hmiss)

/-! ### A wait only reads the status register (R103) -/

/-- A wait, ended or hung, has only read the status register and slept, and left the response buffer alone. -/
theorem waitFor_pollEvents (w : WaitName) (s : State) :
    (waitFor w s).Spec s
      (fun _ evs t => PollEvents s.cfg.offCmdPktStatus s.cfg.pollIntervalUs evs ∧ t.response = s.response)
      (fun evs t => PollEvents s.cfg.offCmdPktStatus s.cfg.pollIntervalUs evs ∧ t.response = s.response) :=
  (waitFor_spec w s).mono (fun _ _ _ _ ⟨hends, hresponse⟩ => ⟨(pollEnds_events hends).1, hresponse⟩)
    fun _ _ _ ⟨hevents, _, hresponse⟩ => ⟨hevents, hresponse⟩

/-- Settles O21: on a ready block the wait runs, and neither its start nor its end touches more than `busy` and the
result. -/
theorem pollHasNoSideEffects : Obligations.PollHasNoSideEffects := by
  intro s t row i hready hrow hi h
  obtain ⟨w, -, -, hexec⟩ := exec_waitRow hrow hi
  obtain rfl : finish none (waitFor w (start none s)) = t := by
    rw [hexec, waitOperation, operation_run hready rfl rfl] at h
    cases h; rfl
  have hspec := waitFor_pollEvents w (start none s)
  cases hwait : waitFor w (start none s) with
  | done r u =>
    rw [hwait] at hspec
    obtain ⟨evs, hran, hevents, hresponse⟩ := hspec
    rw [finish, reply_none]
    exact ⟨hran.initialized, hran.fault, hran.refused, hresponse, evs, hran.trace, hevents⟩
  | stuck u =>
    rw [hwait] at hspec
    obtain ⟨evs, hran, -, hevents, hresponse⟩ := hspec
    exact ⟨hran.initialized, hran.fault, hran.refused, hresponse, evs, hran.trace, hevents⟩

end Sys2Proof.Machine
end

section
/-! PROOFS. 41_encoder: the gated header and payload writes (R125, R130), the short writes (R121–R124), the long write
(R127–R132), what it has written (R136), and the header that ends every successful write (R126). -/

namespace Sys2Proof.Machine

open Sys2Proof Sys2Proof.Claims

/-! ### Operations that are one gated write (R125, R130) -/

section

variable {verdict : Verdict} {body : State → Flow Result} {s : State} {h : Word}

/-- A body that comes to one header write whose gate opens at read k+1. -/
theorem operation_hdrWrite_hit {k : Nat} (hready : Ready s) (hlive : Live s) (hv : verdict = .run)
    (hbody : body (start none s) = hdrWrite h (start none s)) (hk : k < s.cfg.retryMax)
    (hfirst : s.FirstHit (cmdFree s.cfg) 0 k) :
    operation true none verdict body s = .next (returned s (k + 1)
      (statusPoll s.cfg (s.peeks 0 (k + 1)) ++ [.wr s.cfg.offGenHdr h]) .ok) :=
  operation_returned hready hv (hbody.trans (hdrWrite_hit (s := start none s) hlive hk hfirst))

/-- A body that comes to one header write whose gate stays shut. -/
theorem operation_hdrWrite_miss (hready : Ready s) (hlive : Live s) (hv : verdict = .run)
    (hbody : body (start none s) = hdrWrite h (start none s))
    (hmiss : s.AllMiss (cmdFree s.cfg) 0 s.cfg.retryMax) :
    operation true none verdict body s = .next (returned s s.cfg.retryMax
      (statusPoll s.cfg (s.peeks 0 s.cfg.retryMax)) (.timeout .cmdFifo)) :=
  operation_returned hready hv (hbody.trans (hdrWrite_miss (s := start none s) hlive hmiss))

end

/-- Every header row is the gated write of the row's code and operands (R70, R74). -/
theorem exec_headerRow {s : State} {row : (BitVec 2 → Byte → Byte → Instr) × BitVec 6} (vc : BitVec 2) (lo hi : Byte)
    (hrow : row ∈ headerRows s.cfg) :
    exec (row.1 vc lo hi) s = operation true none .run (hdrWrite (hdr s.cfg row.2 vc lo hi)) s := by
  simp only [headerRows, List.mem_cons, List.not_mem_nil, or_false] at hrow
  obtain rfl | rfl | rfl | rfl | rfl | rfl | rfl | rfl | rfl | rfl | rfl | rfl := hrow <;> rfl

/-- Settles O25: every row is one header write (`exec_headerRow`), whose gate opens or stays shut. -/
theorem headerWordIsGatedWrite : Obligations.HeaderWordIsGatedWrite := by
  intro s row vc lo hi hready hlive hrow
  rw [exec_headerRow vc lo hi hrow]
  exact ⟨fun k hk hfirst => operation_hdrWrite_hit hready hlive rfl rfl hk hfirst,
    fun hmiss => operation_hdrWrite_miss hready hlive rfl rfl hmiss⟩

/-- Settles O26: the body is the gated write of the word of the four bytes (`pword_eq_word`). -/
theorem payloadWordIsGatedWrite : Obligations.PayloadWordIsGatedWrite := by
  intro s b0 b1 b2 b3 hready hlive
  have hword : pword [b0, b1, b2, b3] 0 = b3 ++ b2 ++ b1 ++ b0 := pword_eq_word _ 0
  refine ⟨fun k hk hfirst => ?_, fun hmiss => ?_⟩
  · rw [← hword]
    exact operation_returned hready rfl (pldWrite_hit (s := start none s) hlive hk hfirst fun _ _ => rfl)
  · exact operation_returned hready rfl (pldWrite_miss (s := start none s) hlive hmiss)

/-! ### Short writes (R120–R125) -/

theorem descriptor_wf_payload {d : Descriptor} (h : d.wf = true) : d.payload.wf = true := by
  simp only [Descriptor.wf, Bool.and_eq_true] at h
  exact h.1.2

theorem gswVerdict_run {c : Config} {d : Descriptor} (h : GswValid c d) : gswVerdict c d = .run := by
  obtain ⟨hlen, hgiven, hfamily⟩ := h
  have htype : genSwFamily c (typeBits d) = true := by
    simpa [genSwFamily, typeBits, or_assoc] using hfamily
  simp [gswVerdict, gswValid, hlen, (payloadGiven_iff _).2 hgiven, htype]

theorem dswVerdict_run {c : Config} {d : Descriptor} (h : DswValid c d) : dswVerdict c d = .run := by
  obtain ⟨hlen, hgiven, hfamily⟩ := h
  have htype : dcsSwFamily c (typeBits d) = true := by
    simpa [dcsSwFamily, typeBits] using hfamily
  simp [dswVerdict, dswValid, hlen, (payloadGiven_iff _).2 hgiven, htype]

/-- The header of a DCS short write: one inline byte at most, `WC_MSB` zero (R124). -/
def dswHeader (c : Config) (d : Descriptor) : Word :=
  hdr c (BitVec.ofNat 6 d.dataType) (BitVec.ofNat 2 d.channelId) (byteOf d.payload 0) 0#8

theorem gswBody_stable {d : Descriptor} {s : State} (htx : s.txChanged = []) (hwf : d.payload.wf = true) :
    gswBody d s = hdrWrite (inlineHeader s.cfg d) s := by
  rw [gswBody, inlineHdr_stable htx hwf]
  rfl

theorem dswBody_stable {d : Descriptor} {s : State} (htx : s.txChanged = []) (hwf : d.payload.wf = true) :
    dswBody d s = hdrWrite (dswHeader s.cfg d) s := by
  simp only [dswBody, inlineByte_wf htx hwf]
  rfl

theorem exec_gsw {d : Descriptor} (hwf : d.wf = true) (s : State) :
    exec (.gsw d) s = operation true none (gswVerdict s.cfg d) (gswBody d) s := by
  rw [← hwf]; rfl

theorem exec_dsw {d : Descriptor} (hwf : d.wf = true) (s : State) :
    exec (.dsw d) s = operation true none (dswVerdict s.cfg d) (dswBody d) s := by
  rw [← hwf]; rfl

/-- Settles O22: with a stable payload the body is the write of the inline header. -/
theorem gswWritesItsHeader : Obligations.GswWritesItsHeader := by
  intro d s k hready hlive hstable hwf hvalid hk hfirst
  rw [exec_gsw hwf]
  exact operation_hdrWrite_hit hready hlive (gswVerdict_run hvalid)
    (gswBody_stable (s := start none s) hstable.1 (descriptor_wf_payload hwf)) hk hfirst

/-- Settles O23: with a stable payload the body is the write of the one-byte header. -/
theorem dswWritesItsHeader : Obligations.DswWritesItsHeader := by
  intro d s k hready hlive hstable hwf hvalid hk hfirst
  rw [exec_dsw hwf]
  exact operation_hdrWrite_hit hready hlive (dswVerdict_run hvalid)
    (dswBody_stable (s := start none s) hstable.1 (descriptor_wf_payload hwf)) hk hfirst

/-- Settles O24: the bodies are those of O22 and O23; the gate of the one header write stays shut. -/
theorem shortWriteTimesOut : Obligations.ShortWriteTimesOut := by
  intro d s i hready hlive hstable hwf hi hmiss
  have hpayload := descriptor_wf_payload hwf
  obtain ⟨rfl, hvalid⟩ | ⟨rfl, hvalid⟩ := hi
  · rw [exec_gsw hwf]
    exact operation_hdrWrite_miss hready hlive (gswVerdict_run hvalid)
      (gswBody_stable (s := start none s) hstable.1 hpayload) hmiss
  · rw [exec_dsw hwf]
    exact operation_hdrWrite_miss hready hlive (dswVerdict_run hvalid)
      (dswBody_stable (s := start none s) hstable.1 hpayload) hmiss

/-! ### The long write, by `LW` or by `SEND` (R129, R182, R184, R187) -/

theorem exec_lw {d : Descriptor} (hwf : d.wf = true) (s : State) :
    exec (.lw d) s = operation true none (lwVerdict s.cfg d) (lwBody d) s := by
  rw [← hwf]; rfl

theorem lwVerdict_invalid {c : Config} {d : Descriptor} (h : ¬ Given d.payload) : lwVerdict c d = .invalid := by
  rw [lwVerdict, if_pos (Bool.eq_false_iff.2 fun hgiven => h ((payloadGiven_iff _).1 hgiven))]

theorem lwVerdict_fault {c : Config} {d : Descriptor} (hgiven : Given d.payload)
    (hdepth : c.pldFifoDepth < d.payload.len) : lwVerdict c d = .fault .payloadExceedsFifoDepth := by
  simp [lwVerdict, (payloadGiven_iff _).2 hgiven, hdepth]

theorem lwVerdict_run {c : Config} {d : Descriptor} (hgiven : Given d.payload)
    (hdepth : d.payload.len ≤ c.pldFifoDepth) : lwVerdict c d = .run := by
  simp [lwVerdict, (payloadGiven_iff _).2 hgiven, Nat.not_lt.2 hdepth]

theorem rowPath_longRow {c : Config} {len : Nat} {dcs : Bool} {dt : BitVec 6} (hlen : 3 ≤ len)
    (h : (dcs, dt) ∈ longRows c) : rowPath c (classify len false dcs) = some (.lw, dt) := by
  obtain ⟨n, rfl⟩ : ∃ n, len = n + 3 := ⟨len - 3, by omega⟩
  simp only [longRows, List.mem_cons, List.not_mem_nil, or_false, Prod.mk.injEq] at h
  obtain ⟨rfl, rfl⟩ | ⟨rfl, rfl⟩ := h <;> rfl

theorem sendPlan_longRow {c : Config} {tx : PayloadArg} {rx : ResponseArg} {dcs : Bool} {dt : BitVec 6}
    (hrx : rx.len = 0) (htx : 3 ≤ tx.len) (hrow : (dcs, dt) ∈ longRows c) :
    sendPlan c tx rx dcs = some (.lw, descriptorFor c dt tx rx 0b00) := by
  have hreq : decide (0 < rx.len) = false := by simp [hrx]
  simp only [sendPlan, hreq, rowPath_longRow htx hrow]
  rfl

/-- With no response requested only the payload could be missing (R200). -/
theorem not_sendNull_unrequested {tx : PayloadArg} {rx : ResponseArg} (htx : Given tx) (hrx : rx.len = 0) :
    sendNull tx rx = false := by
  obtain hlen | hbytes := htx
  · simp [sendNull, hlen, hrx]
  · simp [sendNull, hrx, PayloadArg.present, Option.isSome_iff_ne_none.2 hbytes]

/-- A body is run on the state the operation starts in, and nowhere else. -/
theorem operation_congr {accepted : Bool} {lent : Option (List Nat)} {verdict : Verdict}
    {body body' : State → Flow Result} {s : State} (h : body (start lent s) = body' (start lent s)) :
    operation accepted lent verdict body s = operation accepted lent verdict body' s := by
  simp only [operation, h]

/-- However it is asked for, a long write is the operation of `LW` on its descriptor. -/
theorem exec_longWriteAsked {i : Instr} {d : Descriptor} {s : State} (h : LongWriteAsked s.cfg i d) :
    exec i s = operation true (lentBy i) (lwVerdict s.cfg d) (lwBody d) s := by
  obtain ⟨rfl, hwf, -⟩ | ⟨tx, rx, dcs, dt, rfl, htx, hrx, hgiven, hlen, hlong, hrow, rfl⟩ := h
  · exact exec_lw hwf s
  · have hplan := sendPlan_longRow hlen hlong hrow
    have haccepted : (tx.wf && rx.wf) = true := by simp [htx, hrx]
    have hverdict : sendVerdict s.cfg tx rx dcs = lwVerdict s.cfg (descriptorFor s.cfg dt tx rx 0b00) := by
      rw [sendVerdict, not_sendNull_unrequested hgiven hlen, if_neg Bool.false_ne_true, hplan]
      rfl
    have hbody : sendBody tx rx dcs (start rx.buffer s) =
        lwBody (descriptorFor s.cfg dt tx rx 0b00) (start rx.buffer s) := by
      simp [sendBody, start_cfg, hplan, pathBody]
    show operation (tx.wf && rx.wf) rx.buffer (sendVerdict s.cfg tx rx dcs) (sendBody tx rx dcs) s = _
    rw [haccepted, hverdict]
    exact operation_congr hbody

theorem longWriteAsked_payload {c : Config} {i : Instr} {d : Descriptor} (h : LongWriteAsked c i d) :
    d.payload.wf = true ∧ Given d.payload := by
  obtain ⟨-, hwf, hgiven⟩ | ⟨tx, rx, dcs, dt, -, htx, -, hgiven, -, -, -, rfl⟩ := h
  · exact ⟨descriptor_wf_payload hwf, hgiven⟩
  · exact ⟨htx, hgiven⟩

/-- A long write lends no buffer, or one that holds no byte (R182). -/
theorem longWriteAsked_lent {c : Config} {i : Instr} {d : Descriptor} (h : LongWriteAsked c i d) :
    lentBy i = none ∨ lentBy i = some [] := by
  obtain ⟨rfl, -, -⟩ | ⟨tx, rx, dcs, dt, rfl, -, hrx, -, hlen, -, -, -⟩ := h
  · exact .inl rfl
  · cases hbuffer : rx.buffer with
    | none => exact .inl hbuffer
    | some b =>
      obtain rfl : b = [] := List.length_eq_zero_iff.1 ((response_length hrx hbuffer).trans hlen)
      exact .inr hbuffer

/-- A long write that passes its checks starts and runs `lw_body`. -/
theorem exec_longWriteRuns {i : Instr} {d : Descriptor} {s : State} (hready : Ready s)
    (h : LongWriteRuns s.cfg i d) : exec i s = .next (finish (lentBy i) (lwBody d (start (lentBy i) s))) := by
  obtain ⟨hdepth, hasked⟩ := h
  rw [exec_longWriteAsked hasked]
  exact operation_run hready rfl (lwVerdict_run (longWriteAsked_payload hasked).2 hdepth)

/-- Settles O13: `lwVerdict` asks for the payload before it compares the depth. -/
theorem longWriteChecksInOrder : Obligations.LongWriteChecksInOrder := by
  intro s hready
  refine ⟨fun d hwf hnull => ?_, fun i d hasked hdepth => ?_⟩
  · have hidle : s.busy = false := hready.2.1
    rw [exec_lw hwf, operation_invalid hready rfl (lwVerdict_invalid hnull), reply_none, ← hidle]
  · rw [exec_longWriteAsked hasked]
    exact operation_fault hready rfl (lwVerdict_fault (longWriteAsked_payload hasked).2 hdepth)

/-! ### Every gate open at once (R130, R131) -/

theorem firstHit_zero {s : State} {hit : Word → Bool} (h : hit (s.peek 0) = true) : s.FirstHit hit 0 0 :=
  ⟨fun _ hj => absurd hj (Nat.not_lt_zero _), h⟩

/-- The events of payload word i whose gate opens at the answer `v`. -/
def wordEvents (c : Config) (p : PayloadArg) (i : Nat) (v : Word) : List Event :=
  [.rd c.offCmdPktStatus v, .wr c.offGenPldData (pword (payloadBytes p) i)]

theorem pldWrite_open {p : PayloadArg} {i : Nat} {s : State} (hlive : Live s) (htx : s.txChanged = [])
    (hopen : pldWFree s.cfg (s.peek 0) = true) :
    pldWrite (payloadWord p i) s =
      .done .ok ((s.afterReads 1).emits (wordEvents s.cfg p i (s.peek 0))) :=
  pldWrite_hit hlive (cfg_retryMax s.cfg) (firstHit_zero hopen) fun _ _ => payloadWord_stable htx

theorem hdrWrite_open {h : Word} {s : State} (hlive : Live s) (hopen : cmdFree s.cfg (s.peek 0) = true) :
    hdrWrite h s = .done .ok ((s.afterReads 1).emits (headerEvents s.cfg (s.peek 0) h)) :=
  hdrWrite_hit hlive (cfg_retryMax s.cfg) (firstHit_zero hopen)

theorem writePayload_open (p : PayloadArg) : ∀ (n i : Nat) (s : State), Live s → s.txChanged = [] →
    (∀ j, j < n → pldWFree s.cfg (s.peek j) = true) →
    writePayload p n i s = .done .ok ((s.afterReads n).emits
      ((List.range n).flatMap fun j => wordEvents s.cfg p (i + j) (s.peek j)))
  | 0, _, s, _, _, _ => by simp [writePayload]
  | n + 1, i, s, hlive, htx, hopen => by
    have hrest := writePayload_open p n (i + 1) ((s.afterReads 1).emits (wordEvents s.cfg p i (s.peek 0)))
      hlive htx fun j hj => by simpa [Nat.add_comm] using hopen (j + 1) (by omega)
    rw [writePayload, pldWrite_open hlive htx (hopen 0 (by omega)), flow_ok_onOk, hrest]
    simp [List.range_succ_eq_map, List.flatMap_map, Nat.add_comm, Nat.add_left_comm]

theorem lwBody_open {d : Descriptor} {s : State} {n : Nat} (hn : n = wordCount d.payload.len) (hlive : Live s)
    (htx : s.txChanged = []) (hopen : ∀ j, j < n → pldWFree s.cfg (s.peek j) = true)
    (hlast : cmdFree s.cfg (s.peek n) = true) :
    lwBody d s = .done .ok ((s.afterReads (n + 1)).emits
      (((List.range n).flatMap fun j => wordEvents s.cfg d.payload j (s.peek j)) ++
        headerEvents s.cfg (s.peek n) (countHeader s.cfg (typeBits d) d d.payload.len))) := by
  subst hn
  rw [lwBody, writePayload_open d.payload _ 0 s hlive htx hopen, flow_ok_onOk, hdrWrite_open (by exact hlive)]
  · simp [countHdr, countHeader, channelBits, countLo, countHi]
  · simpa using hlast

/-- An operation that uses answers, emits events and returns `Ok` has done nothing else, but that a lent buffer is
the response buffer. -/
theorem operation_returned_ok {lent : Option (List Nat)} {verdict : Verdict} {body : State → Flow Result} {s : State}
    {n : Nat} {evs : List Event} (hready : Ready s) (hv : verdict = .run)
    (hbody : body (start lent s) = .done .ok (((start lent s).afterReads n).emits evs)) :
    operation true lent verdict body s =
      .next { returned s n evs .ok with response := (start lent s).response } := by
  have hidle : s.busy = false := hready.2.1
  rw [operation_done hready hv hbody, reply_ok]
  cases lent <;> simp [returned, State.emits, State.afterReads, hidle]

theorem start_txChanged (lent : Option (List Nat)) (s : State) : (start lent s).txChanged = s.txChanged := by
  cases lent <;> rfl

theorem start_trace (lent : Option (List Nat)) (s : State) : (start lent s).trace = s.trace := by
  cases lent <;> rfl

theorem start_response_empty {lent : Option (List Nat)} (h : lent = none ∨ lent = some []) (s : State) :
    (start lent s).response = if lent = none then s.response else [] := by
  obtain rfl | rfl := h <;> rfl

/-- Settles O27: each word and then the header find their gates open (`lwBody_open`). -/
theorem longWriteEventByEvent : Obligations.LongWriteEventByEvent := by
  intro i d s hready hlive hstable ⟨hdepth, hasked⟩ hopen hlast
  have hbody := lwBody_open (n := (d.payload.len + 3) / 4) (s := start (lentBy i) s) rfl ((start_live _ _).2 hlive)
    ((start_txChanged _ _).trans hstable.1) (by simpa only [start_cfg, start_peek] using hopen)
    (by simpa only [start_cfg, start_peek] using hlast)
  simp only [start_cfg, start_peek] at hbody
  rw [exec_longWriteAsked hasked, ← start_response_empty (longWriteAsked_lent hasked)]
  exact operation_returned_ok hready (lwVerdict_run (longWriteAsked_payload hasked).2 hdepth) hbody

/-! ### Whatever the environment answers (R130–R132, R135) -/

/-- The three ways a long write can end: with its result, the register writes among its events. -/
def LongWriteEnds (c : Config) (d : Descriptor) (r : Result) (evs : List Event) : Prop :=
  (r = .ok ∧ writes evs = payloadWrites c d.payload 0 (wordCount d.payload.len) ++
    [(c.offGenHdr, countHeader c (typeBits d) d d.payload.len)]) ∨
  (r = .timeout .pldFifoWrite ∧ ∃ n, n < wordCount d.payload.len ∧ writes evs = payloadWrites c d.payload 0 n) ∨
  (r = .timeout .cmdFifo ∧ writes evs = payloadWrites c d.payload 0 (wordCount d.payload.len))

/-- A header write writes its word, or, at a timeout, nothing (R125). -/
theorem hdrWrite_writes (h : Word) (s : State) :
    (hdrWrite h s).Spec s
      (fun r evs _ => (r = .ok ∧ writes evs = [(s.cfg.offGenHdr, h)]) ∨ (r = .timeout .cmdFifo ∧ writes evs = []))
      (fun _ _ => True) := by
  refine (hdrWrite_spec h s).mono ?_ (fun _ _ _ _ => trivial)
  rintro r evs t - ⟨-, ⟨rfl, ms, v, rfl, -⟩ | ⟨rfl, vs, rfl⟩⟩
  · refine .inl ⟨rfl, ?_⟩
    rw [writes_append, statusPoll, writes_pollTrace]
    rfl
  · exact .inr ⟨rfl, writes_pollTrace _ _ _⟩

theorem lwBody_ends (d : Descriptor) {s : State} (htx : s.txChanged = []) :
    (lwBody d s).Spec s (fun r evs _ => LongWriteEnds s.cfg d r evs) (fun _ _ => True) := by
  refine (writePayload_spec d.payload _ 0 s htx).onOk (fun _ _ _ => trivial) ?_ ?_
  · rintro r evs t hne (⟨rfl, -⟩ | hstopped)
    · exact absurd rfl hne
    · exact .inr (.inl hstopped)
  · rintro evs t hran (⟨-, hwords⟩ | ⟨hne, -⟩)
    · refine (hdrWrite_writes _ t).mono ?_ (fun _ _ _ _ => trivial)
      rintro r more u - (⟨rfl, hheader⟩ | ⟨rfl, hnone⟩)
      · refine .inl ⟨rfl, ?_⟩
        rw [writes_append, hwords, hheader, hran.cfg]
        rfl
      · refine .inr (.inr ⟨rfl, ?_⟩)
        rw [writes_append, hwords, hnone, List.append_nil]
    · cases hne

theorem payloadWrites_eq_map (c : Config) (p : PayloadArg) {n : Nat} (hn : n ≤ wordCount p.len) :
    payloadWrites c p 0 n = ((payloadWords p).take n).map fun w => (c.offGenPldData, w) := by
  have hmin : min n ((p.len + 3) / 4) = n := Nat.min_eq_left hn
  simp [payloadWrites, payloadWords, ← List.map_take, List.take_range, hmin, bytesOf, payloadBytes]

theorem payloadWords_length (p : PayloadArg) : (payloadWords p).length = wordCount p.len := by
  simp [payloadWords, wordCount]

theorem payloadWrites_all (c : Config) (p : PayloadArg) :
    payloadWrites c p 0 (wordCount p.len) = (payloadWords p).map fun w => (c.offGenPldData, w) := by
  rw [payloadWrites_eq_map c p (Nat.le_refl _), ← payloadWords_length, List.take_length]

/-- On a live platform an operation that runs ends with its body's result. -/
theorem finish_live {lent : Option (List Nat)} {s : State} {x : Flow Result}
    {P : Result → List Event → State → Prop} {Q : List Event → State → Prop} (hlive : Live s)
    (hx : x.Spec (start lent s) P Q) :
    ∃ r u evs, (finish lent x).result = some r ∧ (finish lent x).trace = s.trace ++ evs ∧ P r evs u := by
  cases x with
  | done r u =>
    obtain ⟨evs, hran, hp⟩ := hx
    obtain ⟨htrace, -⟩ := reply_fields lent r u
    exact ⟨r, u, evs, reply_result lent r u, by rw [finish, htrace, hran.trace, start_trace], hp⟩
  | stuck u =>
    obtain ⟨evs, hran, hstall, -⟩ := hx
    have hcompletes : u.stallAfter = none := hran.live ((start_live lent s).2 hlive)
    exact absurd (hcompletes.symm.trans hstall) (by simp)

/-- An operation that returned `Ok` has emitted its body's events. -/
theorem finish_ok_events {lent : Option (List Nat)} {s : State} {x : Flow Result}
    {P : Result → List Event → State → Prop} {Q : List Event → State → Prop} (hx : x.Spec (start lent s) P Q)
    (hok : (finish lent x).result = some .ok) :
    ∃ u evs, (finish lent x).trace = s.trace ++ evs ∧ P .ok evs u := by
  obtain ⟨u, evs, hreply, hran, hp⟩ := finish_ok hx hok
  exact ⟨u, evs, by rw [hreply, ← start_trace lent s]; exact hran.trace, hp⟩

/-- Settles O28: the body ends in one of three ways (`lwBody_ends`), and a live platform lets it end. -/
theorem longWriteCourse : Obligations.LongWriteCourse := by
  intro i d s hready hlive hstable hruns
  have hbody := lwBody_ends d ((start_txChanged (lentBy i) s).trans hstable.1)
  rw [start_cfg] at hbody
  obtain ⟨r, -, evs, hresult, htrace, hends⟩ := finish_live hlive hbody
  refine ⟨_, evs, exec_longWriteRuns hready hruns, htrace, ?_⟩
  rw [hresult, ← payloadWrites_all]
  obtain ⟨rfl, hwrites⟩ | ⟨rfl, n, hn, hwrites⟩ | ⟨rfl, hwrites⟩ := hends
  · exact .inl ⟨rfl, hwrites⟩
  · exact .inr (.inl ⟨rfl, n, hn, hwrites.trans (payloadWrites_eq_map _ _ hn.le)⟩)
  · exact .inr (.inr ⟨rfl, hwrites⟩)

/-! ### What a successful long write has written (R136) -/

theorem cfg_pldFifoDepth (c : Config) : c.pldFifoDepth ≤ 65535 := by
  have h := c.valid
  simp only [Params.wf, Bool.and_eq_true, decide_eq_true_eq] at h
  tauto

theorem payloadWords_getElem? {p : PayloadArg} {i : Nat} (hi : i < wordCount p.len) :
    (payloadWords p)[i]? = some (pword (payloadBytes p) i) := by
  have hrange : i < (p.len + 3) / 4 := hi
  rw [payloadWords, List.getElem?_map, List.getElem?_range hrange]
  rfl

/-- Byte k of the payload words, counted over the words in order, is byte k of the payload (R72). -/
theorem payloadWords_byte {p : PayloadArg} {k : Nat} (hk : k < 4 * wordCount p.len) :
    ((payloadWords p)[k / 4]?.getD 0#32).extractLsb' (8 * (k % 4)) 8 = byteOf p k := by
  rw [payloadWords_getElem? (by omega), Option.getD_some]
  calc (pword (payloadBytes p) (k / 4)).extractLsb' (8 * (k % 4)) 8
    _ = byteOrZero (payloadBytes p) (4 * (k / 4) + k % 4) :=
      payload_byte_pword _ _ (Nat.mod_lt k (by decide))
    _ = byteOrZero (payloadBytes p) k := by rw [Nat.div_add_mod]

/-- A payload that is given and represented has as many bytes as its length says. -/
theorem bytesOf_length {p : PayloadArg} (hwf : p.wf = true) (hgiven : Given p) : (bytesOf p).length = p.len := by
  obtain hlen | hnone := payloadBytes_length hwf
  · exact hlen
  · obtain hzero | hbytes := hgiven
    · simp [bytesOf, hnone, hzero]
    · exact absurd hnone hbytes

/-- The register writes of a long write that ended with `Ok`, however long the platform took. -/
theorem longWrite_writes_of_ok {i : Instr} {d : Descriptor} {s t : State} {evs : List Event} (hready : Ready s)
    (hstable : Stable s) (hruns : LongWriteRuns s.cfg i d) (hexec : exec i s = .next t)
    (hok : t.result = some .ok) (htrace : t.trace = s.trace ++ evs) :
    writes evs = (payloadWords d.payload).map (fun w => (s.cfg.offGenPldData, w)) ++
      [(s.cfg.offGenHdr, countHeader s.cfg (typeBits d) d d.payload.len)] := by
  obtain rfl : finish (lentBy i) (lwBody d (start (lentBy i) s)) = t := by
    rw [exec_longWriteRuns hready hruns] at hexec; cases hexec; rfl
  have hbody := lwBody_ends d ((start_txChanged (lentBy i) s).trans hstable.1)
  rw [start_cfg] at hbody
  obtain ⟨-, evs', htrace', hends⟩ := finish_ok_events hbody hok
  obtain rfl : evs' = evs := List.append_cancel_left (htrace'.symm.trans htrace)
  obtain ⟨-, hwrites⟩ | ⟨hne, -⟩ | ⟨hne, -⟩ := hends
  · rw [hwrites, payloadWrites_all]
  · cases hne
  · cases hne

/-- A trace's writes determine the words and the header among them. -/
theorem words_header_unique {off hdrOff : Nat} {ws ws' : List Word} {h h' : Word}
    (heq : ws.map (fun w => (off, w)) ++ [(hdrOff, h)] = ws'.map (fun w => (off, w)) ++ [(hdrOff, h')]) :
    ws = ws' ∧ h = h' := by
  obtain ⟨hwords, hheader⟩ := List.append_inj' heq rfl
  exact ⟨List.map_injective_iff.2 (fun _ _ hpair => (Prod.mk.inj hpair).2) hwords, by simpa using hheader⟩

/-- Settles O29: the words written are the payload's words, whose bytes are the payload's (`payloadWords_byte`), and
the header's count fields give the length (`byteCountSplitExact`). -/
theorem longWriteRoundTrip : Obligations.LongWriteRoundTrip := by
  intro i d s t evs ws h hready hstable hruns hexec hok htrace hwrites
  obtain ⟨rfl, rfl⟩ := words_header_unique
    (hwrites.symm.trans (longWrite_writes_of_ok hready hstable hruns hexec hok htrace))
  obtain ⟨hdepth, hasked⟩ := hruns
  obtain ⟨hwf, hgiven⟩ := longWriteAsked_payload hasked
  obtain ⟨-, -, hcount⟩ := byteCountSplitExact s.cfg (typeBits d) d d.payload.len
    (hdepth.trans (cfg_pldFifoDepth s.cfg))
  have hlength := payloadWords_length d.payload
  refine ⟨hcount, hlength, fun k hk => ⟨payloadWords_byte ?_, ?_⟩, fun k hpast hk => ?_⟩
  · unfold wordCount; omega
  · rwa [bytesOf_length hwf hgiven]
  · rw [payloadWords_byte (hlength ▸ hk)]
    exact byteOrZero_past hwf hpast

/-! ### The header that ends every successful write (R125, R126) -/

/-- The last two events are a read that shows the command FIFO not full, and a write to `GEN_HDR`. -/
def EndsWithHeader (c : Config) (evs : List Event) : Prop :=
  ∃ pre v h, evs = pre ++ [.rd c.offCmdPktStatus v, .wr c.offGenHdr h] ∧ cmdFree c v = true

/-- A piece whose events, if it ends with `Ok`, end with a gated header write. -/
abbrev Flow.HeaderLast (s : State) (x : Flow Result) : Prop :=
  x.Spec s (fun r evs _ => r = .ok → EndsWithHeader s.cfg evs) (fun _ _ => True)

theorem hdrWrite_headerLast (h : Word) (s : State) : (hdrWrite h s).HeaderLast s := by
  refine (hdrWrite_spec h s).mono ?_ (fun _ _ _ _ => trivial)
  rintro r evs t - ⟨-, ⟨-, ms, v, rfl, hfree⟩ | ⟨rfl, -⟩⟩ hok
  · obtain ⟨pre, hpoll, -⟩ := pollTrace_append s.cfg.offCmdPktStatus s.cfg.pollIntervalUs v ms
    exact ⟨pre, v, h, by rw [statusPoll, hpoll, List.append_assoc]; rfl, hfree⟩
  · cases hok

theorem gswBody_headerLast (d : Descriptor) (s : State) : (gswBody d s).HeaderLast s := by
  obtain ⟨n, hn⟩ := inlineHdr_draws d s
  rw [gswBody, hn]
  exact (hdrWrite_headerLast _ { s with draws := n }).draws

theorem dswBody_headerLast (d : Descriptor) (s : State) : (dswBody d s).HeaderLast s := by
  obtain ⟨n, hn⟩ := inlineByte_draws d.payload 0 s
  simp only [dswBody]
  rw [hn]
  exact (hdrWrite_headerLast _ { s with draws := n }).draws

theorem lwBody_headerLast (d : Descriptor) (s : State) : (lwBody d s).HeaderLast s := by
  have hpayload : (writePayload d.payload (wordCount d.payload.len) 0 s).Spec s (fun _ _ _ => True)
      (fun _ _ => True) :=
    Flow.Spec.mono (writePayload_safe d.payload none _ 0 s) (fun _ _ _ _ _ => trivial) fun _ _ _ _ => trivial
  refine hpayload.onOk (fun _ _ _ => trivial) (fun _ _ _ hne _ hok => absurd hok hne) fun evs t hran _ => ?_
  refine (hdrWrite_headerLast _ t).mono ?_ (fun _ _ _ _ => trivial)
  intro r more u _ hlast hok
  obtain ⟨pre, v, h, rfl, hfree⟩ := hlast hok
  rw [hran.cfg] at hfree ⊢
  exact ⟨evs ++ pre, v, h, (List.append_assoc _ _ _).symm, hfree⟩

/-- `SEND` with no response requested runs one of the three writes, or is rejected (R184). -/
theorem sendBody_headerLast {tx : PayloadArg} {rx : ResponseArg} (hrx : rx.len = 0) (dcs : Bool) (s : State) :
    (sendBody tx rx dcs s).HeaderLast s := by
  unfold sendBody
  split
  · exact Flow.Spec.done (nomatch ·)
  · rename_i path d hplan
    obtain ⟨-, -, ⟨-, hread⟩ | ⟨rfl, -⟩ | ⟨rfl | rfl, -⟩⟩ := sendPlan_cases hplan
    · omega
    · exact lwBody_headerLast d s
    · exact gswBody_headerLast d s
    · exact dswBody_headerLast d s

/-- The write operations: the short writes, the long write, and `SEND` with no response requested (R126). -/
def WriteAsked (i : Instr) : Prop :=
  (∃ d, i = .gsw d ∨ i = .dsw d ∨ i = .lw d) ∨ ∃ tx rx dcs, i = .send tx rx dcs ∧ rx.len = 0

theorem opBody_headerLast {i : Instr} (h : WriteAsked i) (c : Config) (s : State) : (opBody c i s).HeaderLast s := by
  obtain ⟨d, rfl | rfl | rfl⟩ | ⟨tx, rx, dcs, rfl, hrx⟩ := h
  · exact gswBody_headerLast d s
  · exact dswBody_headerLast d s
  · exact lwBody_headerLast d s
  · exact sendBody_headerLast hrx dcs s

/-- An operation other than `INIT` returns `Ok` only from its body, on a ready block. -/
theorem exec_ok_ran {i : Instr} {s t : State} (hne : i ≠ .init) (hexec : exec i s = .next t)
    (hready : Ready s) (hok : t.result = some .ok) :
    t = finish (opLent i) (opBody s.cfg i (start (opLent i) s)) := by
  obtain ⟨-, hidle, hinit⟩ := hready
  obtain ⟨-, ⟨-, rfl⟩ | ⟨-, hbusy, -⟩ | ⟨rfl, -⟩ | ⟨-, -, -, huninit, -⟩ | ⟨-, -, -, h⟩⟩ := exec_cases hexec
  · cases hok
  · exact absurd (hidle.symm.trans hbusy) Bool.false_ne_true
  · exact absurd rfl hne
  · exact absurd (huninit.symm.trans hinit) Bool.false_ne_true
  · obtain ⟨-, rfl⟩ | ⟨f, -, rfl⟩ | ⟨-, rfl⟩ := h
    · rw [reply_result] at hok; cases hok
    · cases hok
    · rfl

/-- Settles O30: `Ok` comes from the body (`exec_ok_ran`), and every write body ends with its gated header write. -/
theorem okWriteEndsWithHeader : Obligations.OkWriteEndsWithHeader := by
  intro i s t hready hexec hok hwrite
  have hne : i ≠ .init := by rintro rfl; simp at hwrite
  obtain rfl := exec_ok_ran hne hexec hready hok
  obtain ⟨-, evs, htrace, hlast⟩ := finish_ok_events (opBody_headerLast hwrite s.cfg (start (opLent i) s)) hok
  obtain ⟨pre, v, h, rfl, hfree⟩ := hlast rfl
  rw [start_cfg] at htrace hfree
  exact ⟨pre, v, h, htrace.trans (List.append_assoc _ _ _).symm, hfree⟩

end Sys2Proof.Machine
end

section
/-! PROOFS. 42_bta: what `BTAEN` and `BTADIS` do to the two enable bits (R160, R161) and what the block's own writes
then show (R162); the two phases of `BTAWAIT` (R164–R166). -/

namespace Sys2Proof.Machine

open Sys2Proof Sys2Proof.Claims

/-! ### Enabling and disabling (R160–R162) -/

/-- The four events that give both turn-around bits the value `b`, the registers holding `v` and `w`. -/
def setBtaEvents (c : Config) (b : Bool) (v w : Word) : List Event :=
  btaTrace c v (withAckRqstEn c b v) w (withBtaEn c b w)

theorem setBtaEvents_true (c : Config) (v w : Word) : setBtaEvents c true v w = enableEvents c v w := rfl

theorem setBtaEvents_false (c : Config) (v w : Word) : setBtaEvents c false v w = disableEvents c v w := rfl

/-- An operation whose body sets both bits to `b` and returns `Ok`: `BTAEN` and `BTADIS` are its two cases. -/
theorem operation_setBta (b : Bool) {s : State} (hready : Ready s) (hlive : Live s) :
    operation true none .run (fun s => (setBta b s).bind fun _ s => .done .ok s) s =
      .next (returned s 2 (setBtaEvents s.cfg b (s.peek 0) (s.peek 1)) .ok) := by
  refine operation_returned hready rfl ?_
  rw [setBta_live (s := start none s) hlive, flow_done_bind]
  rfl

theorem exec_btaen {s : State} (hready : Ready s) (hlive : Live s) :
    exec .btaen s = .next (returned s 2 (setBtaEvents s.cfg true (s.peek 0) (s.peek 1)) .ok) :=
  operation_setBta true hready hlive

theorem exec_btadis {s : State} (hready : Ready s) (hlive : Live s) :
    exec .btadis s = .next (returned s 2 (setBtaEvents s.cfg false (s.peek 0) (s.peek 1)) .ok) :=
  operation_setBta false hready hlive

/-- Settles O31: the `true` case of `operation_setBta`. -/
theorem btaenSetsBothBits : Obligations.BtaenSetsBothBits := by
  intro s hready hlive
  rw [exec_btaen hready hlive, setBtaEvents_true]

/-- Settles O32: the `false` case of `operation_setBta`. -/
theorem btadisClearsBothBits : Obligations.BtadisClearsBothBits := by
  intro s hready hlive
  rw [exec_btadis hready hlive, setBtaEvents_false]

/-- A one-bit field holds the bit written to it (R11). -/
theorem setf_bool_getLsbD (v : Word) (b : Bool) {pos : Nat} (hpos : pos < 32) :
    (setf v pos 1 (if b then 1 else 0)).getLsbD pos = b := by
  rw [fieldWriteKeepsOtherBits v _ pos pos hpos, if_pos rfl]
  cases b <;> rfl

/-- After the four events the last writes to both registers have the bit at `b`, whatever the registers held and
whatever the trace was: `BtaEnabled` where `b` is true, `BtaDisabled` where it is false. -/
theorem lastWrites_setBtaEvents (c : Config) (b : Bool) (tr : List Event) (v w : Word) :
    ∃ x y, lastWrite c.offCmdModeCfg (tr ++ setBtaEvents c b v w) = some x ∧
      lastWrite c.offPckhdlCfg (tr ++ setBtaEvents c b v w) = some y ∧
      x.getLsbD c.bitAckRqstEn = b ∧ y.getLsbD c.bitBtaEn = b := by
  obtain ⟨hmode, hpckhdl⟩ := lastWrite_btaTrace c tr v (withAckRqstEn c b v) w (withBtaEn c b w)
  obtain ⟨hack, hbta⟩ := cfg_bits c
  exact ⟨_, _, hmode, hpckhdl, setf_bool_getLsbD v b hack, setf_bool_getLsbD w b hbta⟩

/-- Settles O34: the last writes are the operation's own two (`lastWrites_setBtaEvents`). -/
theorem btaStateFollowsOwnWrites : Obligations.BtaStateFollowsOwnWrites := fun s hready hlive =>
  ⟨⟨_, exec_btaen hready hlive, lastWrites_setBtaEvents s.cfg true s.trace _ _⟩,
   ⟨_, exec_btadis hready hlive, lastWrites_setBtaEvents s.cfg false s.trace _ _⟩⟩

/-! ### Waiting for the acknowledge (R164–R166) -/

/-- Phase 1 goes on exactly while the direction field shows TX. -/
theorem leftTx_eq_false_iff {c : Config} (v : Word) : leftTx c v = false ↔ ShowsDir c v c.dirTx :=
  bne_eq_false_iff_eq

/-- Phase 2 goes on exactly while the direction field shows RX. -/
theorem leftRx_eq_false_iff {c : Config} (v : Word) : leftRx c v = false ↔ ShowsDir c v c.dirRx :=
  bne_eq_false_iff_eq

section

variable {s : State} {hit : Word → Bool} {code a : Nat}
  (hmiss : ∀ v, hit v = false ↔ ShowsDir s.cfg v code)

include hmiss

/-- A direction that stays at the code makes every read a miss. -/
theorem allMiss_of_showsDir {n : Nat} (hstay : ∀ m, m < n → ShowsDir s.cfg (s.peek (a + m)) code) :
    s.AllMiss hit a n :=
  fun m hm => (hmiss _).2 (hstay m hm)

/-- The first read whose direction is not the code is the hit. -/
theorem firstHit_of_showsDir {k : Nat} (hstay : ∀ m, m < k → ShowsDir s.cfg (s.peek (a + m)) code)
    (hleft : ¬ ShowsDir s.cfg (s.peek (a + k)) code) : s.FirstHit hit a k :=
  ⟨allMiss_of_showsDir hmiss hstay, Bool.eq_true_of_not_eq_false (mt (hmiss _).1 hleft)⟩

end

/-- Phase 1 counts its reads from the operation's first. -/
theorem firstHit_leftTx {s : State} {j : Nat} (hstay : ∀ m, m < j → ShowsDir s.cfg (s.peek m) s.cfg.dirTx)
    (hleft : ¬ ShowsDir s.cfg (s.peek j) s.cfg.dirTx) : s.FirstHit (leftTx s.cfg) 0 j :=
  firstHit_of_showsDir leftTx_eq_false_iff (by simpa only [Nat.zero_add] using hstay)
    (by rwa [Nat.zero_add])

/-- Settles O35: each phase ends at the first read that leaves its direction (`waitForAck_hit`). -/
theorem btawaitReturnsOk : Obligations.BtawaitReturnsOk := by
  intro s j k hready hlive hj hk htx hleftTx hrx hleftRx
  have hphase1 := firstHit_leftTx htx hleftTx
  have hphase2 := firstHit_of_showsDir leftRx_eq_false_iff hrx hleftRx
  exact operation_returned hready rfl (waitForAck_hit (s := start none s) hlive hj hk hphase1 hphase2)

/-- Settles O36: the poll of phase 1 misses its whole budget (`waitForAck_miss1`), or it ends and that of phase 2
misses its own (`waitForAck_miss2`). -/
theorem btawaitTimesOut : Obligations.BtawaitTimesOut := by
  intro s hready hlive
  refine ⟨fun htx => ?_, fun j hj htx hleftTx hrx => ?_⟩
  · have hphase1 : s.AllMiss (leftTx s.cfg) 0 s.cfg.retryMax :=
      allMiss_of_showsDir leftTx_eq_false_iff (by simpa only [Nat.zero_add] using htx)
    exact operation_returned hready rfl (waitForAck_miss1 (s := start none s) hlive hphase1)
  · have hphase1 := firstHit_leftTx htx hleftTx
    have hphase2 := allMiss_of_showsDir leftRx_eq_false_iff hrx
    exact operation_returned hready rfl (waitForAck_miss2 (s := start none s) hlive hj hphase1 hphase2)

end Sys2Proof.Machine
end

section
/-! PROOFS. 43_dispatcher: `INIT` (R194, R195, R197), the checks before the first event (R189), the classification and
the component each row of `SEND` runs (R184, R186, R187), and the read path (R190–R193). -/

namespace Sys2Proof.Machine

open Sys2Proof Sys2Proof.Claims

/-! ### `INIT` (R194, R195, R197) -/

theorem exec_init_idle {s : State} (hfault : s.fault = none) (hidle : s.busy = false) :
    exec .init s = .next { s with initialized := true, result := some .ok } := by
  simp [exec_init, execInit, hfault, hidle]

/-- Settles O17: an idle block without a fault mark is past the two checks `INIT` has. -/
theorem initMakesReady : Obligations.InitMakesReady := fun _ => exec_init_idle

/-- Settles O18: the state the first `INIT` answers is idle and unmarked, and has what the second would set. -/
theorem initIsIdempotent : Obligations.InitIsIdempotent := fun _ hfault hidle =>
  ⟨_, exec_init_idle hfault hidle, exec_init_idle hfault hidle⟩

/-- Settles O50: of the three things a step can do, waiting leaves readiness alone, a reset is excluded, and an
operation only ever adds it. -/
theorem onlyResetDeinitializes : Obligations.OnlyResetDeinitializes := by
  intro s t h hinit hport
  obtain ⟨-, rfl⟩ | ⟨rest, hreset, -⟩ | ⟨op, tx, rx, rest, i, -, hexec⟩ := step_cases h
  · exact hinit
  · exact absurd (by rw [hreset]; rfl) hport
  · obtain ⟨-, evs, did⟩ := exec_did hexec
    rw [did.initialized, taken_initialized, hinit, Bool.true_or]

/-! ### Rejections and faults come before the first event (R189) -/

/-- An operation that ran its body raises no fault, and returns nothing or a body's result: `Ok` or a timeout. -/
theorem Ends.unrejected {i : Instr} {s t : State} {evs : List Event} (h : Ends i s t evs) :
    t.fault = s.fault ∧ ∀ r, t.result = some r → Ended r := by
  obtain ⟨-, -, -, -, -, -, -, hfault, -, -, hresult⟩ := start_fields (opLent i) s
  obtain ⟨u, r, hran, hended, -, rfl⟩ | ⟨hran, -, -⟩ := h
  · obtain ⟨-, -, -, -, -, -, -, hreply, -, -, hr⟩ := reply_fields (opLent i) r u
    refine ⟨hreply.trans (hran.fault.trans hfault), fun r' h => ?_⟩
    obtain rfl : r = r' := Option.some.inj (hr.symm.trans h)
    exact hended
  · refine ⟨hran.fault.trans hfault, fun r h => ?_⟩
    rw [hran.result, hresult] at h
    cases h

/-- Settles O15: of all an operation can do (`exec_cases`), only running the body emits events, and what ran its
body is neither rejected nor faulted. -/
theorem noPartialDispatch : Obligations.NoPartialDispatch := by
  intro i s t h hrejected
  obtain ⟨hf, ⟨-, rfl⟩ | ⟨-, -, rfl⟩ | ⟨-, -, rfl⟩ | ⟨-, -, -, -, rfl⟩ | ⟨-, hwf, -, h⟩⟩ := exec_cases h
  · exact refuse_trace s
  · exact raiseFault_trace _ s
  · rfl
  · exact (reply_fields _ _ s).1
  · obtain ⟨-, rfl⟩ | ⟨f, -, rfl⟩ | ⟨hverdict, rfl⟩ := h
    · exact (reply_fields _ _ s).1
    · exact raiseFault_trace f s
    · obtain ⟨evs, -, -, hends⟩ := run_ends hwf hverdict
      obtain ⟨hfault, hended⟩ := hends.unrejected
      obtain hinvalid | hgate | hmarked := hrejected
      · obtain h | ⟨tag, h⟩ := hended _ hinvalid <;> cases h
      · obtain h | ⟨tag, h⟩ := hended _ hgate <;> cases h
      · exact absurd (hfault.trans hf) hmarked

/-! ### The `ACK` flag (R192) -/

theorem hasSetMax_xor_ack (f : BitVec 2) : hasSetMax (f ^^^ 1#2) = hasSetMax f := by
  revert f; decide

/-- Only the preliminary header of a read looks at the flags, and only at `SET_MAX` (R24, R134). -/
theorem maxSizeHdr_flags {d : Descriptor} {f : BitVec 2} (h : hasSetMax f = hasSetMax d.flags) (s : State) :
    maxSizeHdr { d with flags := f } s = maxSizeHdr d s := by
  simp only [maxSizeHdr, h]
  rfl

theorem grdBody_flags {d : Descriptor} {f : BitVec 2} (h : hasSetMax f = hasSetMax d.flags) :
    grdBody { d with flags := f } = grdBody d := by
  funext s
  simp only [grdBody, grdSeq, maxSizeHdr_flags h]
  rfl

/-- Settles O43: the checks and the three writes read no flag, and a read only `SET_MAX` (`grdBody_flags`). -/
theorem ackFlagChangesNothing : Obligations.AckFlagChangesNothing := by
  intro d s
  refine ⟨?_, rfl, rfl, rfl⟩
  show operation d.wf d.response.buffer (grdVerdict d) (grdBody { d with flags := d.flags ^^^ 1#2 }) s = _
  rw [grdBody_flags (hasSetMax_xor_ack d.flags)]
  rfl

/-! ### Classification (R184, R186, R187) -/

theorem rowPath_shortRow {c : Config} {len : Nat} {dcs : Bool} {dt : BitVec 6}
    (h : (len, dcs, dt) ∈ shortWriteRows c) :
    rowPath c (classify len false dcs) = some (if dcs then .dsw else .gsw, dt) := by
  simp only [shortWriteRows, List.mem_cons, List.not_mem_nil, or_false, Prod.mk.injEq] at h
  obtain ⟨rfl, rfl, rfl⟩ | ⟨rfl, rfl, rfl⟩ | ⟨rfl, rfl, rfl⟩ | ⟨rfl, rfl, rfl⟩ | ⟨rfl, rfl, rfl⟩ := h <;> rfl

theorem rowPath_longRead (c : Config) {len : Nat} (hlen : 3 ≤ len) (dcs : Bool) :
    rowPath c (classify len true dcs) = none := by
  obtain ⟨n, rfl⟩ : ∃ n, len = n + 3 := ⟨len - 3, by omega⟩
  cases dcs <;> rfl

/-- Settles O37: up to length 2 each row computes; from 3 on the length no longer matters. -/
theorem classificationRows : Obligations.ClassificationRows := fun c _ hn =>
  ⟨rfl, rfl, rfl, rfl, rfl, rfl, rfl, rfl, rfl, rfl, rfl, rfl, rowPath_longRead c hn,
    rowPath_longRow hn (.head _), rowPath_longRow hn (.tail _ (.head _)), rfl, rfl, rfl, rfl⟩

theorem sendPlan_shortRow {c : Config} {tx : PayloadArg} {rx : ResponseArg} {dcs : Bool} {dt : BitVec 6}
    (hrx : rx.len = 0) (hrow : (tx.len, dcs, dt) ∈ shortWriteRows c) :
    sendPlan c tx rx dcs = some (if dcs then .dsw else .gsw, descriptorFor c dt tx rx 0b00) := by
  have hreq : decide (0 < rx.len) = false := by simp [hrx]
  simp only [sendPlan, hreq, rowPath_shortRow hrow]
  cases dcs <;> rfl

/-- The descriptor of R186 has a representation where the operands of `SEND` have one. -/
theorem descriptorFor_wf {c : Config} {dt : BitVec 6} {tx : PayloadArg} {rx : ResponseArg} {flags : BitVec 2}
    (htx : tx.wf = true) (hrx : rx.wf = true) : (descriptorFor c dt tx rx flags).wf = true := by
  have hdt : dt.toNat ≤ 63 := by have := dt.isLt; omega
  simp [Descriptor.wf, descriptorFor, cfg_vc c, hdt, htx, hrx]

/-! ### `SEND` runs the component its row names (R187) -/

/-- The operation of the component a path runs. -/
def componentOf (d : Descriptor) : Path → Instr
  | .gsw => .gsw d
  | .dsw => .dsw d
  | .lw => .lw d
  | .read => .grd d

theorem pathVerdict_eq (c : Config) (d : Descriptor) (p : Path) :
    pathVerdict c d p = opVerdict c (componentOf d p) := by
  cases p <;> rfl

theorem pathBody_eq (c : Config) (d : Descriptor) (p : Path) : pathBody d p = opBody c (componentOf d p) := by
  cases p <;> rfl

/-- With nothing missing, `SEND` lends its own buffer and is in all else the component's operation. -/
theorem exec_send_planned {tx : PayloadArg} {rx : ResponseArg} {dcs : Bool} {s : State} {path : Path}
    {d : Descriptor} (htx : tx.wf = true) (hrx : rx.wf = true) (hnull : sendNull tx rx = false)
    (hplan : sendPlan s.cfg tx rx dcs = some (path, d)) :
    exec (.send tx rx dcs) s =
      operation true rx.buffer (opVerdict s.cfg (componentOf d path)) (opBody s.cfg (componentOf d path)) s := by
  have haccepted : (tx.wf && rx.wf) = true := by simp [htx, hrx]
  have hverdict : sendVerdict s.cfg tx rx dcs = opVerdict s.cfg (componentOf d path) := by
    rw [sendVerdict, hnull, if_neg Bool.false_ne_true, hplan, ← pathVerdict_eq]
  have hbody : sendBody tx rx dcs (start rx.buffer s) = opBody s.cfg (componentOf d path) (start rx.buffer s) := by
    rw [sendBody, start_cfg, hplan, ← pathBody_eq]
  show operation (tx.wf && rx.wf) rx.buffer (sendVerdict s.cfg tx rx dcs) (sendBody tx rx dcs) s = _
  rw [haccepted, hverdict]
  exact operation_congr hbody

theorem exec_send_readRow {tx : PayloadArg} {rx : ResponseArg} {dcs : Bool} {dt : BitVec 6} {s : State}
    (htx : tx.wf = true) (hrx : rx.wf = true) (hgiven : Given tx) (hpos : 0 < rx.len) (hlent : rx.buffer ≠ none)
    (hrow : (tx.len, dcs, dt) ∈ readRows s.cfg) :
    exec (.send tx rx dcs) s = exec (.grd (descriptorFor s.cfg dt tx rx 0b11)) s := by
  rw [exec_send_planned htx hrx (not_sendNull hgiven hlent) (sendPlan_readRow hpos hrow),
    ← descriptorFor_wf (c := s.cfg) (dt := dt) (flags := 0b11) htx hrx]
  rfl

/-- An operation that lends nothing, run with a buffer of length 0 lent or with none, is the operation but for that
empty buffer (R182). -/
theorem operation_lendingEmpty {i : Instr} {rx : ResponseArg} {s : State} {n : Nat} (hne : i ≠ .init)
    (hlends : lendsNothing i = true) (hwf : i.wf = true) (hrx : rx.wf = true) (hlen : rx.len = 0)
    (hsafe : ∀ t : State, t.cfg = s.cfg → (opBody s.cfg i t).Safe Ended n none t) :
    operation true rx.buffer (opVerdict s.cfg i) (opBody s.cfg i) s = lendingEmpty rx (exec i s) := by
  have hexec : exec i s = operation true none (opVerdict s.cfg i) (opBody s.cfg i) s := by
    rw [exec_operation hne, hwf, opLent_of_lendsNothing hlends]
  cases hbuffer : rx.buffer with
  | none =>
    rw [← hexec]
    cases exec i s <;> simp [lendingEmpty, hbuffer]
  | some b =>
    obtain rfl : b = [] := List.length_eq_zero_iff.1 ((response_length hrx hbuffer).trans hlen)
    cases hfault : s.fault with
    | some f => rw [hexec, operation_faulted hfault, operation_faulted hfault]; rfl
    | none =>
      obtain ⟨t, ht⟩ := exec_next (i := i) hfault
      rw [ht, operation_lendEmpty (opBody_sim i s.cfg) hsafe rfl (hexec.symm.trans ht)]
      simp [lendingEmpty, hbuffer]

/-- A row that writes, with no response requested: the component's operation, but for a buffer of length 0. -/
theorem exec_send_write {tx : PayloadArg} {rx : ResponseArg} {dcs : Bool} {dt : BitVec 6} {s : State} {path : Path}
    (htx : tx.wf = true) (hrx : rx.wf = true) (hgiven : Given tx) (hlen : rx.len = 0) (hpath : path ≠ .read)
    (hplan : sendPlan s.cfg tx rx dcs = some (path, descriptorFor s.cfg dt tx rx 0b00)) :
    exec (.send tx rx dcs) s = lendingEmpty rx (exec (componentOf (descriptorFor s.cfg dt tx rx 0b00) path) s) := by
  have hwf : (descriptorFor s.cfg dt tx rx 0b00).wf = true := descriptorFor_wf htx hrx
  rw [exec_send_planned htx hrx (not_sendNull_unrequested hgiven hlen) hplan]
  cases path with
  | gsw => exact operation_lendingEmpty nofun rfl hwf hrx hlen fun t hcfg => hcfg ▸ gswBody_safe _ none t
  | dsw => exact operation_lendingEmpty nofun rfl hwf hrx hlen fun t hcfg => hcfg ▸ dswBody_safe _ none t
  | lw => exact operation_lendingEmpty nofun rfl hwf hrx hlen fun t hcfg => hcfg ▸ lwBody_safe _ none t
  | read => exact absurd rfl hpath

theorem exec_send_gswRow {tx : PayloadArg} {rx : ResponseArg} {dt : BitVec 6} {s : State} (htx : tx.wf = true)
    (hrx : rx.wf = true) (hgiven : Given tx) (hlen : rx.len = 0)
    (hrow : (tx.len, false, dt) ∈ shortWriteRows s.cfg) :
    exec (.send tx rx false) s = lendingEmpty rx (exec (.gsw (descriptorFor s.cfg dt tx rx 0b00)) s) :=
  exec_send_write (path := .gsw) htx hrx hgiven hlen nofun (sendPlan_shortRow hlen hrow)

theorem exec_send_dswRow {tx : PayloadArg} {rx : ResponseArg} {dt : BitVec 6} {s : State} (htx : tx.wf = true)
    (hrx : rx.wf = true) (hgiven : Given tx) (hlen : rx.len = 0)
    (hrow : (tx.len, true, dt) ∈ shortWriteRows s.cfg) :
    exec (.send tx rx true) s = lendingEmpty rx (exec (.dsw (descriptorFor s.cfg dt tx rx 0b00)) s) :=
  exec_send_write (path := .dsw) htx hrx hgiven hlen nofun (sendPlan_shortRow hlen hrow)

/-- Settles O38: one clause for the read rows and one for each kind of write row. -/
theorem sendRunsItsComponent : Obligations.SendRunsItsComponent := by
  intro tx rx dcs s htx hrx hgiven
  refine ⟨fun dt hrow hpos hlent => exec_send_readRow htx hrx hgiven hpos hlent hrow, fun hlen => ⟨?_, ?_, ?_⟩⟩
  · rintro dt rfl hrow
    exact exec_send_gswRow htx hrx hgiven hlen hrow
  · rintro dt rfl hrow
    exact exec_send_dswRow htx hrx hgiven hlen hrow
  · exact fun dt hlong hrow =>
      exec_send_write (path := .lw) htx hrx hgiven hlen nofun (sendPlan_longRow hlen hlong hrow)

/-! ### The short-write rows (R184, R186, R188) -/

theorem gswValid_shortRow {c : Config} {tx : PayloadArg} {rx : ResponseArg} {dt : BitVec 6} {flags : BitVec 2}
    (hgiven : Given tx) (hrow : (tx.len, false, dt) ∈ shortWriteRows c) :
    GswValid c (descriptorFor c dt tx rx flags) := by
  simp only [GswValid, descriptorFor, BitVec.ofNat_toNat, BitVec.setWidth_eq]
  have hrows : tx.len = 0 ∧ dt = c.dt.genSw0 ∨ tx.len = 1 ∧ dt = c.dt.genSw1 ∨ tx.len = 2 ∧ dt = c.dt.genSw2 := by
    simpa [shortWriteRows] using hrow
  obtain ⟨hlen, rfl⟩ | ⟨hlen, rfl⟩ | ⟨hlen, rfl⟩ := hrows <;> exact ⟨by omega, hgiven, by simp⟩

theorem dswValid_shortRow {c : Config} {tx : PayloadArg} {rx : ResponseArg} {dt : BitVec 6} {flags : BitVec 2}
    (hgiven : Given tx) (hrow : (tx.len, true, dt) ∈ shortWriteRows c) :
    DswValid c (descriptorFor c dt tx rx flags) := by
  simp only [DswValid, descriptorFor, BitVec.ofNat_toNat, BitVec.setWidth_eq]
  have hrows : tx.len = 0 ∧ dt = c.dt.dcsSw0 ∨ tx.len = 1 ∧ dt = c.dt.dcsSw0 := by
    simpa [shortWriteRows] using hrow
  obtain ⟨hlen, rfl⟩ | ⟨hlen, rfl⟩ := hrows <;> exact ⟨by omega, hgiven, by simp⟩

/-- A short write that did nothing but return, with a buffer of length 0 lent or none. -/
theorem lendingEmpty_returned {rx : ResponseArg} {s : State} (hready : Ready s) (n : Nat) (evs : List Event)
    (r : Result) :
    lendingEmpty rx (.next (returned s n evs r)) =
      .next { returned s n evs r with response := if rx.buffer = none then s.response else [] } := by
  have hfault : (returned s n evs r).fault = none := hready.1
  cases hbuffer : rx.buffer with
  | none => simp [lendingEmpty, hbuffer, returned]
  | some b => simp [lendingEmpty, hbuffer, hfault]

/-- Settles O39: the row's component is `GSW` or `DSW` (O38), which writes its header (O22, O23); a DCS row has no
second byte. -/
theorem sendShortWriteRows : Obligations.SendShortWriteRows := by
  intro tx rx dcs dt s k hready hlive hstable htx hrx hgiven hlen hrow hk hfirst
  have hwf : (descriptorFor s.cfg dt tx rx 0b00).wf = true := descriptorFor_wf htx hrx
  have hdt : BitVec.ofNat 6 dt.toNat = dt := by simp
  cases dcs with
  | false =>
    have hvalid := gswValid_shortRow (rx := rx) (flags := 0b00) hgiven hrow
    rw [exec_send_gswRow htx hrx hgiven hlen hrow,
      gswWritesItsHeader _ s k hready hlive hstable hwf hvalid hk hfirst, lendingEmpty_returned hready]
    simp only [inlineHeader, descriptorFor, hdt]
  | true =>
    have hvalid := dswValid_shortRow (rx := rx) (flags := 0b00) hgiven hrow
    have hbyte : byteOf tx 1 = 0#8 := byteOrZero_past htx hvalid.1
    rw [exec_send_dswRow htx hrx hgiven hlen hrow,
      dswWritesItsHeader _ s k hready hlive hstable hwf hvalid hk hfirst, lendingEmpty_returned hready, hbyte]
    simp only [descriptorFor, hdt]

/-! ### The parts of a read (R191, R193) -/

theorem grdValid_iff (d : Descriptor) : grdValid d = true ↔ GrdValid d := by
  simp [grdValid, GrdValid, payloadGiven_iff, ResponseArg.present, Option.isSome_iff_ne_none, and_assoc]

theorem grdVerdict_invalid {d : Descriptor} (h : ¬ GrdValid d) : grdVerdict d = .invalid :=
  if_neg (mt (grdValid_iff d).1 h)

theorem readRuns_payload {c : Config} {i : Instr} {d : Descriptor} (h : ReadRuns c i d) : d.payload.wf = true := by
  obtain ⟨-, hwf, -⟩ | ⟨tx, rx, dcs, dt, -, htx, -, -, -, -, -, rfl⟩ := h
  · exact descriptor_wf_payload hwf
  · exact htx

/-- A gated header write, its word as the condition says. -/
theorem hdrWrite_headerParts {header : Word → Prop} {h : Word} (hh : header h) (s : State) :
    (hdrWrite h s).Takes (headerParts s.cfg header) s := by
  refine (hdrWrite_takes h s).mono ?_ (fun _ _ _ _ => trivial)
  rintro r evs t - (⟨vs, more, hmatched, rfl, a, rest, ha, hrest⟩ | hmissed)
  · exact .inl ⟨vs, more, hmatched, rfl, a, rest, ⟨h, hh, ha⟩, hrest⟩
  · exact .inr hmissed

theorem maxSizeHdr_takes (d : Descriptor) (s : State) :
    (maxSizeHdr d s).Takes (if d.flags.getLsbD 1 then
      headerParts s.cfg (· = countHeader s.cfg s.cfg.dt.setMaxRet d d.response.len) else []) s := by
  unfold maxSizeHdr hasSetMax
  split
  · exact hdrWrite_headerParts (header := (· = countHeader s.cfg s.cfg.dt.setMaxRet d d.response.len)) rfl s
  · exact .done s

/-- The request header, whatever the host does to the payload meanwhile (R61, R133). -/
theorem inlineHdr_word {d : Descriptor} (hwf : d.payload.wf = true) (s : State) :
    ∃ lo hi, (inlineHdr d s).1 = hdr s.cfg (BitVec.ofNat 6 d.dataType) (BitVec.ofNat 2 d.channelId) lo hi ∧
      (s.txChanged = [] → lo = byteOf d.payload 0 ∧ hi = byteOf d.payload 1) := by
  refine ⟨_, _, rfl, fun htx => ?_⟩
  simp only [inlineByte_wf htx hwf]
  exact ⟨rfl, rfl⟩

theorem readRequest_takes {d : Descriptor} (hwf : d.payload.wf = true) (s : State) :
    (readRequest d s).Takes (if s.cfg.btaBeforeReadHdr then
      enableParts s.cfg ++ requestParts s.cfg d s.txChanged
      else requestParts s.cfg d s.txChanged ++ enableParts s.cfg) s := by
  have hword := inlineHdr_word hwf s
  obtain ⟨n, hn⟩ := inlineHdr_draws d s
  have hheader (t : State) (hcfg : t.cfg = s.cfg) :
      (hdrWrite (inlineHdr d s).1 t).Takes (requestParts s.cfg d s.txChanged) t := by
    simp only [requestParts, ← hcfg] at hword ⊢
    exact hdrWrite_headerParts hword t
  simp only [readRequest]
  rw [hn]
  refine Flow.Spec.draws (n := n) ?_
  split
  · exact setBta_takes true fun _ _ t hran => hheader t hran.cfg
  · refine (hheader { s with draws := n } rfl).onOk fun _ t hran => ?_
    have hcfg : s.cfg = t.cfg := hran.cfg.symm
    rw [hcfg]
    exact setBta_takes true fun _ _ u _ => .done u

theorem grdSeq_takes {d : Descriptor} (hwf : d.payload.wf = true) (s : State) :
    (grdSeq d s).Takes (readParts s.cfg d s.txChanged) s := by
  rw [readParts, List.append_assoc, List.append_assoc]
  refine (maxSizeHdr_takes d s).onOk fun _ t ht => ?_
  rw [← ht.cfg, ← ht.txChanged]
  refine (readRequest_takes hwf t).onOk fun _ u hu => ?_
  rw [← hu.cfg]
  refine (waitForAck_takes u).onOk fun _ v hv => ?_
  rw [← hv.cfg]
  exact readWords_takes _ _ 0 v

/-- A read: its parts as far as they go, and then `disable_bta` (R191, R193). -/
theorem grdBody_course {d : Descriptor} (hwf : d.payload.wf = true) (s : State) :
    (grdBody d s).Spec s
      (fun r evs _ => ∃ taken a b, evs = taken ++ disableEvents s.cfg a b ∧
        Course s.cfg (readParts s.cfg d s.txChanged) taken r)
      (fun _ _ => True) := by
  refine Flow.Spec.bind (grdSeq_takes hwf s) (fun _ _ _ => trivial) fun r taken t hran hcourse => ?_
  refine (setBta_spec false t).bind (fun _ _ _ => trivial) ?_
  rintro _ evs u - ⟨a, b, rfl, -⟩
  rw [hran.cfg]
  exact Flow.Spec.done ⟨taken, a, b, by rw [List.append_nil]; rfl, hcourse⟩

/-- Settles O41: the body takes its parts and then disables BTA (`grdBody_course`), and a live platform lets it end;
what does not pass ends before any event. -/
theorem readAlwaysDisablesBta : Obligations.ReadAlwaysDisablesBta := by
  intro i d s hready
  refine ⟨fun hlive hruns => ?_, ?_⟩
  · obtain ⟨b, -, hexec⟩ := exec_readRuns hready hruns
    have hbody := grdBody_course (readRuns_payload hruns) (start (some b) s)
    obtain ⟨r, -, evs, hresult, htrace, taken, v, w, rfl, hcourse⟩ := finish_live hlive hbody
    refine ⟨_, taken, r, v, w, hexec, by rw [htrace, List.append_assoc]; rfl, hcourse, hresult, ?_⟩
    rw [htrace, ← List.append_assoc]
    exact lastWrites_setBtaEvents s.cfg false _ v w
  · rintro rfl hwf hinvalid
    exact ⟨_, operation_invalid hready hwf (grdVerdict_invalid hinvalid), (reply_fields _ _ s).1⟩

/-! ### A read whose answers are laid down (R73, R191) -/

/-- The answers `ans` come next and then `rest`, on a live platform of configuration `c` whose host leaves the
buffers alone. -/
structure Answers (c : Config) (s : State) (ans rest : List Word) : Prop where
  cfg : s.cfg = c
  live : Live s
  stable : Stable s
  reads : s.reads = ans ++ rest

/-- The state with only `rest` left of the answers, `evs` emitted, and `m` the response buffer. -/
def State.answered (s : State) (rest : List Word) (evs : List Event) (m : Memory) : State :=
  { s with reads := rest, trace := s.trace ++ evs, response := m }

/-- A piece that uses up the answers `ans`, emits `evs` and ends with `a`; it may write the response buffer, whose
one form it keeps. -/
def Flow.Uses {α : Type} (c : Config) (ans : List Word) (evs : List Event) (a : α) (x : State → Flow α) : Prop :=
  ∀ s rest, Answers c s ans rest →
    ∃ m : Memory, (s.response.wf → m.wf) ∧ x s = .done a (s.answered rest evs m)

section

variable {c : Config} {ans ans' rest : List Word} {evs evs' : List Event} {s : State}

theorem Answers.peek (h : Answers c s ans rest) {k : Nat} (hk : k < ans.length) : s.peek k = ans[k] := by
  simp [State.peek, h.reads, List.getElem?_append_left hk, hk]

theorem Answers.afterReads_emits (h : Answers c s ans rest) :
    (s.afterReads ans.length).emits evs = s.answered rest evs s.response := by
  simp [State.afterReads, State.emits, State.answered, h.reads]

theorem Answers.answered (h : Answers c s (ans ++ ans') rest) (m : Memory) :
    Answers c (s.answered (ans' ++ rest) evs m) ans' rest :=
  ⟨h.cfg, h.live, h.stable, rfl⟩

theorem Answers.append (h : Answers c s (ans ++ ans') rest) : Answers c s ans (ans' ++ rest) :=
  ⟨h.cfg, h.live, h.stable, h.reads.trans (List.append_assoc _ _ _)⟩

/-- A piece in closed form: it uses answers, emits events and does nothing else. -/
theorem Flow.Uses.of_closed {α : Type} {a : α} {x : State → Flow α}
    (h : ∀ s rest, Answers c s ans rest → x s = .done a ((s.afterReads ans.length).emits evs)) :
    Flow.Uses c ans evs a x := fun s rest hs =>
  ⟨s.response, id, by rw [h s rest hs, hs.afterReads_emits]⟩

theorem Flow.Uses.congr {α : Type} {a : α} {x y : State → Flow α} (hy : Flow.Uses c ans evs a y)
    (h : ∀ s, s.cfg = c → Stable s → x s = y s) : Flow.Uses c ans evs a x := fun s rest hs => by
  rw [h s hs.cfg hs.stable]
  exact hy s rest hs

theorem Flow.Uses.done {α : Type} (a : α) : Flow.Uses c [] [] a (.done a) :=
  .of_closed fun s _ _ => by simp

theorem Flow.Uses.bind {α β : Type} {a : α} {b : β} {x : State → Flow α} {f : α → State → Flow β}
    (hx : Flow.Uses c ans evs a x) (hf : Flow.Uses c ans' evs' b (f a)) :
    Flow.Uses c (ans ++ ans') (evs ++ evs') b (fun s => (x s).bind f) := fun s rest hs => by
  obtain ⟨m, hm, hx⟩ := hx s (ans' ++ rest) hs.append
  obtain ⟨m', hm', hf⟩ := hf _ rest (hs.answered (evs := evs) m)
  refine ⟨m', fun hwf => hm' (hm hwf), ?_⟩
  show (x s).bind f = _
  rw [hx, flow_done_bind, hf]
  simp [State.answered]

theorem Flow.Uses.onOk {r : Result} {x f : State → Flow Result} (hx : Flow.Uses c ans evs .ok x)
    (hf : Flow.Uses c ans' evs' r f) : Flow.Uses c (ans ++ ans') (evs ++ evs') r (fun s => (x s).onOk f) :=
  hx.bind (f := fun r s => if r = .ok then f s else .done r s) hf

end

section

variable {c : Config} {v w : Word}

theorem hdrWrite_uses (h : Word) (hfree : cmdFree c v = true) :
    Flow.Uses c [v] (headerEvents c v h) .ok (hdrWrite h) :=
  .of_closed fun s _ hs => by
    have hv : s.peek 0 = v := hs.peek Nat.zero_lt_one
    rw [hdrWrite_open hs.live (by rwa [hs.cfg, hv]), hs.cfg, hv]
    rfl

theorem setBta_uses (c : Config) (b : Bool) (v w : Word) :
    Flow.Uses c [v, w] (setBtaEvents c b v w) () (setBta b) :=
  .of_closed fun s _ hs => by
    have hv : s.peek 0 = v := hs.peek Nat.zero_lt_two
    have hw : s.peek 1 = w := hs.peek Nat.one_lt_two
    rw [setBta_live hs.live, hs.cfg, hv, hw]
    rfl

theorem waitForAck_uses (hv : leftTx c v = true) (hw : leftRx c w = true) :
    Flow.Uses c [v, w] [.rd c.offPhyStatus v, .rd c.offPhyStatus w] .ok waitForAck :=
  .of_closed fun s _ hs => by
    have hpeek0 : s.peek 0 = v := hs.peek Nat.zero_lt_two
    have hpeek1 : s.peek 1 = w := hs.peek Nat.one_lt_two
    have hphase1 : s.FirstHit (leftTx s.cfg) 0 0 := firstHit_zero (by rwa [hs.cfg, hpeek0])
    have hphase2 : s.FirstHit (leftRx s.cfg) (0 + 1) 0 := ⟨nofun, by rwa [hs.cfg, hpeek1]⟩
    rw [waitForAck_hit hs.live (cfg_retryMax s.cfg) (cfg_retryMax s.cfg) hphase1 hphase2, hs.cfg]
    simp [phyPoll, peeks_succ, pollTrace, hpeek0, hpeek1]

theorem pldRead_uses (i n : Nat) (hready : pldRReady c v = true) :
    Flow.Uses c [v, w] [.rd c.offCmdPktStatus v, .rd c.offGenPldData w] .ok (pldRead i n) := by
  have hwait : Flow.Uses c [v] [.rd c.offCmdPktStatus v] .ok (waitFor .pldRNotEmpty) :=
    .of_closed fun s _ hs => by
      have hv : s.peek 0 = v := hs.peek Nat.zero_lt_one
      rw [waitFor_hit hs.live (cfg_retryMax s.cfg) (firstHit_zero (by rwa [hs.cfg, hv])), hs.cfg]
      simp [statusPoll, peeks_succ, pollTrace, hv]
  refine hwait.onOk (ans' := [w]) (evs' := [.rd c.offGenPldData w]) fun s rest hs => ?_
  have hw : s.peek 0 = w := hs.peek Nat.zero_lt_one
  refine ⟨writeWordBytes i w s.response n, fun hwf => writeWordBytes_wf i w hwf n, ?_⟩
  have hread : regRead c.offGenPldData s = .done w (s.answered rest [.rd c.offGenPldData w] s.response) := by
    rw [regRead_live hs.live, hw, ← hs.afterReads_emits]
    rfl
  rw [hs.cfg, hread, flow_done_bind, storeWord_stable (by exact hs.stable.2)]
  rfl

theorem readWords_uses (c : Config) (r : Nat) : ∀ (words : List (Word × Word)) (i : Nat),
    (∀ w ∈ words, pldRReady c w.1 = true) →
    Flow.Uses c (words.flatMap fun w => [w.1, w.2])
      (words.flatMap fun w => [.rd c.offCmdPktStatus w.1, .rd c.offGenPldData w.2]) .ok (readWords r words.length i)
  | [], _, _ => .done _
  | w :: words, i, h => by
    have hrest := readWords_uses c r words (i + 1) fun w hw => h w (List.mem_cons_of_mem _ hw)
    exact ((pldRead_uses i (min 4 (r - 4 * i)) (h w List.mem_cons_self)).onOk hrest).congr
      fun s _ _ => readWords_succ r words.length i s

end

section

variable {c : Config} {d : Descriptor} {v : Word}

theorem maxSizeHdr_uses (d : Descriptor) (hfree : cmdFree c v = true) :
    Flow.Uses c (if d.flags.getLsbD 1 then [v] else [])
      (if d.flags.getLsbD 1 then headerEvents c v (countHeader c c.dt.setMaxRet d d.response.len) else [])
      .ok (maxSizeHdr d) := by
  cases hmax : d.flags.getLsbD 1 with
  | false => exact (Flow.Uses.done Result.ok).congr fun s _ _ => if_neg (Bool.eq_false_iff.1 hmax)
  | true =>
    exact (hdrWrite_uses _ hfree).congr fun s hcfg _ => by
      rw [← hcfg]
      exact if_pos hmax

theorem readRequest_uses (v' w : Word) (hwf : d.payload.wf = true) (hfree : cmdFree c v = true) :
    Flow.Uses c (if c.btaBeforeReadHdr then [v', w, v] else [v, v', w])
      (if c.btaBeforeReadHdr then enableEvents c v' w ++ headerEvents c v (inlineHeader c d)
        else headerEvents c v (inlineHeader c d) ++ enableEvents c v' w)
      .ok (readRequest d) := by
  have hheader := hdrWrite_uses (inlineHeader c d) hfree
  have henable := setBta_uses c true v' w
  have hinline (s : State) (hcfg : s.cfg = c) (hstable : Stable s) : inlineHdr d s = (inlineHeader c d, s) := by
    rw [inlineHdr_stable hstable.1 hwf, hcfg]
    rfl
  cases horder : c.btaBeforeReadHdr with
  | true =>
    exact (henable.bind (f := fun _ => hdrWrite (inlineHeader c d)) hheader).congr fun s hcfg hstable => by
      simp only [readRequest, hinline s hcfg hstable, hcfg, horder, if_true]
      rfl
  | false =>
    have hlast := henable.bind (f := fun _ s => .done Result.ok s) (.done Result.ok)
    exact (hheader.onOk hlast).congr fun s hcfg hstable => by
      simp only [readRequest, hinline s hcfg hstable, hcfg, horder]
      rfl

end

/-- A read whose every poll matches at its first read (R191). -/
theorem grdBody_uses {c : Config} {d : Descriptor} {a : ReadAnswers} (hhit : a.AllHit c)
    (hwf : d.payload.wf = true) (hwords : a.words.length = wordCount d.response.len) :
    Flow.Uses c (a.inOrder c d) (a.events c d) .ok (grdBody d) := by
  obtain ⟨hmax, hreq, hleftTx, hleftRx, hready⟩ := hhit
  have hack := waitForAck_uses (bne_iff_ne.2 hleftTx) (bne_iff_ne.2 hleftRx)
  have hread := readWords_uses c d.response.len a.words 0 hready
  have hdisable := setBta_uses c false a.modeCfg' a.pckhdl'
  rw [hwords] at hread
  have hseq : Flow.Uses c _ _ .ok (grdSeq d) := (maxSizeHdr_uses d hmax).onOk
    ((readRequest_uses a.modeCfg a.pckhdl hwf hreq).onOk (hack.onOk hread))
  have hbody : Flow.Uses c _ _ .ok (grdBody d) := hseq.bind
    (f := fun r s => (disableBta s).bind fun _ s => .done r s)
    (hdisable.bind (f := fun _ s => .done Result.ok s) (.done Result.ok))
  simpa only [ReadAnswers.inOrder, ReadAnswers.events, setBtaEvents_false, List.append_assoc, List.append_nil]
    using hbody

/-! ### The response of such a read (R73, R198) -/

theorem readsAt_words (c : Config) : ∀ words : List (Word × Word),
    readsAt c.offGenPldData (words.flatMap fun w => [.rd c.offCmdPktStatus w.1, .rd c.offGenPldData w.2]) =
      words.map (·.2)
  | [] => rfl
  | w :: words => by
    have hne := (cfg_apart c).2.1
    simp [readsAt, hne, readsAt_words c words]

/-- The words the trace shows read from `GEN_PLD_DATA` are those laid down. -/
theorem readsAt_readEvents (a : ReadAnswers) (c : Config) (d : Descriptor) :
    readsAt c.offGenPldData (a.events c d) = a.words.map (·.2) := by
  obtain ⟨-, hstatus, -, hphy, -, hmode, -, hpckhdl, -⟩ := cfg_apart c
  have hheader (v h : Word) : readsAt c.offGenPldData (headerEvents c v h) = [] := by
    simp [headerEvents, readsAt, hstatus]
  have hbta (v v' w w' : Word) : readsAt c.offGenPldData (btaTrace c v v' w w') = [] := by
    simp [btaTrace, readsAt, hmode, hpckhdl]
  have hphases : readsAt c.offGenPldData [.rd c.offPhyStatus a.dir1, .rd c.offPhyStatus a.dir2] = [] := by
    simp [readsAt, hphy]
  simp only [ReadAnswers.events, enableEvents, disableEvents, readsAt_append, readsAt_words, hphases, hbta,
    List.append_nil]
  split <;> split <;> simp [readsAt_append, hheader, hbta, readsAt]

/-- Byte k of the words is byte k mod 4 of word k div 4 (R73). -/
theorem wordBytes_getElem? : ∀ (words : List (Word × Word)) (k : Nat), k < 4 * words.length →
    (words.flatMap fun w => [wordByte w.2 0, wordByte w.2 1, wordByte w.2 2, wordByte w.2 3])[k]? =
      some (wordByte ((words.map (·.2))[k / 4]?.getD 0#32) (k % 4))
  | [], _, hk => absurd hk (Nat.not_lt_zero _)
  | w :: words, k, hk => by
    match k with
    | 0 | 1 | 2 | 3 => rfl
    | k + 4 =>
      have hrest := wordBytes_getElem? words k (by rw [List.length_cons] at hk; omega)
      simpa [Nat.add_div_right] using hrest

/-- The response buffer after a read is the bytes of the words its trace shows (O42), as one list. -/
theorem response_eq_bytes {m : Memory} {a : ReadAnswers} {r : Nat} (hwf : m.wf) (hlen : a.words.length = (r + 3) / 4)
    (hbytes : ∀ k, k < r → m.read k = some (wordByte ((a.words.map (·.2))[k / 4]?.getD 0#32) (k % 4)))
    (hpast : ∀ k, r ≤ k → m.read k = none) : m = Memory.ofBytes 0 (a.bytes r) := by
  refine ext_read hwf (ofBytes_wf _ _) fun k => ?_
  rw [read_ofBytes, if_neg (Nat.not_lt_zero k), Nat.sub_zero, ReadAnswers.bytes, List.getElem?_take]
  by_cases hk : k < r
  · rw [if_pos hk, wordBytes_getElem? a.words k (by omega), hbytes k hk]
  · rw [if_neg hk, hpast k (Nat.le_of_not_lt hk)]

/-- Settles O40: the answers laid down lead the body through its parts (`grdBody_uses`), and the trace they leave
determines the response (O42). -/
theorem readEventByEvent : Obligations.ReadEventByEvent := by
  intro i d s a rest hready hlive hstable hruns hwords hhit hreads
  obtain ⟨b, -, hexec⟩ := exec_readRuns hready hruns
  have hidle : s.busy = false := hready.2.1
  obtain ⟨m, hm, hbody⟩ := grdBody_uses hhit (readRuns_payload hruns) hwords (start (some b) s) rest
    ⟨rfl, hlive, hstable, hreads⟩
  have hnext : exec i s = .next { s with
      reads := rest, trace := s.trace ++ a.events s.cfg d, result := some .ok, response := m } := by
    rw [hexec, hbody, finish, reply_ok]
    simp [State.answered, hidle]
  obtain ⟨-, hbytes, hpast⟩ := readUnpacksResponse i d s _ _ hready hstable hruns hnext rfl rfl
  rw [readsAt_readEvents] at hbytes
  rw [hnext, ← response_eq_bytes (hm (ofBytes_wf _ _)) hwords hbytes hpast]

end Sys2Proof.Machine
end

section
/-! PROOFS. 60_exceptions: what the marks stand for and what clears them (R228–R230), the gate before `INIT` (R223),
the causes of `InvalidArgument` (R221), and that every operation ends (R220, R227). -/

namespace Sys2Proof.Machine

open Sys2Proof Sys2Proof.Claims

/-! ### The marks and `busy`, step by step (R228, R229, R230, R261) -/

/-- A busy block stays as hung as it was; an idle one is busy after an operation only if the operation hung. -/
theorem exec_busyOnlyWhileHung {i : Instr} {s t : State} (hs : BusyOnlyWhileHung s) (h : exec i s = .next t) :
    BusyOnlyWhileHung t := by
  obtain ⟨-, evs, did⟩ := exec_did h
  refine fun hbusy => ⟨?_, did.unanswered hbusy⟩
  obtain hbefore | hhung := did.hangs hbusy
  · exact (did.stays hbefore).1.trans (hs hbefore).1
  · exact hhung

/-- Settles O56: neither the port nor a wait changes what it speaks of, a reset clears `busy`, and an operation
leaves `busy` set only where the platform hangs. -/
theorem stepKeepsBusyOnlyWhileHung : Obligations.StepKeepsBusyOnlyWhileHung := fun _ _ =>
  step_keeps (fun _ _ _ _ hs => hs) (fun _ _ _ => (nomatch ·)) fun _ _ _ => exec_busyOnlyWhileHung

/-- An operation that answers a next state leaves a sound fault mark, whatever it found: it ran on an unmarked block,
and marks an overlap only where that block was busy. -/
theorem exec_faultMarkSound {i : Instr} {s t : State} (h : exec i s = .next t) : FaultMarkSound t := by
  obtain ⟨-, evs, did⟩ := exec_did h
  refine ⟨fun hoverlap => ?_, did.faulted⟩
  by_cases hquiet : i.wf = false ∨ s.busy = false
  · obtain hnone | ⟨hdepth, -⟩ := did.faults hquiet
    · rw [hnone] at hoverlap; cases hoverlap
    · rw [hdepth] at hoverlap; cases hoverlap
  · exact (did.stays (Bool.eq_true_of_not_eq_false (not_or.1 hquiet).2)).2

/-- Settles O57: neither the port nor a wait changes what it speaks of, a reset clears the mark, and an operation
leaves it sound. -/
theorem stepKeepsFaultMarkSound : Obligations.StepKeepsFaultMarkSound := fun _ _ =>
  step_keeps (fun _ _ _ _ hs => hs) (fun _ _ _ => ⟨(nomatch ·), fun _ => rfl⟩) fun _ _ _ _ => exec_faultMarkSound

/-- Settles O51: waiting changes nothing, a reset is excluded, and of the operations one that answers a next state
found no fault mark and only ever adds the refusal mark. -/
theorem onlyResetClearsMarks : Obligations.OnlyResetClearsMarks := by
  intro s t h hport
  obtain ⟨-, rfl⟩ | ⟨rest, hreset, -⟩ | ⟨op, tx, rx, rest, i, -, hexec⟩ := step_cases h
  · exact ⟨fun _ => id, id⟩
  · exact absurd (by rw [hreset]; rfl) hport
  · obtain ⟨hunmarked, evs, did⟩ := exec_did hexec
    refine ⟨fun f hf => ?_, fun hrefused => ?_⟩
    · rw [taken_fault, hf] at hunmarked
      cases hunmarked
    · rw [did.refused, taken_refused, hrefused, Bool.true_or]

/-! ### A marked block and a busy block (R228, R230) -/

/-- Settles O16: `INIT` and the course of every other operation look at the fault mark first. -/
theorem faultedBlockRunsNothing : Obligations.FaultedBlockRunsNothing := by
  intro i s f hf
  by_cases hi : i = .init
  · subst hi
    simp [exec_init, execInit, hf]
  · rw [exec_operation hi, operation_faulted hf]

/-- Settles O9: on an unmarked busy block `INIT` and every other accepted operation come to the check of overlap. -/
theorem overlapFaults : Obligations.OverlapFaults := by
  intro i s hf hwf hbusy
  by_cases hi : i = .init
  · subst hi
    simp [exec_init, execInit, hf, hbusy, raiseFault]
  · rw [exec_operation hi]
    exact operation_overlap hf hwf hbusy

/-! ### Returns before any event (R221, R223) -/

theorem reply_reads (lent : Option (List Nat)) (r : Result) (s : State) : (reply lent r s).reads = s.reads := by
  unfold reply
  split
  · rfl
  · split <;> rfl

/-- A reply on an idle block touches the result and the lent bytes only (R41). -/
theorem onlyReturns_reply {s : State} (hidle : s.busy = false) (lent : Option (List Nat)) (r : Result) :
    OnlyReturns s (reply lent r s) r := by
  obtain ⟨htrace, hcfg, hport, htx, hrx, hinit, hrefused, hfault, hbusy, hstall, hresult⟩ := reply_fields lent r s
  exact ⟨hresult, htrace, hcfg, hinit, hbusy.trans hidle.symm, hfault, hrefused, hport, reply_reads lent r s, hstall,
    htx, hrx⟩

/-- Settles O10: the gate of the shared course is a reply. -/
theorem gateBeforeInit : Obligations.GateBeforeInit := by
  intro i s hf hidle hinit hwf hi
  refine ⟨reply (opLent i) .notInitialized s, ?_, onlyReturns_reply hidle _ _⟩
  rw [exec_operation hi, operation_gate hf hwf hidle hinit]

/-! ### The checks of each operation (R121, R122, R129, R190, R200) -/

theorem gswValid_iff (c : Config) (d : Descriptor) : gswValid c d = true ↔ GswValid c d := by
  simp [gswValid, GswValid, payloadGiven_iff, genSwFamily, typeBits, and_assoc, or_assoc]

theorem dswValid_iff (c : Config) (d : Descriptor) : dswValid c d = true ↔ DswValid c d := by
  simp [dswValid, DswValid, payloadGiven_iff, dcsSwFamily, typeBits, and_assoc]

theorem gswVerdict_eq_invalid_iff (c : Config) (d : Descriptor) : gswVerdict c d = .invalid ↔ ¬ GswValid c d := by
  simp [gswVerdict, gswValid_iff]

theorem dswVerdict_eq_invalid_iff (c : Config) (d : Descriptor) : dswVerdict c d = .invalid ↔ ¬ DswValid c d := by
  simp [dswVerdict, dswValid_iff]

theorem grdVerdict_eq_invalid_iff (d : Descriptor) : grdVerdict d = .invalid ↔ ¬ GrdValid d := by
  simp [grdVerdict, grdValid_iff]

/-- The depth is no cause of `InvalidArgument`: past it the long write faults (R129). -/
theorem lwVerdict_eq_invalid_iff (c : Config) (d : Descriptor) : lwVerdict c d = .invalid ↔ ¬ Given d.payload := by
  refine ⟨fun h hgiven => ?_, lwVerdict_invalid⟩
  obtain hdepth | hdepth := Nat.lt_or_ge c.pldFifoDepth d.payload.len
  · rw [lwVerdict_fault hgiven hdepth] at h; cases h
  · rw [lwVerdict_run hgiven hdepth] at h; cases h

theorem sendNull_iff (tx : PayloadArg) (rx : ResponseArg) :
    sendNull tx rx = true ↔ ¬ Given tx ∨ (0 < rx.len ∧ rx.buffer = none) := by
  simp [sendNull, Given, PayloadArg.present, ResponseArg.present, Nat.pos_iff_ne_zero]

/-- The rows of R184 by kind: rejected, a read, a short write or a long write. -/
theorem classification_kinds (c : Config) (len : Nat) (req dcs : Bool) :
    SendRejected len req dcs ∨ (req = true ∧ ∃ dt, (len, dcs, dt) ∈ readRows c) ∨
    (req = false ∧ ∃ dt, (len, dcs, dt) ∈ shortWriteRows c) ∨
    (req = false ∧ 3 ≤ len ∧ ∃ dt, (dcs, dt) ∈ longRows c) := by
  match len with
  | 0 => cases req <;> cases dcs <;> simp [SendRejected, readRows, shortWriteRows]
  | 1 => cases req <;> cases dcs <;> simp [SendRejected, readRows, shortWriteRows]
  | 2 => cases req <;> cases dcs <;> simp [SendRejected, readRows, shortWriteRows]
  | n + 3 => cases req <;> cases dcs <;> simp [SendRejected, longRows]

theorem rowPath_rejected (c : Config) {len : Nat} {req dcs : Bool} (h : SendRejected len req dcs) :
    rowPath c (classify len req dcs) = none := by
  obtain ⟨rfl, rfl, rfl⟩ | ⟨rfl, rfl⟩ | ⟨hlen, rfl⟩ := h
  · rfl
  · cases req <;> rfl
  · exact rowPath_longRead c hlen dcs

/-- The checks of the component a row of `SEND` names find nothing to reject in the descriptor of that row (R187). -/
theorem sendVerdict_ne_invalid {c : Config} {tx : PayloadArg} {rx : ResponseArg} {dcs : Bool}
    (hcause : ¬ InvalidCause c (.send tx rx dcs)) : sendVerdict c tx rx dcs ≠ .invalid := by
  obtain ⟨hgiven, hlent, haccepted⟩ : Given tx ∧ ¬ (0 < rx.len ∧ rx.buffer = none) ∧
      ¬ SendRejected tx.len (decide (0 < rx.len)) dcs := by
    simpa only [InvalidCause, not_or, not_not] using hcause
  have hnull : sendNull tx rx = false :=
    Bool.eq_false_iff.2 fun hnull => ((sendNull_iff tx rx).1 hnull).elim (· hgiven) hlent
  rw [sendVerdict, hnull, if_neg Bool.false_ne_true]
  obtain h | ⟨hreq, dt, hrow⟩ | ⟨hreq, dt, hrow⟩ | ⟨hreq, hlen, dt, hrow⟩ :=
    classification_kinds c tx.len (decide (0 < rx.len)) dcs
  · exact absurd h haccepted
  · have hpos : 0 < rx.len := of_decide_eq_true hreq
    have hshort : tx.len ≤ 2 := (rowPath_readRow hrow).1
    rw [sendPlan_readRow hpos hrow]
    exact mt (grdVerdict_eq_invalid_iff _).1 (not_not_intro ⟨hshort, hgiven, fun hnone => hlent ⟨hpos, hnone⟩⟩)
  · have hzero : rx.len = 0 := Nat.eq_zero_of_not_pos (of_decide_eq_false hreq)
    rw [sendPlan_shortRow hzero hrow]
    cases dcs with
    | false => exact mt (gswVerdict_eq_invalid_iff c _).1 (not_not_intro (gswValid_shortRow hgiven hrow))
    | true => exact mt (dswVerdict_eq_invalid_iff c _).1 (not_not_intro (dswValid_shortRow hgiven hrow))
  · have hzero : rx.len = 0 := Nat.eq_zero_of_not_pos (of_decide_eq_false hreq)
    rw [sendPlan_longRow hzero hlen hrow]
    exact mt (lwVerdict_eq_invalid_iff c _).1 (not_not_intro hgiven)

theorem sendVerdict_eq_invalid_iff (c : Config) (tx : PayloadArg) (rx : ResponseArg) (dcs : Bool) :
    sendVerdict c tx rx dcs = .invalid ↔ InvalidCause c (.send tx rx dcs) := by
  refine ⟨not_imp_not.1 sendVerdict_ne_invalid, fun hcause => ?_⟩
  obtain hnull | hlent | hrejected := hcause
  · rw [sendVerdict, if_pos ((sendNull_iff tx rx).2 (.inl hnull))]
  · rw [sendVerdict, if_pos ((sendNull_iff tx rx).2 (.inr hlent))]
  · rw [sendVerdict, sendPlan, rowPath_rejected c hrejected]
    exact ite_self _

/-- The causes of R221 are exactly what the checks of the operations reject. -/
theorem opVerdict_eq_invalid_iff (c : Config) (i : Instr) : opVerdict c i = .invalid ↔ InvalidCause c i := by
  cases i with
  | send tx rx dcs => exact sendVerdict_eq_invalid_iff c tx rx dcs
  | gsw d => exact gswVerdict_eq_invalid_iff c d
  | dsw d => exact dswVerdict_eq_invalid_iff c d
  | lw d => exact lwVerdict_eq_invalid_iff c d
  | grd d => exact grdVerdict_eq_invalid_iff d
  | _ => exact ⟨nofun, nofun⟩

/-- Settles O11: a cause makes the verdict `invalid` (`opVerdict_eq_invalid_iff`), which is a reply. -/
theorem invalidArgumentCauses : Obligations.InvalidArgumentCauses := by
  intro i s hready hwf hcause
  have hidle : s.busy = false := hready.2.1
  have hi : i ≠ .init := by rintro rfl; exact hcause
  refine ⟨reply (opLent i) .invalidArgument s, ?_, onlyReturns_reply hidle _ _⟩
  rw [exec_operation hi, operation_invalid hready hwf ((opVerdict_eq_invalid_iff _ _).2 hcause)]

/-- Settles O12: of all an operation can do (`exec_cases`), only the verdict `invalid` answers with that result. -/
theorem invalidArgumentOnlyForCause : Obligations.InvalidArgumentOnlyForCause := by
  intro i s t ⟨_, _, hinitialized⟩ hwf h hresult
  obtain ⟨-, ⟨-, rfl⟩ | ⟨-, -, rfl⟩ | ⟨-, -, rfl⟩ | ⟨-, -, -, hinit, -⟩ | ⟨-, -, -, h⟩⟩ := exec_cases h
  · cases hresult
  · cases hresult
  · cases hresult
  · rw [hinitialized] at hinit; cases hinit
  · obtain ⟨hverdict, -⟩ | ⟨f, -, rfl⟩ | ⟨hverdict, rfl⟩ := h
    · exact (opVerdict_eq_invalid_iff _ _).1 hverdict
    · cases hresult
    · obtain ⟨evs, -, -, hends⟩ := run_ends hwf hverdict
      obtain h | ⟨tag, h⟩ := hends.unrejected.2 _ hresult <;> cases h

/-! ### Every operation ends (R220, R227, R228) -/

/-- The block is idle and has returned a result, without a fault mark. -/
def Answered (t : State) : Prop := t.busy = false ∧ ∃ r, t.result = some r ∧ t.fault = none

theorem answered_reply {s : State} (hf : s.fault = none) (lent : Option (List Nat)) (r : Result) :
    Answered (reply lent r s) := by
  obtain ⟨-, -, -, -, -, -, -, hfault, hbusy, -, hresult⟩ := reply_fields lent r s
  exact ⟨hbusy, r, hresult, hfault.trans hf⟩

/-- On a live platform no body hangs. -/
theorem Ends.answered {i : Instr} {s t : State} {evs : List Event} (h : Ends i s t evs) (hf : s.fault = none)
    (hlive : Live s) : Answered t := by
  obtain ⟨u, r, hran, -, -, rfl⟩ | ⟨hran, hstall, -⟩ := h
  · obtain ⟨-, -, -, -, -, -, -, hfault, -⟩ := start_fields (opLent i) s
    exact answered_reply (hran.fault.trans (hfault.trans hf)) _ r
  · have hcompletes : t.stallAfter = none := hran.live ((start_live (opLent i) s).2 hlive)
    exact absurd (hcompletes.symm.trans hstall) nofun

/-- Settles O14: on an idle unmarked block an accepted operation replies at once, raises the depth fault, or runs a
body that ends (`Ends.answered`). -/
theorem everyOperationEnds : Obligations.EveryOperationEnds := by
  intro i s hf hidle hlive hwf
  obtain ⟨t, h⟩ := exec_next (i := i) hf
  refine ⟨t, h, ?_⟩
  obtain ⟨-, ⟨hrefused, -⟩ | ⟨-, hbusy, -⟩ | ⟨-, -, rfl⟩ | ⟨-, -, -, -, rfl⟩ | ⟨-, -, -, h⟩⟩ := exec_cases h
  · rw [hwf] at hrefused; cases hrefused
  · rw [hidle] at hbusy; cases hbusy
  · exact ⟨rfl, .inl ⟨.ok, rfl, hf⟩⟩
  · exact And.imp_right .inl (answered_reply hf _ _)
  · obtain ⟨-, rfl⟩ | ⟨f, hverdict, rfl⟩ | ⟨hverdict, rfl⟩ := h
    · exact And.imp_right .inl (answered_reply hf _ _)
    · obtain rfl := verdict_fault hverdict
      exact ⟨hidle, .inr ⟨rfl, rfl⟩⟩
    · obtain ⟨evs, -, -, hends⟩ := run_ends hwf hverdict
      exact And.imp_right .inl (hends.answered hf hlive)

end Sys2Proof.Machine
end

section
/-! PROOFS. 70_reset_and_hazards: what a reset clears and leaves alone (R250, R251), the gate right before every FIFO
access (R255), and the most events an operation emits (R261). -/

namespace Sys2Proof.Machine

open Sys2Proof Sys2Proof.Claims

/-! ### Reset (R250, R251) -/

theorem step_reset {s : State} {rest : List HostInput} (hport : s.port = .reset :: rest) :
    step s = .next (resetBlock { s with port := rest }) := by
  simp [step, hport]

/-- Settles O49: the step takes the item and runs `resetBlock`, whose fields are the statement's. -/
theorem resetClearsTheBlock : Obligations.ResetClearsTheBlock := fun _ _ => step_reset

/-! ### Flow control (R255) -/

/-- An operation extends a gated trace by events that are gated whatever came before them (`Good`): every access
it emits has its own poll's matching read among the new events, so none relies on the last event of the old trace. -/
theorem exec_traceGated {i : Instr} {s t : State} (hs : TraceGated s) (h : exec i s = .next t) : TraceGated t := by
  obtain ⟨-, evs, did⟩ := exec_did h
  obtain ⟨-, hgated⟩ := did.good
  unfold TraceGated
  rw [did.cfg, did.trace]
  exact gated_append hgated hs

/-- Settles O55: neither the port nor a reset emits an event, and every operation emits gated ones. -/
theorem stepKeepsTraceGated : Obligations.StepKeepsTraceGated := fun _ _ =>
  step_keeps (fun _ _ _ _ hs => hs) (fun _ _ hs => hs) fun _ _ _ => exec_traceGated

/-! ### Termination (R261) -/

/-- The bound proved of the bodies is the one R261 gives, operation by operation. -/
theorem opBound_eq_eventBound (c : Config) (i : Instr) : opBound c i = eventBound c i := by cases i <;> rfl

/-- Settles O46: an operation adds its own events to the trace, at most as many as its body's bound. -/
theorem eventsAreBounded : Obligations.EventsAreBounded := by
  intro i s t h
  obtain ⟨-, evs, did⟩ := exec_did h
  calc t.trace.length
    _ = s.trace.length + evs.length := by rw [did.trace, List.length_append]
    _ ≤ s.trace.length + opBound s.cfg i := Nat.add_le_add_left did.length _
    _ = s.trace.length + eventBound s.cfg i := by rw [opBound_eq_eventBound]

end Sys2Proof.Machine
end
